-- ==== Sys2Proof/Word.lean ====
section
/-! DEFINITION. The word types of the block (00_scope.md R8, R10) and the line levels (R12). -/

namespace Sys2Proof

/-- One transport transfer, a font byte, a character code: 8 bits (R8 `BYTE_BITS`, `CHAR_BITS`). -/
abbrev Byte := BitVec 8

/-- A colour or a bitmap element: 16 bits, opaque to the block (R8 `COLOUR_BITS`, R78). -/
abbrev Colour := BitVec 16

/-- A receiver address register or write-pointer half: 16 bits (R8 `ADDR_REG_BITS`). -/
abbrev Addr := BitVec 16

/-- A qualified byte `DC, b[7:0]`: bit 8 is the qualifier (30_encoding.md R71). -/
abbrev FrameWord := BitVec 9

/-- What a line holds (R12): 0, 1, or unknown because nothing has driven it. -/
inductive Level
  | low
  | high
  | unknown
  deriving DecidableEq, Repr

/-- The level a `drive(l, v)` sets (R13). -/
def Level.ofBool (v : Bool) : Level := if v then .high else .low

/-- The bit a sampled level gives, none where the level is `U`. -/
def Level.bit? : Level → Option Bool
  | .low => some false
  | .high => some true
  | .unknown => none

end Sys2Proof
end

