-- ==== Sys2Proof/Config.lean ====
section
/-! DEFINITION. The implementation parameters of 00_scope.md R8 with the laws of R9, the instance the
reset state holds, and the one opaque free value. The configuration stands in `State` and no step
changes it, so a claim about every state is a claim about every instance (log 1). -/

namespace Sys2Proof

/-- `TRANSPORT_MODE` (R8, R105). -/
inductive TransportMode
  | hw
  | bitbang
  deriving DecidableEq, Repr

/-- The named time of a `Delay(T)` event (R8, R13). -/
inductive DelayName
  | rstPulse
  | rstSettle
  | swresetSettle
  | slpoutSettle
  | bit
  deriving DecidableEq, Repr

/-- The seven command opcodes of R73, configuration constants of R8. -/
structure Opcodes where
  swreset : Byte
  slpout : Byte
  colmod : Byte
  dispon : Byte
  caset : Byte
  raset : Byte
  ramwr : Byte
  deriving DecidableEq, Repr

/-- The seven opcodes in the order of R73. -/
def Opcodes.all (o : Opcodes) : List Byte :=
  [o.swreset, o.slpout, o.colmod, o.dispon, o.caset, o.raset, o.ramwr]

/-- The values of spec/opcode_table.json.
PRESUMED (log 3): the ST7735's codes, which the spec gives from general knowledge (G1). -/
def Opcodes.table : Opcodes where
  swreset := 0x01
  slpout := 0x11
  colmod := 0x3A
  dispon := 0x29
  caset := 0x2A
  raset := 0x2B
  ramwr := 0x2C

/-- Every parameter of R8 that is not a fixed width. -/
structure Params where
  /-- `TRANSPORT_MODE`. -/
  transport : TransportMode
  /-- `CMD_*`. -/
  opcodes : Opcodes
  /-- `COLMOD_16BPP`. -/
  colmod16bpp : Byte
  /-- `FIRST_PRINTABLE`. -/
  firstPrintable : Nat
  /-- `SPLIT_CHAR`. -/
  splitChar : Nat
  /-- `LAST_PRINTABLE`. -/
  lastPrintable : Nat
  /-- `FONT_A`. -/
  fontA : List Byte
  /-- `FONT_B`. -/
  fontB : List Byte
  /-- `T_RST_PULSE`. -/
  tRstPulse : Nat
  /-- `T_RST_SETTLE`. -/
  tRstSettle : Nat
  /-- `T_SWRESET_SETTLE`. -/
  tSwresetSettle : Nat
  /-- `T_SLPOUT_SETTLE`. -/
  tSlpoutSettle : Nat
  /-- `T_BIT`; 0 is no wait. -/
  tBit : Nat
  /-- `TX_WAIT_BOUND`; none is unbounded. -/
  txWaitBound : Option Nat
  /-- `RAM_COLS`. -/
  ramCols : Nat
  /-- `RAM_ROWS`. -/
  ramRows : Nat
  /-- `RX_T_RESET_MIN`. -/
  rxResetMin : Nat
  /-- `RX_T_SLPOUT_MIN`. -/
  rxSlpoutMin : Nat
  /-- `RX_T_RSTW_MIN`. -/
  rxRstwMin : Nat
  deriving DecidableEq, Repr

/-- `CHAR_ADVANCE` (R8, R196). -/
def charAdvance : Nat := 6

/-- `GLYPH_COLS` and `GLYPH_BYTES` (R8). -/
def glyphCols : Nat := 5

/-- `GLYPH_ROWS` (R8). -/
def glyphRows : Nat := 7

/-- The parameter laws of R9, with R8's `n ≥ 1` for a set `TX_WAIT_BOUND`. -/
def Params.laws (p : Params) : Bool :=
  decide (p.firstPrintable < p.splitChar) &&
  decide (p.splitChar ≤ p.lastPrintable) &&
  decide (p.lastPrintable ≤ 0xFF) &&
  decide (p.fontA.length = 5 * (p.splitChar - p.firstPrintable)) &&
  decide (p.fontB.length = 5 * (p.lastPrintable + 1 - p.splitChar)) &&
  decide (1 ≤ p.ramCols) && decide (p.ramCols ≤ 256) &&
  decide (1 ≤ p.ramRows) && decide (p.ramRows ≤ 256) &&
  decide p.opcodes.all.Nodup &&
  p.txWaitBound.all (fun n => decide (1 ≤ n))

/-- A model instance: parameters that satisfy R9 ("A model instance must satisfy …"). -/
structure Config extends Params where
  /-- R9. -/
  lawful : toParams.laws = true
  deriving DecidableEq, Repr

/-- The real time a delay name stands for (R8, R13). -/
def Config.time (c : Config) : DelayName → Nat
  | .rstPulse => c.tRstPulse
  | .rstSettle => c.tRstSettle
  | .swresetSettle => c.tSwresetSettle
  | .slpoutSettle => c.tSlpoutSettle
  | .bit => c.tBit

/-- The test font TF of 95_test_vectors.md section 0, table A. DESIGN CHOICE (log 2). -/
def testFontA : List Byte :=
  (((List.replicate 240 (0 : Byte)).set 165 0x01).set 169 0x40).set 170 0x80

/-- The test font TF, table B. DESIGN CHOICE (log 2). -/
def testFontB : List Byte := (List.replicate 235 (0 : Byte)).set 10 0x03

/-- The parameter instance of 95_test_vectors.md section 0, which the reset state holds.
DESIGN CHOICE (log 2): the spec leaves these OPEN, and no claim may rest on them. -/
def Params.vectors : Params where
  transport := .bitbang
  opcodes := Opcodes.table
  colmod16bpp := 0x05
  firstPrintable := 0x20
  splitChar := 0x50
  lastPrintable := 0x7E
  fontA := testFontA
  fontB := testFontB
  tRstPulse := 1
  tRstSettle := 120
  tSwresetSettle := 120
  tSlpoutSettle := 120
  tBit := 0
  txWaitBound := none
  ramCols := 128
  ramRows := 128
  rxResetMin := 120
  rxSlpoutMin := 120
  rxRstwMin := 1

/-- The instance the reset state holds (log 2). -/
def Config.vectors : Config := { toParams := Params.vectors, lawful := by decide +kernel }

/-- FREE VALUE (log 15). How many polls of `TXDONE` read 0 before the SPI peripheral completes a
transfer, when the state's schedule says nothing: "a free choice of the schedule" (R101). Nothing
constrains it but that it is a number: the fairness R107 assumes. -/
opaque Config.freePolls : Nat → Nat

end Sys2Proof
end

