-- ==== Sys2Proof/Syntax.lean ====
section
/-! DEFINITION. The instructions: one constructor for each row of spec/opcode_table.json, and the names
under which a decoder rejects. -/

namespace Sys2Proof

/-- The commands a command byte stands for (30_encoding.md R73, R88). -/
inductive Command
  | swreset
  | slpout
  | colmod
  | dispon
  | caset
  | raset
  | ramwr
  | unsupported (b : Byte)
  deriving DecidableEq, Repr

/-- An instruction. Frame words carry their 8-bit operand. A host operation carries the caller's
numbers, which may not fit their widths (R86, R286); `bitmap` and `text` are the element lists of the
spaces the caller refers to (20_memory.md R50; log 22). -/
inductive Instr
  /-- `CMD_SWRESET` (R247). -/
  | cmdSwreset
  /-- `CMD_SLPOUT` (R249). -/
  | cmdSlpout
  /-- `CMD_COLMOD` (R250). -/
  | cmdColmod
  /-- `CMD_DISPON` (R251). -/
  | cmdDispon
  /-- `CMD_CASET` (R252). -/
  | cmdCaset
  /-- `CMD_RASET` (R252). -/
  | cmdRaset
  /-- `CMD_RAMWR` (R253). -/
  | cmdRamwr
  /-- `DATA`: a parameter or pixel byte (R245). -/
  | data (d : Byte)
  /-- `CMD_UNSUPPORTED`: one of the 249 other command words (R256). -/
  | cmdUnsupported (b : Byte)
  /-- `init()` (R221). -/
  | init
  /-- `set_window(x1, y1, x2, y2)` (R140). -/
  | setWindow (x1 y1 x2 y2 : Nat)
  /-- `fill_rectangle(x1, y1, x2, y2, colour)` (R162). -/
  | fillRectangle (x1 y1 x2 y2 colour : Nat)
  /-- `draw_pixel(x, y, colour)` (R164). -/
  | drawPixel (x y colour : Nat)
  /-- `draw_bitmap(x, y, scale, bitmap)` (R167). -/
  | drawBitmap (x y scale : Nat) (bitmap : List Colour)
  /-- `draw_char(x, y, char, colour, size)` (R192). -/
  | drawChar (x y ch colour size : Nat)
  /-- `draw_string(x, y, colour, size, text)` (R195). -/
  | drawString (x y colour size : Nat) (text : List Byte)
  /-- `transmit(b)` of the HW transport (R101). -/
  | transmitHw (b : Byte)
  /-- `transmit(b)` of the BITBANG transport (R102). -/
  | transmitBitbang (b : Byte)
  /-- `write_command(b)` (R121). -/
  | writeCommand (b : Byte)
  /-- `write_data(b)` (R122). -/
  | writeData (b : Byte)
  /-- `write_pixels(c, n)`, `n ≥ 1` (R161). -/
  | writePixels (c : Colour) (n : Nat)
  /-- `glyph(ch)` (R190). -/
  | glyph (ch : Byte)
  deriving DecidableEq, Repr

/-- Why bytes are no instruction. -/
inductive DecodeError
  /-- A character or a number no token of the call syntax begins with. -/
  | badToken
  /-- Tokens that are not a name and a bracketed argument list. -/
  | badCall
  /-- A name that is none of the table's, for example `draw_line` (R286). -/
  | unknownName
  /-- A known name with the wrong number or kind of arguments, or a primitive's argument or an
  element that its type cannot hold. That this is `REF_UNKNOWN_OP` is a DESIGN CHOICE (log 38). -/
  | badArguments
  /-- A caller's call that is a primitive or a frame word, none of the seven host operations (R86, R87, R286). -/
  | notHostOp
  deriving DecidableEq, Repr

end Sys2Proof
end

