-- ==== Sys2Proof/Machine/State.lean ====
section
/-! DEFINITION. The state of the machine as plain data (10_state.md), the reasons it stops, and the state
at power-on (10_state.md R34, 70_reset_and_hazards.md R321, R322). The spec's value `U` is `unknown` or
`none`, as each docstring says. -/

namespace Sys2Proof.Machine

open Sys2Proof

/-! ### Lines and bus events (10_state.md R20, R21) -/

/-- The five output lines (R21). -/
inductive Line
  | cs
  | dc
  | rst
  | sck
  | sdo
  deriving DecidableEq, Repr

/-- The levels of the five lines (R12, R21). -/
structure Lines where
  cs : Level
  dc : Level
  rst : Level
  sck : Level
  sdo : Level
  deriving DecidableEq, Repr

/-- A bus event (R20). -/
inductive BusEvent
  | drive (l : Line) (v : Bool)
  | delay (t : DelayName)
  | txByte (b : Byte)
  deriving DecidableEq, Repr

/-- An event of the frame projection (30_encoding.md R79). `partialByte` is the rule's `Partial`;
`unknownByte` is a byte whose value or qualifier holds `U`; that it is one event, which keeps no part of the byte, is a
DESIGN CHOICE (log 39). -/
inductive FrameEvent
  | csFall
  | csRise
  | rstLow
  | rstHigh
  | cmd (b : Byte)
  | dat (b : Byte)
  | wait (t : DelayName)
  | partialByte
  | unknownByte
  deriving DecidableEq, Repr

/-! ### The sequencer (10_state.md R24 to R26) -/

/-- The operation executing, with its argument latches (R24, R25). -/
inductive Op
  | idle
  | busy (i : Instr)
  deriving DecidableEq, Repr

/-- The locals (R24): "the loop indices and intermediate values named in each operation's pseudocode", each
none until it is assigned. One record serves an operation and those inlined in it (R26; log 23). -/
structure Locals where
  /-- `polls` of `transmit.HW` (R101). -/
  polls : Option Nat
  /-- `k` of `transmit.BITBANG` (R102). -/
  bit : Option Nat
  /-- `hi` of `unpack` (R160). -/
  hi : Option Byte
  /-- `lo` of `unpack` (R160). -/
  lo : Option Byte
  /-- `r` of `fill_rectangle` (R162). -/
  r : Option Nat
  /-- `q` of `fill_rectangle` (R162). -/
  q : Option Nat
  /-- `xe` of `draw_pixel` (R164). -/
  xe : Option Byte
  /-- `ye` of `draw_pixel` (R164). -/
  ye : Option Byte
  /-- `hdr` of `draw_bitmap` (R167). -/
  hdr : Option (List Colour)
  /-- `w` of `draw_bitmap` (R167). -/
  w : Option Colour
  /-- `h` of `draw_bitmap` (R167). -/
  h : Option Colour
  /-- `c` of `draw_bitmap` (R167). -/
  c : Option Colour
  /-- `i` of `draw_bitmap` and of `draw_char` (R167, R192). -/
  i : Option Nat
  /-- `j` of `draw_bitmap` and of `draw_char` (R167, R192). -/
  j : Option Nat
  /-- `ox` of `draw_bitmap` and of `draw_char` (R167, R192). -/
  ox : Option Int
  /-- `oy` of `draw_bitmap` and of `draw_char` (R167, R192). -/
  oy : Option Int
  /-- `g` of `glyph` and of `draw_char` (R190, R192). -/
  g : Option (List Byte)
  /-- `b` of `draw_char` (R192). -/
  b : Option Byte
  /-- `k` of `draw_string` (R195). -/
  k : Option Nat
  /-- `ch` of `draw_string` (R195). -/
  ch : Option Byte
  deriving DecidableEq, Repr

/-- An assignment `name <- value` of a pseudocode line, or of a loop to its index. -/
inductive Assign
  | hi (v : Byte)
  | lo (v : Byte)
  | r (v : Nat)
  | q (v : Nat)
  | xe (v : Byte)
  | ye (v : Byte)
  | hdr (v : List Colour)
  | w (v : Colour)
  | h (v : Colour)
  | c (v : Colour)
  | i (v : Nat)
  | j (v : Nat)
  | ox (v : Int)
  | oy (v : Int)
  | g (v : List Byte)
  | b (v : Byte)
  | k (v : Nat)
  | ch (v : Byte)
  deriving DecidableEq, Repr

/-- A model fault with its recorded value (60_exceptions.md R280). -/
inductive FaultCode
  /-- `LINES_NOT_IDLE`: the levels of `CS`, `DC` and `RST`. -/
  | linesNotIdle (cs dc rst : Level)
  /-- `COORD_RANGE`: the computed integer. -/
  | coordRange (v : Int)
  /-- `WINDOW_INVERTED`. -/
  | windowInverted (x1 y1 x2 y2 : Byte)
  /-- `CHAR_RANGE`: the character code. -/
  | charRange (ch : Byte)
  /-- `BITMAP_BOUNDS`: the index. -/
  | bitmapBounds (index : Nat)
  /-- `STRING_BOUNDS`: the index `len(text)`. -/
  | stringBounds (index : Nat)
  /-- `TX_TIMEOUT`: the byte. -/
  | txTimeout (b : Byte)
  deriving DecidableEq, Repr

/-- What a fault records (R284): the code with its value, the operation and the step. -/
structure FaultRecord where
  code : FaultCode
  op : Op
  pc : Nat
  deriving DecidableEq, Repr

/-! ### The SPI peripheral (10_state.md R28, R29) -/

/-- The peripheral of the HW transport. -/
structure Spi where
  /-- `TXBUF`; none is `U`. -/
  txbuf : Option Byte
  /-- `TXDONE`; none is `U`. -/
  txdone : Option Bool
  /-- The hidden shift state: the byte whose bits are not all clocked out. -/
  inFlight : Option Byte
  /-- The schedule of the peripheral, a model input (log 15): for each coming transfer, how many polls
  read 0. -/
  sched : List Nat
  deriving DecidableEq, Repr

/-! ### The receiver (10_state.md R32) -/

/-- The serial input shift register `rx.shift`, `b0` the bit last shifted in. -/
structure Shift8 where
  b7 : Level
  b6 : Level
  b5 : Level
  b4 : Level
  b3 : Level
  b2 : Level
  b1 : Level
  b0 : Level
  deriving DecidableEq, Repr

/-- Which parameter byte comes next: `Param(cmd, k)` of R32. -/
inductive ParamPos
  | caset (k : Fin 4)
  | raset (k : Fin 4)
  | colmod
  deriving DecidableEq, Repr

/-- `rx.mode`. -/
inductive RxMode
  | unknown
  | idle
  | param (p : ParamPos)
  | pixels
  deriving DecidableEq, Repr

/-- `rx.pbuf`: four bytes, each `U` (none) until received. -/
structure ParamBuf where
  p0 : Option Byte
  p1 : Option Byte
  p2 : Option Byte
  p3 : Option Byte
  deriving DecidableEq, Repr

/-- `rx.SLEEP`. -/
inductive SleepState
  | unknown
  | asleep
  | awake
  deriving DecidableEq, Repr

/-- `rx.DISP`. -/
inductive DispState
  | unknown
  | on
  | off
  deriving DecidableEq, Repr

/-- `rx.hi`: `U`, `None`, or the first byte of a pixel. -/
inductive HiByte
  | unknown
  | empty
  | byte (b : Byte)
  deriving DecidableEq, Repr

/-- `rx.rst`: `U`, `High`, or `Low(ok)`. -/
inductive RstView
  | unknown
  | high
  | low (ok : Bool)
  deriving DecidableEq, Repr

/-- `rx.settle`: `U`, `None`, or `Need(m)`. -/
inductive Settle
  | unknown
  | clear
  | need (m : Nat)
  deriving DecidableEq, Repr

/-- Why the controller's behaviour became undefined (46_receiver.md R260). -/
inductive UndefReason
  | partialByte
  | unknownLevel
  | shortReset
  | byteInReset
  | notReset
  | settle
  | partialParams
  | halfPixel
  | strayData
  | noWindow
  | badWindow
  | pixelFormat
  | unsupportedCmd
  deriving DecidableEq, Repr

/-- Frame memory: cells by key, keys strictly rising; a cell that is not listed is `U` (log 21). -/
abbrev Memory := List (Nat × Colour)

/-- The receiver (R32). In an `Option`, none is `U`. -/
structure Rx where
  shift : Shift8
  nbits : Option (Fin 8)
  mode : RxMode
  pbuf : ParamBuf
  xs : Option Addr
  xe : Option Addr
  ys : Option Addr
  ye : Option Addr
  colmod : Option Byte
  sleep : SleepState
  disp : DispState
  pc : Option Addr
  pr : Option Addr
  hi : HiByte
  fb : Memory
  rst : RstView
  settle : Settle
  undef : Option UndefReason
  deriving DecidableEq, Repr

/-! ### Inputs and the state -/

/-- What the outside world can do between instructions (log 11). -/
inductive Input
  /-- `board_setup()` (70_reset_and_hazards.md R324). -/
  | boardSetup
  /-- A call of the caller (00_scope.md R6): the bytes of one of the seven host operations; "the caller cannot
  issue" a primitive (30_encoding.md R87), and any other bytes are `REF_UNKNOWN_OP` (60_exceptions.md R286). -/
  | call (bytes : List Byte)
  /-- The bytes of any row of spec/opcode_table.json, put to the unit that runs it by a test bench and not by
  the caller: a frame word to the receiver, a primitive to the sequencer (log 12, log 13). -/
  | instr (bytes : List Byte)
  /-- A frame event put on the receiver's input (95_test_vectors.md 2.7; "bus glitches"). -/
  | wire (e : FrameEvent)
  deriving DecidableEq, Repr

/-- The state of the machine. -/
structure State where
  /-- The instance's parameters (R8, R30). -/
  cfg : Config
  /-- `line[l]` (R21). -/
  lines : Lines
  /-- The bus trace, oldest event first (R20). -/
  trace : List BusEvent
  /-- `op` with its latches (R24, R25). -/
  op : Op
  /-- `pc` (R26). -/
  pc : Nat
  /-- The locals of R24. -/
  locals : Locals
  /-- `fault` (R24, R284). -/
  fault : Option FaultRecord
  /-- The SPI peripheral (R28). -/
  spi : Spi
  /-- The receiver (R32). -/
  rx : Rx
  /-- The inputs to come, in order (log 11). -/
  inbox : List Input
  /-- The index of the next opaque free value (log 15). -/
  freeCtr : Nat
  deriving DecidableEq, Repr

/-! ### Stops -/

/-- How the machine stops with a fault. -/
inductive Fault
  /-- A host operation or primitive issued after a model fault: "no later host operation is accepted"
  (R284), the stuck state of 93_implementation_defined.md. Raised by `State.issue`. Safe: nothing is
  claimed of a run beyond it. -/
  | sequencerStuck (r : FaultRecord)
  deriving DecidableEq, Repr

/-- How the machine refuses (60_exceptions.md R286). A refused operation changes no state. -/
inductive Refusal
  /-- An instruction with no meaning yet, raised by `exec`'s arm. Safe. -/
  | notModelled (mnemonic : String)
  /-- `REF_ARG_WIDTH`: an argument does not fit its width (R286). Raised by `State.call`. Safe. -/
  | argWidth
  /-- `REF_UNKNOWN_OP`: the caller's bytes are none of the seven host operations, or the bytes of an
  instruction are none of the table (R286). Raised by `step`. Safe. -/
  | unknownOp (why : DecodeError)
  /-- `REF_CONCURRENT_CALLER`: an operation issued while another executes (R286). Raised by
  `State.issue`. Safe. -/
  | concurrentCaller
  /-- A transport's `transmit` in an instance built with the other transport (R6, R100, R105; log 14).
  Raised by `execTransmitHw` and `execTransmitBitbang`. Safe. -/
  | otherTransport
  /-- `write_pixels` with `n = 0`, outside its operand's range (R161; log 30). Raised by
  `execWritePixels`. Safe. -/
  | emptyStream
  deriving DecidableEq, Repr

/-! ### Power-on -/

/-- Every line `U` (R34, R321). -/
def Lines.powerOn : Lines := ⟨.unknown, .unknown, .unknown, .unknown, .unknown⟩

/-- Every bit `U`. -/
def Shift8.unknown : Shift8 :=
  ⟨.unknown, .unknown, .unknown, .unknown, .unknown, .unknown, .unknown, .unknown⟩

/-- A receiver that knows nothing: every field `U` but `undef`. -/
def Rx.blank (undef : Option UndefReason) : Rx where
  shift := .unknown
  nbits := none
  mode := .unknown
  pbuf := ⟨none, none, none, none⟩
  xs := none
  xe := none
  ys := none
  ye := none
  colmod := none
  sleep := .unknown
  disp := .unknown
  pc := none
  pr := none
  hi := .unknown
  fb := []
  rst := .unknown
  settle := .unknown
  undef := undef

/-- No local assigned. -/
def Locals.none : Locals where
  polls := Option.none
  bit := Option.none
  hi := Option.none
  lo := Option.none
  r := Option.none
  q := Option.none
  xe := Option.none
  ye := Option.none
  hdr := Option.none
  w := Option.none
  h := Option.none
  c := Option.none
  i := Option.none
  j := Option.none
  ox := Option.none
  oy := Option.none
  g := Option.none
  b := Option.none
  k := Option.none
  ch := Option.none

/-- The machine at power-on (R34, R321, R322). The instance is log 2's; `spi.inFlight`, `spi.sched`,
`inbox` and `freeCtr` are log 11's and log 24's. -/
def State.reset : State where
  cfg := Config.vectors
  lines := Lines.powerOn
  trace := []
  op := .idle
  pc := 0
  locals := Locals.none
  fault := none
  spi := ⟨none, none, none, []⟩
  rx := Rx.blank none
  inbox := []
  freeCtr := 0

end Sys2Proof.Machine
end

