-- ==== Sys2Proof/Machine/Flags.lean ====
section
/-! DEFINITION. The one flag of the block, `TXDONE` (10_state.md R29), and the completion wait of
40_transport.md R101 and R107. No host operation writes a flag of its own. -/

namespace Sys2Proof.Machine

open Sys2Proof

/-- `TXBUF <- b`: starts the transfer and clears `TXDONE` (R58, R101). -/
def Spi.start (p : Spi) (b : Byte) : Spi :=
  { p with txbuf := some b, txdone := some false, inFlight := some b }

/-- "`TXDONE <- 1`" once the last bit has been clocked (R29, R101). -/
def Spi.complete (p : Spi) : Spi := { p with txdone := some true, inFlight := none }

/-- Whether a wait whose first `zeros` polls read 0 ends in `TX_TIMEOUT`: with no bound never, with bound
`n` when `n` polls read 0 (R107; log 27). -/
def timesOut (bound : Option Nat) (zeros : Nat) : Bool :=
  match bound with
  | none => false
  | some n => decide (max n 1 ≤ zeros)

/-- The polls that read 0 before a `TX_TIMEOUT`. -/
def pollsAtTimeout (bound : Option Nat) : Nat :=
  match bound with
  | none => 0
  | some n => max n 1

/-- The number of polls that read 0 before the peripheral completes its next transfer: the schedule's
next entry, or a free value when it has none (R101; log 15). -/
def State.nextZeros (s : State) : Nat :=
  match s.spi.sched with
  | n :: _ => n
  | [] => Config.freePolls s.freeCtr

/-- The choice of `nextZeros` is used up. -/
def State.useZeros (s : State) : State :=
  match s.spi.sched with
  | _ :: rest => { s with spi := { s.spi with sched := rest } }
  | [] => { s with freeCtr := s.freeCtr + 1 }

end Sys2Proof.Machine
end

