-- ==== Sys2Proof/WellFormed.lean ====
section
/-! DEFINITION. Which terms are instructions: widths (30_encoding.md R86), the pixel count of R161 and
the 249 unsupported command words of R88; and which are host operations and primitives. -/

namespace Sys2Proof

/-- A coordinate, `size`, `scale` or `char` fits its 8 bits (R8, R86). -/
def fitsU8 (n : Nat) : Bool := decide (n < 2 ^ 8)

/-- A colour fits its 16 bits (R8, R86). -/
def fitsU16 (n : Nat) : Bool := decide (n < 2 ^ 16)

/-- The arguments of a host operation fit their widths: the test of `REF_ARG_WIDTH` (R286). Frame words
and primitives carry typed operands, for which there is nothing to test. -/
def Instr.argsFit : Instr → Bool
  | .setWindow x1 y1 x2 y2 => fitsU8 x1 && fitsU8 y1 && fitsU8 x2 && fitsU8 y2
  | .fillRectangle x1 y1 x2 y2 c => fitsU8 x1 && fitsU8 y1 && fitsU8 x2 && fitsU8 y2 && fitsU16 c
  | .drawPixel x y c => fitsU8 x && fitsU8 y && fitsU16 c
  | .drawBitmap x y scale _ => fitsU8 x && fitsU8 y && fitsU8 scale
  | .drawChar x y ch c size => fitsU8 x && fitsU8 y && fitsU8 ch && fitsU16 c && fitsU8 size
  | .drawString x y c size _ => fitsU8 x && fitsU8 y && fitsU16 c && fitsU8 size
  | .cmdSwreset | .cmdSlpout | .cmdColmod | .cmdDispon | .cmdCaset | .cmdRaset | .cmdRamwr => true
  | .data _ | .cmdUnsupported _ | .init => true
  | .transmitHw _ | .transmitBitbang _ | .writeCommand _ | .writeData _ | .writePixels _ _ => true
  | .glyph _ => true

/-- A well-formed instruction under an instance's opcodes. -/
def Instr.wellFormed (ops : Opcodes) (i : Instr) : Bool :=
  i.argsFit &&
  match i with
  | .cmdUnsupported b => !ops.all.contains b
  | .writePixels _ n => decide (1 ≤ n)
  | .cmdSwreset | .cmdSlpout | .cmdColmod | .cmdDispon | .cmdCaset | .cmdRaset | .cmdRamwr => true
  | .data _ | .init | .setWindow _ _ _ _ | .fillRectangle _ _ _ _ _ | .drawPixel _ _ _ => true
  | .drawBitmap _ _ _ _ | .drawChar _ _ _ _ _ | .drawString _ _ _ _ _ => true
  | .transmitHw _ | .transmitBitbang _ | .writeCommand _ | .writeData _ | .glyph _ => true

/-- The seven host operations (30_encoding.md R86). -/
def Instr.isHostOp : Instr → Bool
  | .init | .setWindow _ _ _ _ | .fillRectangle _ _ _ _ _ | .drawPixel _ _ _ => true
  | .drawBitmap _ _ _ _ | .drawChar _ _ _ _ _ | .drawString _ _ _ _ _ => true
  | .cmdSwreset | .cmdSlpout | .cmdColmod | .cmdDispon | .cmdCaset | .cmdRaset | .cmdRamwr => false
  | .data _ | .cmdUnsupported _ => false
  | .transmitHw _ | .transmitBitbang _ | .writeCommand _ | .writeData _ | .writePixels _ _ => false
  | .glyph _ => false

/-- The six primitives (R87). -/
def Instr.isPrimitive : Instr → Bool
  | .transmitHw _ | .transmitBitbang _ | .writeCommand _ | .writeData _ | .writePixels _ _ => true
  | .glyph _ => true
  | .init | .setWindow _ _ _ _ | .fillRectangle _ _ _ _ _ | .drawPixel _ _ _ => false
  | .drawBitmap _ _ _ _ | .drawChar _ _ _ _ _ | .drawString _ _ _ _ _ => false
  | .cmdSwreset | .cmdSlpout | .cmdColmod | .cmdDispon | .cmdCaset | .cmdRaset | .cmdRamwr => false
  | .data _ | .cmdUnsupported _ => false

end Sys2Proof
end

