-- ==== Sys2Proof/Decode.lean ====
section
/-! DEFINITION. Decoding and encoding. A frame word travels in two bytes, its byte first and then `DC` in
bit 0 of the second (log 10). A host operation has no binary encoding (92_eei_decisions.md D38): its bytes
are the ASCII characters of the call syntax of 30_encoding.md R91, which also writes the primitives by
their names in spec/opcode_table.json (log 9). -/

namespace Sys2Proof

/-! ### Frame words (30_encoding.md R71, R73, R88) -/

/-- The command a command byte stands for: the seven exact rows first, then `CMD_UNSUPPORTED`. -/
def Opcodes.command (o : Opcodes) (b : Byte) : Command :=
  if b = o.swreset then .swreset
  else if b = o.slpout then .slpout
  else if b = o.colmod then .colmod
  else if b = o.dispon then .dispon
  else if b = o.caset then .caset
  else if b = o.raset then .raset
  else if b = o.ramwr then .ramwr
  else .unsupported b

/-- The instruction a command stands for. -/
def Command.instr : Command → Instr
  | .swreset => .cmdSwreset
  | .slpout => .cmdSlpout
  | .colmod => .cmdColmod
  | .dispon => .cmdDispon
  | .caset => .cmdCaset
  | .raset => .cmdRaset
  | .ramwr => .cmdRamwr
  | .unsupported b => .cmdUnsupported b

/-- The frame word of a qualifier and a byte (R71). -/
def frameWord (dc : Bool) (b : Byte) : FrameWord := (BitVec.ofBool dc ++ b).cast (by omega)

/-- Every one of the 512 frame words is an instruction (R71, R88): bit 8 is the qualifier. -/
def decodeFrame (o : Opcodes) (w : FrameWord) : Instr :=
  if w.getLsbD 8 then .data (w.setWidth 8) else (o.command (w.setWidth 8)).instr

/-- The frame word of a frame instruction, none for the others. -/
def Instr.frame? (o : Opcodes) : Instr → Option FrameWord
  | .cmdSwreset => some (frameWord false o.swreset)
  | .cmdSlpout => some (frameWord false o.slpout)
  | .cmdColmod => some (frameWord false o.colmod)
  | .cmdDispon => some (frameWord false o.dispon)
  | .cmdCaset => some (frameWord false o.caset)
  | .cmdRaset => some (frameWord false o.raset)
  | .cmdRamwr => some (frameWord false o.ramwr)
  | .data d => some (frameWord true d)
  | .cmdUnsupported b => some (frameWord false b)
  | .init | .setWindow _ _ _ _ | .fillRectangle _ _ _ _ _ | .drawPixel _ _ _ => none
  | .drawBitmap _ _ _ _ | .drawChar _ _ _ _ _ | .drawString _ _ _ _ _ => none
  | .transmitHw _ | .transmitBitbang _ | .writeCommand _ | .writeData _ => none
  | .writePixels _ _ | .glyph _ => none

/-- A frame word as it is stored: bits 7..0, then bit 8 (log 10). -/
def FrameWord.bytes (w : FrameWord) : List Byte := [w.setWidth 8, (w >>> 8).setWidth 8]

/-! ### Reading the call syntax (30_encoding.md R91) -/

/-- The ASCII bytes of a text. -/
def ascii (s : String) : List Byte := s.toList.map fun c => BitVec.ofNat 8 c.toNat

/-- A token of the call syntax. -/
inductive Tok
  | name (cs : List Byte)
  | num (n : Nat)
  | str (cs : List Byte)
  | chr (c : Byte)
  | lpar
  | rpar
  | lbr
  | rbr
  | comma
  deriving DecidableEq, Repr

/-- What the reader of tokens is inside of. -/
inductive LexMode
  | between
  | name (cs : List Byte)
  /-- A `0` that may begin `0x`. -/
  | zero
  /-- After `0x`; `any` says that a digit has been read. -/
  | hex (n : Nat) (any : Bool)
  | dec (n : Nat)
  | str (cs : List Byte)
  | quote
  | quoted (c : Byte)
  deriving DecidableEq, Repr

/-- The tokens read so far, and what the reader is inside of. -/
structure Lexer where
  toks : List Tok
  mode : LexMode
  deriving DecidableEq, Repr

/-- The value of a decimal digit. -/
def digit? (b : Byte) : Option Nat :=
  if 0x30 ≤ b.toNat ∧ b.toNat ≤ 0x39 then some (b.toNat - 0x30) else none

/-- The value of a hexadecimal digit, of either case. -/
def hexDigit? (b : Byte) : Option Nat :=
  if 0x30 ≤ b.toNat ∧ b.toNat ≤ 0x39 then some (b.toNat - 0x30)
  else if 0x41 ≤ b.toNat ∧ b.toNat ≤ 0x46 then some (b.toNat - 0x37)
  else if 0x61 ≤ b.toNat ∧ b.toNat ≤ 0x66 then some (b.toNat - 0x57)
  else none

/-- A byte a name may begin with. -/
def isNameStart (b : Byte) : Bool :=
  decide (0x41 ≤ b.toNat ∧ b.toNat ≤ 0x5A ∨ 0x61 ≤ b.toNat ∧ b.toNat ≤ 0x7A ∨ b = 0x5F)

/-- A byte a name may go on with; the table's names hold a full stop. -/
def isNameByte (b : Byte) : Bool := isNameStart b || (digit? b).isSome || b == 0x2E

/-- One byte read between tokens: a bracket, a comma, a space, or the beginning of a longer token. -/
def Lexer.begin (toks : List Tok) (b : Byte) : Option Lexer :=
  if b = 0x28 then some ⟨toks ++ [.lpar], .between⟩
  else if b = 0x29 then some ⟨toks ++ [.rpar], .between⟩
  else if b = 0x5B then some ⟨toks ++ [.lbr], .between⟩
  else if b = 0x5D then some ⟨toks ++ [.rbr], .between⟩
  else if b = 0x2C then some ⟨toks ++ [.comma], .between⟩
  else if b = 0x20 then some ⟨toks, .between⟩
  else if b = 0x22 then some ⟨toks, .str []⟩
  else if b = 0x27 then some ⟨toks, .quote⟩
  else if b = 0x30 then some ⟨toks, .zero⟩
  else match digit? b with
    | some d => some ⟨toks, .dec d⟩
    | none => if isNameStart b then some ⟨toks, .name [b]⟩ else none

/-- One byte read. DESIGN CHOICE (log 9): every byte between the quotes of a text stands for itself, a backslash
too, since R91 has no escapes. -/
def Lexer.push (l : Lexer) (b : Byte) : Option Lexer :=
  match l.mode with
  | .between => Lexer.begin l.toks b
  | .name cs =>
    if isNameByte b then some ⟨l.toks, .name (cs ++ [b])⟩ else Lexer.begin (l.toks ++ [.name cs]) b
  | .zero =>
    if b = 0x78 then some ⟨l.toks, .hex 0 false⟩
    else match digit? b with
      | some d => some ⟨l.toks, .dec d⟩
      | none => Lexer.begin (l.toks ++ [.num 0]) b
  | .hex n any =>
    match hexDigit? b with
    | some d => some ⟨l.toks, .hex (16 * n + d) true⟩
    | none => if any then Lexer.begin (l.toks ++ [.num n]) b else none
  | .dec n =>
    match digit? b with
    | some d => some ⟨l.toks, .dec (10 * n + d)⟩
    | none => Lexer.begin (l.toks ++ [.num n]) b
  | .str cs => if b = 0x22 then some ⟨l.toks ++ [.str cs], .between⟩ else some ⟨l.toks, .str (cs ++ [b])⟩
  | .quote => some ⟨l.toks, .quoted b⟩
  | .quoted c => if b = 0x27 then some ⟨l.toks ++ [.chr c], .between⟩ else none

/-- A run of bytes read. -/
def Lexer.read : Lexer → List Byte → Option Lexer
  | l, [] => some l
  | l, b :: bs => (l.push b).bind fun l' => l'.read bs

/-- The tokens of a text that ends between tokens (a call ends with its bracket). -/
def lex (bs : List Byte) : Option (List Tok) :=
  ((⟨[], .between⟩ : Lexer).read bs).bind fun l => if l.mode = .between then some l.toks else none

/-- An argument of a call: a number, or the elements of a bitmap or text. -/
inductive Arg
  | num (n : Nat)
  | list (ns : List Nat)
  deriving DecidableEq, Repr

/-- Where the reader of an argument list stands. -/
inductive ArgMode
  /-- Just after the opening bracket. -/
  | first
  /-- After a comma. -/
  | want
  /-- After an argument. -/
  | after
  /-- After `[`. -/
  | listFirst
  /-- After a comma inside `[ ]`. -/
  | listWant (ns : List Nat)
  /-- After an element. -/
  | listAfter (ns : List Nat)
  /-- After the closing bracket. -/
  | closed
  deriving DecidableEq, Repr

/-- The arguments read so far, and where the reader stands. -/
structure ArgReader where
  args : List Arg
  mode : ArgMode
  deriving DecidableEq, Repr

/-- An argument begins. A quoted string "stands for its bytes followed by 0x00" and a quoted character for its
code (R91). DESIGN CHOICE (log 9): R91 writes the quoted character for a character argument, and it is read here
wherever a number may stand, a coordinate, a size, a colour or a primitive's operand too. -/
def ArgReader.begin (args : List Arg) : Tok → Option ArgReader
  | .num n => some ⟨args ++ [.num n], .after⟩
  | .chr c => some ⟨args ++ [.num c.toNat], .after⟩
  | .str cs => some ⟨args ++ [.list (cs.map BitVec.toNat ++ [0])], .after⟩
  | .lbr => some ⟨args, .listFirst⟩
  | .name _ | .lpar | .rpar | .rbr | .comma => none

/-- An element of a list begins. -/
def ArgReader.element (args : List Arg) (ns : List Nat) : Tok → Option ArgReader
  | .num n => some ⟨args, .listAfter (ns ++ [n])⟩
  | .name _ | .str _ | .chr _ | .lpar | .rpar | .lbr | .rbr | .comma => none

/-- One token read. -/
def ArgReader.push (r : ArgReader) (t : Tok) : Option ArgReader :=
  match r.mode with
  | .first => if t = .rpar then some ⟨r.args, .closed⟩ else ArgReader.begin r.args t
  | .want => ArgReader.begin r.args t
  | .after =>
    if t = .comma then some ⟨r.args, .want⟩
    else if t = .rpar then some ⟨r.args, .closed⟩
    else none
  | .listFirst => if t = .rbr then some ⟨r.args ++ [.list []], .after⟩ else ArgReader.element r.args [] t
  | .listWant ns => ArgReader.element r.args ns t
  | .listAfter ns =>
    if t = .comma then some ⟨r.args, .listWant ns⟩
    else if t = .rbr then some ⟨r.args ++ [.list ns], .after⟩
    else none
  | .closed => none

/-- A run of tokens read. -/
def ArgReader.read : ArgReader → List Tok → Option ArgReader
  | r, [] => some r
  | r, t :: ts => (r.push t).bind fun r' => r'.read ts

/-- A name and its arguments. -/
def parseCall : List Tok → Option (List Byte × List Arg)
  | .name nm :: .lpar :: ts =>
    ((⟨[], .first⟩ : ArgReader).read ts).bind fun r =>
      if r.mode = .closed then some (nm, r.args) else none
  | _ => none

/-- An operand of 8 bits. -/
def byteOf? (n : Nat) : Option Byte := if n < 2 ^ 8 then some (BitVec.ofNat 8 n) else none

/-- An operand of 16 bits. -/
def colourOf? (n : Nat) : Option Colour := if n < 2 ^ 16 then some (BitVec.ofNat 16 n) else none

/-- The names of the calls, by constructor: the mnemonics of spec/opcode_table.json. -/
def nmInit : List Byte := ascii "init"
/-- `set_window`. -/
def nmSetWindow : List Byte := ascii "set_window"
/-- `fill_rectangle`. -/
def nmFillRectangle : List Byte := ascii "fill_rectangle"
/-- `draw_pixel`. -/
def nmDrawPixel : List Byte := ascii "draw_pixel"
/-- `draw_bitmap`. -/
def nmDrawBitmap : List Byte := ascii "draw_bitmap"
/-- `draw_char`. -/
def nmDrawChar : List Byte := ascii "draw_char"
/-- `draw_string`. -/
def nmDrawString : List Byte := ascii "draw_string"
/-- `transmit.HW`. -/
def nmTransmitHw : List Byte := ascii "transmit.HW"
/-- `transmit.BITBANG`. -/
def nmTransmitBitbang : List Byte := ascii "transmit.BITBANG"
/-- `write_command`. -/
def nmWriteCommand : List Byte := ascii "write_command"
/-- `write_data`. -/
def nmWriteData : List Byte := ascii "write_data"
/-- `write_pixels`. -/
def nmWritePixels : List Byte := ascii "write_pixels"
/-- `glyph`. -/
def nmGlyph : List Byte := ascii "glyph"

/-- The names of the seven host operations (R86). -/
def hostNames : List (List Byte) :=
  [nmInit, nmSetWindow, nmFillRectangle, nmDrawPixel, nmDrawBitmap, nmDrawChar, nmDrawString]

/-- The names an instruction in the call syntax may have: the host operations' and the primitives' (R86, R87). -/
def callNames : List (List Byte) :=
  hostNames ++ [nmTransmitHw, nmTransmitBitbang, nmWriteCommand, nmWriteData, nmWritePixels, nmGlyph]

/-- The instruction of a primitive with one 8-bit operand. -/
def bytePrimitive (mk : Byte → Instr) : List Arg → Option Instr
  | [.num b] => (byteOf? b).map mk
  | _ => none

/-- The arguments of a call, in the order of R86 and R87. DESIGN CHOICE (log 9): R91 writes the quoted string for a
text argument, and `draw_bitmap` takes one as its list too, its elements the bytes and the 0 after them. DESIGN CHOICE
(log 38): a list with an element its space cannot hold, arguments of the wrong number or kind, and a primitive's operand
out of its range give no instruction, which is `REF_UNKNOWN_OP` and not `REF_ARG_WIDTH`. -/
def buildArgs (nm : List Byte) (args : List Arg) : Option Instr :=
  if nm = nmInit then
    match args with
    | [] => some .init
    | _ => none
  else if nm = nmSetWindow then
    match args with
    | [.num x1, .num y1, .num x2, .num y2] => some (.setWindow x1 y1 x2 y2)
    | _ => none
  else if nm = nmFillRectangle then
    match args with
    | [.num x1, .num y1, .num x2, .num y2, .num c] => some (.fillRectangle x1 y1 x2 y2 c)
    | _ => none
  else if nm = nmDrawPixel then
    match args with
    | [.num x, .num y, .num c] => some (.drawPixel x y c)
    | _ => none
  else if nm = nmDrawBitmap then
    match args with
    | [.num x, .num y, .num scale, .list bm] => (bm.mapM colourOf?).map (.drawBitmap x y scale)
    | _ => none
  else if nm = nmDrawChar then
    match args with
    | [.num x, .num y, .num ch, .num c, .num size] => some (.drawChar x y ch c size)
    | _ => none
  else if nm = nmDrawString then
    match args with
    | [.num x, .num y, .num c, .num size, .list text] => (text.mapM byteOf?).map (.drawString x y c size)
    | _ => none
  else if nm = nmTransmitHw then bytePrimitive .transmitHw args
  else if nm = nmTransmitBitbang then bytePrimitive .transmitBitbang args
  else if nm = nmWriteCommand then bytePrimitive .writeCommand args
  else if nm = nmWriteData then bytePrimitive .writeData args
  else if nm = nmWritePixels then
    match args with
    | [.num c, .num n] => if 1 ≤ n then (colourOf? c).map (.writePixels · n) else none
    | _ => none
  else if nm = nmGlyph then bytePrimitive .glyph args
  else none

/-- The instruction of a call. A name that is none of the table's is `REF_UNKNOWN_OP` (R286). -/
def decodeCall (bs : List Byte) : Except DecodeError Instr :=
  match lex bs with
  | none => .error .badToken
  | some toks =>
    match parseCall toks with
    | none => .error .badCall
    | some (nm, args) =>
      if callNames.contains nm then
        match buildArgs nm args with
        | some i => .ok i
        | none => .error .badArguments
      else .error .unknownName

/-- The decoder, total on any bytes: two bytes whose second is 0 or 1 are a frame word, everything else
is read as a call. -/
def decode (o : Opcodes) (bs : List Byte) : Except DecodeError Instr :=
  match bs with
  | [lo, hi] => if hi.toNat ≤ 1 then .ok (decodeFrame o (frameWord (hi.getLsbD 0) lo)) else decodeCall bs
  | _ => decodeCall bs

/-- What the caller may issue: the seven host operations. "The caller cannot issue" a primitive (R87), and
anything but the seven is `REF_UNKNOWN_OP` (R286; 92_eei_decisions.md D38). -/
def decodeCaller (o : Opcodes) (bs : List Byte) : Except DecodeError Instr :=
  match decode o bs with
  | .ok i => if i.isHostOp then .ok i else .error .notHostOp
  | .error why => .error why

/-! ### Encoding -/

/-- The ASCII of a hexadecimal digit. -/
def hexByte (d : Nat) : Byte := BitVec.ofNat 8 (if d < 10 then 0x30 + d else 0x37 + d)

/-- The hexadecimal digits of a number, most significant first; `fuel` bounds their count. -/
def hexDigits : Nat → Nat → List Byte
  | 0, _ => []
  | fuel + 1, n => (if n < 16 then [] else hexDigits fuel (n / 16)) ++ [hexByte (n % 16)]

/-- A number in the `0x` form of R91. -/
def numBytes (n : Nat) : List Byte := [0x30, 0x78] ++ hexDigits (n + 1) n

/-- Elements with a comma between. -/
def withCommas : List (List Byte) → List Byte
  | [] => []
  | [a] => a
  | a :: b :: rest => a ++ [0x2C] ++ withCommas (b :: rest)

/-- An argument as it is written. -/
def Arg.bytes : Arg → List Byte
  | .num n => numBytes n
  | .list ns => [0x5B] ++ withCommas (ns.map numBytes) ++ [0x5D]

/-- The name and arguments a call is written with, none for a frame word. -/
def Instr.call? : Instr → Option (List Byte × List Arg)
  | .init => some (nmInit, [])
  | .setWindow x1 y1 x2 y2 => some (nmSetWindow, [.num x1, .num y1, .num x2, .num y2])
  | .fillRectangle x1 y1 x2 y2 c =>
    some (nmFillRectangle, [.num x1, .num y1, .num x2, .num y2, .num c])
  | .drawPixel x y c => some (nmDrawPixel, [.num x, .num y, .num c])
  | .drawBitmap x y scale bm =>
    some (nmDrawBitmap, [.num x, .num y, .num scale, .list (bm.map BitVec.toNat)])
  | .drawChar x y ch c size => some (nmDrawChar, [.num x, .num y, .num ch, .num c, .num size])
  | .drawString x y c size text =>
    some (nmDrawString, [.num x, .num y, .num c, .num size, .list (text.map BitVec.toNat)])
  | .transmitHw b => some (nmTransmitHw, [.num b.toNat])
  | .transmitBitbang b => some (nmTransmitBitbang, [.num b.toNat])
  | .writeCommand b => some (nmWriteCommand, [.num b.toNat])
  | .writeData b => some (nmWriteData, [.num b.toNat])
  | .writePixels c n => some (nmWritePixels, [.num c.toNat, .num n])
  | .glyph ch => some (nmGlyph, [.num ch.toNat])
  | .cmdSwreset | .cmdSlpout | .cmdColmod | .cmdDispon | .cmdCaset | .cmdRaset | .cmdRamwr => none
  | .data _ | .cmdUnsupported _ => none

/-- The bytes of a call. -/
def callBytes (nm : List Byte) (args : List Arg) : List Byte :=
  nm ++ [0x28] ++ withCommas (args.map Arg.bytes) ++ [0x29]

/-- The bytes of an instruction. -/
def encode (o : Opcodes) (i : Instr) : List Byte :=
  match i.frame? o with
  | some w => w.bytes
  | none =>
    match i.call? with
    | some (nm, args) => callBytes nm args
    | none => []

/-! ### The host's reading of a table word -/

/-- The bytes of an instruction whose bits are `w`, its first byte in bits 7..0, at least the two bytes of
a frame word. -/
def tableBytes (nbits w : Nat) : List Byte :=
  (List.range (max 2 ((nbits + 7) / 8))).map fun k => BitVec.ofNat 8 (w >>> (8 * k))

/-- What the decoder reads from the instruction of `nbits` bits `w`, under the table's opcodes. -/
def decodeTableWord (nbits w : Nat) : Option Instr :=
  match decode Opcodes.table (tableBytes nbits w) with
  | .ok i => some i
  | .error _ => none

end Sys2Proof
end

