-- ==== Sys2Proof/Machine/Memory.lean ====
section
/-! DEFINITION. The address spaces of 20_memory.md R50: element reads of the read-only spaces (R51), and the
receiver's frame memory `rx.FB[row][col]` in its canonical form (log 21). -/

namespace Sys2Proof.Machine

open Sys2Proof

/-- `MemRead(space, index, n)`: none when an index lies outside the space (R51). -/
def memRead {α : Type} (space : List α) (index n : Nat) : Option (List α) :=
  if index + n ≤ space.length then some ((space.drop index).take n) else none

/-- The first index of a failed `MemRead` that lies outside the space, its fault's recorded value (R280). -/
def firstOutside {α : Type} (space : List α) (index : Nat) : Nat := max index space.length

/-- The key of a frame-memory cell. -/
def cellKey (row col : Nat) : Nat := 65536 * row + col

/-- The cell at a key; none is `U`. -/
def Memory.at (m : Memory) (key : Nat) : Option Colour :=
  match m with
  | [] => none
  | (k, v) :: rest => if k = key then some v else Memory.at rest key

/-- The cell at a key set, keys kept strictly rising. -/
def Memory.put (m : Memory) (key : Nat) (v : Colour) : Memory :=
  match m with
  | [] => [(key, v)]
  | (k, w) :: rest =>
    if key < k then (key, v) :: (k, w) :: rest
    else if key = k then (key, v) :: rest
    else (k, w) :: Memory.put rest key v

/-- `rx.FB[row][col]`; none is `U`. -/
def Memory.read (m : Memory) (row col : Nat) : Option Colour := Memory.at m (cellKey row col)

/-- `rx.FB[row][col] <- v`. -/
def Memory.write (m : Memory) (row col : Nat) (v : Colour) : Memory := Memory.put m (cellKey row col) v

/-- Every key of a memory is at least `lo`, and keys rise strictly. -/
def Memory.risingFrom (lo : Nat) : Memory → Bool
  | [] => true
  | (k, _) :: rest => decide (lo ≤ k) && Memory.risingFrom (k + 1) rest

/-- The canonical form: keys strictly rising. An unlisted cell is `U` and a listed one never is. -/
def Memory.wf (m : Memory) : Bool := Memory.risingFrom 0 m

/-- Every cell lies in the controller's `RAM_COLS × RAM_ROWS` (R32, R50). -/
def Memory.inArea (c : Config) (m : Memory) : Bool :=
  m.all fun cell => decide (cell.1 / 65536 < c.ramRows) && decide (cell.1 % 65536 < c.ramCols)

end Sys2Proof.Machine
end

