-- ==== Sys2Proof/Machine/Projection.lean ====
section
/-! DEFINITION. The frame projection of 30_encoding.md R79: how a bus trace decodes into frame events. The
receiver assembles bytes by the same function (46_receiver.md R241). -/

namespace Sys2Proof.Machine

open Sys2Proof

/-- `lv[l] <- v`. -/
def Lines.drive (lv : Lines) (l : Line) (v : Bool) : Lines :=
  match l with
  | .cs => { lv with cs := .ofBool v }
  | .dc => { lv with dc := .ofBool v }
  | .rst => { lv with rst := .ofBool v }
  | .sck => { lv with sck := .ofBool v }
  | .sdo => { lv with sdo := .ofBool v }

/-- The levels after an event. A `TxByte` leaves `SCK` and `SDO` unspecified (40_transport.md R104,
92_eei_decisions.md D45), which is `U`. DEDUCED (log 17). -/
def Lines.after (lv : Lines) : BusEvent → Lines
  | .drive l v => lv.drive l v
  | .delay _ => lv
  | .txByte _ => { lv with sck := .unknown, sdo := .unknown }

/-- The levels after a run of events. -/
def Lines.afterAll (lv : Lines) (es : List BusEvent) : Lines := es.foldl Lines.after lv

/-- `sh <- {sh[6:0], bit}`. -/
def Shift8.shiftIn (sh : Shift8) (bit : Level) : Shift8 :=
  ⟨sh.b6, sh.b5, sh.b4, sh.b3, sh.b2, sh.b1, sh.b0, bit⟩

/-- The byte in the register, most-significant bit first (20_memory.md R52); none where a bit is `U`. -/
def Shift8.byte? (sh : Shift8) : Option Byte :=
  match sh.b7.bit?, sh.b6.bit?, sh.b5.bit?, sh.b4.bit?, sh.b3.bit?, sh.b2.bit?, sh.b1.bit?, sh.b0.bit? with
  | some b7, some b6, some b5, some b4, some b3, some b2, some b1, some b0 =>
    some (BitVec.ofNat 8 (128 * b7.toNat + 64 * b6.toNat + 32 * b5.toNat + 16 * b4.toNat +
      8 * b3.toNat + 4 * b2.toNat + 2 * b1.toNat + b0.toNat))
  | _, _, _, _, _, _, _, _ => none

/-- The register R79 starts from, `sh = 0`. -/
def Shift8.zero : Shift8 := ⟨.low, .low, .low, .low, .low, .low, .low, .low⟩

/-- The event of a completed byte: `Byte(0, b) = Cmd(b)`, `Byte(1, b) = Dat(b)` (R79). DESIGN CHOICE (log 39): a byte
with an unknown bit, an unknown qualifier or both is the one event `unknownByte`, which keeps neither; R79 writes
`Byte(U, b)`, lists no such kind of event, and names none for an unknown value under a known `DC`. -/
def byteEvent (dc : Level) (b : Option Byte) : FrameEvent :=
  match dc, b with
  | .low, some b => .cmd b
  | .high, some b => .dat b
  | _, _ => .unknownByte

/-- What the projection keeps between events (R79): `lv`, `sh`, `nb`. -/
structure Decoder where
  lv : Lines
  sh : Shift8
  nb : Fin 8
  deriving DecidableEq, Repr

/-- A `Drive(SCK, 1)` is a sampled rising edge when `SCK` was 0 and `CS` is 0 (R79). -/
def Decoder.edge (d : Decoder) : Bool := decide (d.lv.sck = .low) && decide (d.lv.cs = .low)

/-- What an event puts out (R79). -/
def Decoder.out (d : Decoder) : BusEvent → List FrameEvent
  | .drive .cs false => if d.lv.cs = .low then [] else [.csFall]
  | .drive .cs true =>
    if d.lv.cs = .high then [] else (if d.nb = 0 then [] else [.partialByte]) ++ [.csRise]
  | .drive .rst false => if d.lv.rst = .low then [] else [.rstLow]
  | .drive .rst true => if d.lv.rst = .high then [] else [.rstHigh]
  | .drive .sck true =>
    if d.edge && decide (d.nb = 7) then [byteEvent d.lv.dc (d.sh.shiftIn d.lv.sdo).byte?] else []
  | .drive .sck false => []
  | .drive .dc _ => []
  | .drive .sdo _ => []
  | .txByte b => if d.lv.cs = .low then [byteEvent d.lv.dc (some b)] else []
  | .delay t => [.wait t]

/-- What the projection keeps after an event (R79). -/
def Decoder.next (d : Decoder) (e : BusEvent) : Decoder :=
  match e with
  | .drive .cs true => ⟨d.lv.after e, d.sh, if d.lv.cs = .high then d.nb else 0⟩
  | .drive .sck true =>
    if d.edge then ⟨d.lv.after e, d.sh.shiftIn d.lv.sdo, d.nb + 1⟩ else ⟨d.lv.after e, d.sh, d.nb⟩
  | _ => ⟨d.lv.after e, d.sh, d.nb⟩

/-- The projection of a run of events, from what is kept. -/
def Decoder.run : Decoder → List BusEvent → List FrameEvent
  | _, [] => []
  | d, e :: es => d.out e ++ (d.next e).run es

/-- `proj(trace)`: "Starting with every level `U`, `sh = 0` and `nb = 0`" (R79). -/
def proj (trace : List BusEvent) : List FrameEvent :=
  Decoder.run ⟨Lines.powerOn, Shift8.zero, 0⟩ trace

/-- A command or data byte. An `unknownByte` is neither, whatever part of it is known: DESIGN CHOICE (log 39). -/
def FrameEvent.isByte : FrameEvent → Bool
  | .cmd _ | .dat _ => true
  | .csFall | .csRise | .rstLow | .rstHigh | .wait _ | .partialByte | .unknownByte => false

/-- The byte view of R80: every event but `Cmd` and `Dat` removed, an `unknownByte` with them (log 39). -/
def byteView (es : List FrameEvent) : List FrameEvent := es.filter FrameEvent.isByte

end Sys2Proof.Machine
end

