-- ==== Sys2Proof/Machine/Receiver.lean ====
section
/-! DEFINITION. The receiver model of 46_receiver.md: its reaction to one frame event, and the meanings of
the nine frame words of spec/opcode_table.json. A frame word as an instruction is that event at the
receiver; the block is untouched (log 12). -/

namespace Sys2Proof.Machine

open Sys2Proof

/-! ### The reactions of 46_receiver.md -/

/-- `rx.undef <- reason`, and every other field `U` (R242). -/
def Rx.undefined (reason : UndefReason) : Rx := Rx.blank (some reason)

/-- A hardware or software reset (R247). Nothing survives it "but the reset line's state" (60_exceptions.md R295):
the fields that R247 does not list, the parameter bytes and the serial register, become `U`. -/
def Rx.reset (c : Config) (rx : Rx) : Rx :=
  { rx with
    shift := .unknown
    nbits := none
    pbuf := ⟨none, none, none, none⟩
    xs := none, xe := none, ys := none, ye := none
    pc := none, pr := none
    colmod := none
    fb := []
    sleep := .asleep
    disp := .off
    mode := .idle
    hi := .empty
    settle := .need c.rxResetMin }

/-- `Cmd(CMD_SLPOUT)` (R249). -/
def Rx.sleepOut (c : Config) (rx : Rx) : Rx :=
  { rx with sleep := .awake, mode := .idle, settle := .need c.rxSlpoutMin }

/-- `Cmd(CMD_COLMOD)` (R244). -/
def Rx.colmodCmd (rx : Rx) : Rx := { rx with mode := .param .colmod }

/-- `Cmd(CMD_DISPON)` (R251). -/
def Rx.displayOn (rx : Rx) : Rx := { rx with disp := .on, mode := .idle }

/-- `Cmd(CMD_CASET)` (R244). -/
def Rx.casetCmd (rx : Rx) : Rx := { rx with mode := .param (.caset 0) }

/-- `Cmd(CMD_RASET)` (R244). -/
def Rx.rasetCmd (rx : Rx) : Rx := { rx with mode := .param (.raset 0) }

/-- The window `RAMWR` finds is invalid: inverted, or outside the area (R253 step 2). -/
def badWindow (c : Config) (xs xe ys ye : Addr) : Bool :=
  decide (xe < xs) || decide (ye < ys) || decide (c.ramCols ≤ xe.toNat) || decide (c.ramRows ≤ ye.toNat)

/-- `Cmd(CMD_RAMWR)` (R253). -/
def Rx.memoryWrite (c : Config) (rx : Rx) : Rx :=
  match rx.xs, rx.xe, rx.ys, rx.ye with
  | some xs, some xe, some ys, some ye =>
    if badWindow c xs xe ys ye then .undefined .badWindow
    else if rx.colmod = some c.colmod16bpp then
      { rx with pc := some xs, pr := some ys, hi := .empty, mode := .pixels }
    else .undefined .pixelFormat
  | _, _, _, _ => .undefined .noWindow

/-- The dispatch of a command byte that has passed every check (R244 step 3). -/
def Rx.dispatch (c : Config) (cmd : Command) (rx : Rx) : Rx :=
  match cmd with
  | .swreset => rx.reset c
  | .slpout => rx.sleepOut c
  | .colmod => rx.colmodCmd
  | .dispon => rx.displayOn
  | .caset => rx.casetCmd
  | .raset => rx.rasetCmd
  | .ramwr => rx.memoryWrite c
  | .unsupported _ => .undefined .unsupportedCmd

/-- A command byte in a receiver that has been reset and has settled (R244). -/
def Rx.commandReady (c : Config) (cmd : Command) (rx : Rx) : Rx :=
  match rx.mode with
  | .param _ => .undefined .partialParams
  | .unknown | .idle | .pixels =>
    if rx.hi = .empty then rx.dispatch c cmd else .undefined .halfPixel

/-- The checks of R240 in their order, around what the byte does: `unreset` in a receiver not yet reset
(R246), `ready` after every check. -/
def Rx.guarded (rx unreset ready : Rx) : Rx :=
  if rx.undef.isSome then rx
  else match rx.rst with
    | .low _ => .undefined .byteInReset
    | .unknown | .high =>
      match rx.mode with
      | .unknown => unreset
      | .idle | .param _ | .pixels =>
        if rx.settle = .clear then ready else .undefined .settle

/-- `Cmd(b)`, by the command `b` stands for (R240, R244, R246). -/
def Rx.command (c : Config) (cmd : Command) (rx : Rx) : Rx :=
  rx.guarded (if cmd = .swreset then rx.reset c else .undefined .notReset) (rx.commandReady c cmd)

/-- `rx.pbuf[k] <- d` (R245). -/
def ParamBuf.set (p : ParamBuf) (k : Fin 4) (d : Byte) : ParamBuf :=
  match k with
  | 0 => { p with p0 := some d }
  | 1 => { p with p1 := some d }
  | 2 => { p with p2 := some d }
  | 3 => { p with p3 := some d }

/-- A 16-bit register of a high and a low byte, `U` where either is (R252, 20_memory.md R53). -/
def addrOf (hi lo : Option Byte) : Option Addr :=
  match hi, lo with
  | some h, some l => some (h ++ l)
  | _, _ => none

/-- A parameter byte of `CASET` (R245, R252). -/
def Rx.casetByte (k : Fin 4) (d : Byte) (rx : Rx) : Rx :=
  let p := rx.pbuf.set k d
  if k = 3 then { rx with pbuf := p, xs := addrOf p.p0 p.p1, xe := addrOf p.p2 p.p3, mode := .idle }
  else { rx with pbuf := p, mode := .param (.caset (k + 1)) }

/-- A parameter byte of `RASET` (R245, R252). -/
def Rx.rasetByte (k : Fin 4) (d : Byte) (rx : Rx) : Rx :=
  let p := rx.pbuf.set k d
  if k = 3 then { rx with pbuf := p, ys := addrOf p.p0 p.p1, ye := addrOf p.p2 p.p3, mode := .idle }
  else { rx with pbuf := p, mode := .param (.raset (k + 1)) }

/-- The parameter byte of `COLMOD` (R245, R250). -/
def Rx.colmodByte (d : Byte) (rx : Rx) : Rx := { rx with colmod := some d, mode := .idle }

/-- `advance()` (R255). A pointer or window that is `U` leaves the pointer `U`. -/
def Rx.advance (rx : Rx) : Rx :=
  match rx.pc, rx.pr, rx.xs, rx.xe, rx.ys, rx.ye with
  | some pc, some pr, some xs, some xe, some ys, some ye =>
    if pc < xe then { rx with pc := some (pc + 1) }
    else { rx with pc := some xs, pr := some (if pr < ye then pr + 1 else ys) }
  | _, _, _, _, _, _ => { rx with pc := none, pr := none }

/-- A pixel written at the pointer (R254). A pointer that is `U` or outside the area, which no run
reaches, makes the receiver undefined. DESIGN CHOICE (log 20). -/
def Rx.pixel (c : Config) (v : Colour) (rx : Rx) : Rx :=
  match rx.pc, rx.pr with
  | some pc, some pr =>
    if pc.toNat < c.ramCols ∧ pr.toNat < c.ramRows then
      ({ rx with fb := Memory.write rx.fb pr.toNat pc.toNat v, hi := .empty } : Rx).advance
    else .undefined .badWindow
  | _, _ => .undefined .noWindow

/-- A pixel byte, high byte first (R254). A pending byte that is `U`, which no run reaches, makes the
receiver undefined. DESIGN CHOICE (log 20). -/
def Rx.pixelByte (c : Config) (d : Byte) (rx : Rx) : Rx :=
  match rx.hi with
  | .empty => { rx with hi := .byte d }
  | .byte h => rx.pixel c (h ++ d)
  | .unknown => .undefined .unknownLevel

/-- A data byte in a receiver that has been reset and has settled (R245). -/
def Rx.dataReady (c : Config) (d : Byte) (rx : Rx) : Rx :=
  match rx.mode with
  | .unknown => .undefined .notReset
  | .idle => .undefined .strayData
  | .param (.caset k) => rx.casetByte k d
  | .param (.raset k) => rx.rasetByte k d
  | .param .colmod => rx.colmodByte d
  | .pixels => rx.pixelByte c d

/-- `Dat(d)` (R240, R245, R246). -/
def Rx.data (c : Config) (d : Byte) (rx : Rx) : Rx :=
  rx.guarded (.undefined .notReset) (rx.dataReady c d)

/-- `RstHigh` (R243). From `High` nothing happens, which the rule does not say (log 25). -/
def Rx.resetRise (c : Config) (rx : Rx) : Rx :=
  match rx.rst with
  | .low false => .undefined .shortReset
  | .low true => { rx.reset c with rst := .high }
  | .unknown | .high => { rx with rst := .high }

/-- `Wait(T)` of the real time `t`: a reset low is long enough (R243), a settle requirement is met
(R248). -/
def Rx.wait (c : Config) (t : Nat) (rx : Rx) : Rx :=
  { rx with
    rst := match rx.rst with
      | .low ok => .low (ok || decide (c.rxRstwMin ≤ t))
      | .unknown => .unknown
      | .high => .high
    settle := match rx.settle with
      | .need m => if m ≤ t then .clear else .need m
      | .unknown => .unknown
      | .clear => .clear }

/-- One frame event (R240): nothing has an effect once `rx.undef` is set (R242). "A rise of `CS` resets the bit
count" (R241), and changes nothing else (R257). -/
def Rx.receive (c : Config) (rx : Rx) (e : FrameEvent) : Rx :=
  if rx.undef.isSome then rx
  else match e with
    | .csFall => rx
    | .csRise => { rx with nbits := some 0 }
    | .rstLow => { rx with rst := .low false }
    | .rstHigh => rx.resetRise c
    | .cmd b => rx.command c (c.opcodes.command b)
    | .dat d => rx.data c d
    | .wait t => rx.wait c (c.time t)
    | .partialByte => .undefined .partialByte
    | .unknownByte => .undefined .unknownLevel

/-- Frame events in order (R61, R240). -/
def Rx.receiveAll (c : Config) (rx : Rx) (es : List FrameEvent) : Rx := es.foldl (Rx.receive c) rx

/-- The receiver's own view of the serial lines: `rx.nbits = U` counts as the 0 R79 starts from. DEDUCED
(log 18). -/
def Rx.decoder (rx : Rx) (lv : Lines) : Decoder := ⟨lv, rx.shift, rx.nbits.getD 0⟩

/-- One bus event heard with the lines at `lv` before it: the frame events it completes are received, then the
shift register and bit count become what R79 makes of the event (R241), after a reset too: R79's projection goes on
through one (log 18). An undefined receiver keeps nothing (R242). -/
def Rx.hear (c : Config) (lv : Lines) (e : BusEvent) (rx : Rx) : Rx :=
  let d := rx.decoder lv
  let rx' := rx.receiveAll c (d.out e)
  if rx'.undef.isSome then rx' else { rx' with shift := (d.next e).sh, nbits := some (d.next e).nb }

/-! ### The meanings of the frame words -/

/-- The receiver gets a command; nothing else of the machine changes (log 12). -/
def State.receiveCommand (cmd : Command) (s : State) : State := { s with rx := s.rx.command s.cfg cmd }

/-- `CMD_SWRESET` (R247). -/
def execCmdSwreset (s : State) : Host.Outcome State Fault Refusal := .next (s.receiveCommand .swreset)

/-- `CMD_SLPOUT` (R249). -/
def execCmdSlpout (s : State) : Host.Outcome State Fault Refusal := .next (s.receiveCommand .slpout)

/-- `CMD_COLMOD` (R244, R250). -/
def execCmdColmod (s : State) : Host.Outcome State Fault Refusal := .next (s.receiveCommand .colmod)

/-- `CMD_DISPON` (R251). -/
def execCmdDispon (s : State) : Host.Outcome State Fault Refusal := .next (s.receiveCommand .dispon)

/-- `CMD_CASET` (R244, R252). -/
def execCmdCaset (s : State) : Host.Outcome State Fault Refusal := .next (s.receiveCommand .caset)

/-- `CMD_RASET` (R244, R252). -/
def execCmdRaset (s : State) : Host.Outcome State Fault Refusal := .next (s.receiveCommand .raset)

/-- `CMD_RAMWR` (R253). -/
def execCmdRamwr (s : State) : Host.Outcome State Fault Refusal := .next (s.receiveCommand .ramwr)

/-- `DATA` (R245, R254). -/
def execData (d : Byte) (s : State) : Host.Outcome State Fault Refusal :=
  .next { s with rx := s.rx.data s.cfg d }

/-- `CMD_UNSUPPORTED` (R256). The byte is what the instance's opcodes make of it: one of the seven, which
is not well-formed here, is that command (log 31). -/
def execCmdUnsupported (b : Byte) (s : State) : Host.Outcome State Fault Refusal :=
  .next (s.receiveCommand (s.cfg.opcodes.command b))

end Sys2Proof.Machine
end

