-- ==== Sys2Proof/Machine/Ops.lean ====
section
/-! DEFINITION. The shared operations of the sequencer: appending a bus event, raising a fault, the two
transports, running a flattened step list, and issuing an operation. -/

namespace Sys2Proof.Machine

open Sys2Proof

/-! ### The bus -/

/-- A bus event: appended to the trace (10_state.md R20), the lines follow it (00_scope.md R13), and the
receiver hears it at once (20_memory.md R61: "no buffering"). -/
def State.emit (e : BusEvent) (s : State) : State :=
  { s with
    trace := s.trace ++ [e]
    lines := s.lines.after e
    rx := s.rx.hear s.cfg s.lines e }

/-- A run of bus events. -/
def State.emitAll (es : List BusEvent) (s : State) : State := es.foldl (fun s e => s.emit e) s

/-- `n` primitive steps done: `pc <- pc + n` (R26, R13; log 6). -/
def State.advancePc (n : Nat) (s : State) : State := { s with pc := s.pc + n }

/-! ### Taking a model fault (60_exceptions.md R284) -/

/-- `raise Fault(code)`: the code with its value, the operation and the step are recorded; the lines keep
their levels and `op` stays. There is no return from a fault (R284, R288). -/
def State.raise (code : FaultCode) (s : State) : State := { s with fault := some ⟨code, s.op, s.pc⟩ }

/-- `CS`, `DC` and `RST` are at their idle level (10_state.md R23). -/
def Lines.idle (lv : Lines) : Bool :=
  decide (lv.cs = .high) && decide (lv.dc = .high) && decide (lv.rst = .high)

/-- `check_idle()` (R283). -/
def State.checkIdle (s : State) : State :=
  if s.lines.idle then s else s.raise (.linesNotIdle s.lines.cs s.lines.dc s.lines.rst)

/-! ### The byte transport (40_transport.md) -/

/-- The events of one bit of a bit-banged byte (R102). -/
def bitEvents (tBit : Nat) (v : Bool) : List BusEvent :=
  let pause := if 0 < tBit then [BusEvent.delay .bit] else []
  [.drive .sck false, .drive .sdo v] ++ pause ++ [.drive .sck true] ++ pause

/-- The events of a bit-banged byte, most-significant bit first (R102, 20_memory.md R52). -/
def bitbangEvents (tBit : Nat) (b : Byte) : List BusEvent :=
  [7, 6, 5, 4, 3, 2, 1, 0].flatMap fun k => bitEvents tBit (b.getLsbD k)

/-- `transmit(b)` of the BITBANG transport (R102). Its loop index `k` ends at 0. -/
def State.transmitBitbang (b : Byte) (s : State) : State :=
  let es := bitbangEvents s.cfg.tBit b
  ({ s.emitAll es with locals := { s.locals with bit := some 0 } } : State).advancePc es.length

/-- `TXBUF <- b`, with the `TxByte(b)` event (R101). -/
def State.writeTxbuf (b : Byte) (s : State) : State :=
  ({ s with spi := s.spi.start b } : State).emit (.txByte b)

/-- `transmit(b)` of the HW transport (R101): the write, then polls until `TXDONE` reads 1, or
`TX_TIMEOUT` when the bound is met (R107). DESIGN CHOICE (log 36): after a `TX_TIMEOUT` the peripheral makes no
further step, so `TXDONE` stays 0 and the byte in flight. -/
def State.transmitHw (b : Byte) (s : State) : State :=
  let started := (s.writeTxbuf b).advancePc 1
  let zeros := started.nextZeros
  let chosen := started.useZeros
  if timesOut s.cfg.txWaitBound zeros then
    let polls := pollsAtTimeout s.cfg.txWaitBound
    (({ chosen with locals := { chosen.locals with polls := some polls } } : State).advancePc (polls - 1)).raise
      (.txTimeout b)
  else
    ({ chosen with
        spi := chosen.spi.complete
        locals := { chosen.locals with polls := some zeros } } : State).advancePc (zeros + 1)

/-- `transmit(b)`: the one implementation the instance is built with (R100, R105). -/
def State.transmit (b : Byte) (s : State) : State :=
  match s.cfg.transport with
  | .bitbang => s.transmitBitbang b
  | .hw => s.transmitHw b

/-! ### The locals (10_state.md R24) -/

/-- `name <- value`. -/
def Locals.assign (v : Locals) : Assign → Locals
  | .hi a => { v with hi := some a }
  | .lo a => { v with lo := some a }
  | .r a => { v with r := some a }
  | .q a => { v with q := some a }
  | .xe a => { v with xe := some a }
  | .ye a => { v with ye := some a }
  | .hdr a => { v with hdr := some a }
  | .w a => { v with w := some a }
  | .h a => { v with h := some a }
  | .c a => { v with c := some a }
  | .i a => { v with i := some a }
  | .j a => { v with j := some a }
  | .ox a => { v with ox := some a }
  | .oy a => { v with oy := some a }
  | .g a => { v with g := some a }
  | .b a => { v with b := some a }
  | .k a => { v with k := some a }
  | .ch a => { v with ch := some a }

/-- A local assigned; no step of `pc` (log 6). -/
def State.assign (a : Assign) (s : State) : State := { s with locals := s.locals.assign a }

/-! ### The flattened step list (10_state.md R26) -/

/-- A step of a flattened step list: the primitives of 00_scope.md R13, the entry check, a raised fault, and
between them the assignments to the locals. -/
inductive Prim
  | drive (l : Line) (v : Bool)
  | delay (t : DelayName)
  | transmit (b : Byte)
  | checkIdle
  | raise (code : FaultCode)
  | assign (a : Assign)
  deriving DecidableEq, Repr

/-- One step. -/
def State.prim (p : Prim) (s : State) : State :=
  match p with
  | .drive l v => (s.emit (.drive l v)).advancePc 1
  | .delay t => (s.emit (.delay t)).advancePc 1
  | .transmit b => s.transmit b
  | .checkIdle => s.checkIdle
  | .raise code => s.raise code
  | .assign a => s.assign a

/-- A step list run in order, up to the first fault: "The sequencer stops at that step" (R282, R284). -/
def State.runSteps : List Prim → State → State
  | [], s => s
  | p :: ps, s =>
    let s' := s.prim p
    if s'.fault.isSome then s' else s'.runSteps ps

/-- The steps of a value that may be a fault instead. -/
def orRaise {α : Type} (v : Except FaultCode α) (steps : α → List Prim) : List Prim :=
  match v with
  | .ok a => steps a
  | .error code => [.raise code]

/-! ### Issuing an operation -/

/-- An operation begins: `op` and its latches set, `pc` 0 (R24 to R26). -/
def State.start (i : Instr) (s : State) : State := { s with op := .busy i, pc := 0, locals := Locals.none }

/-- An operation that raised no fault ends: `op` returns to `Idle` and `pc` to 0 (R26, R34). After a fault
nothing returns (R284). -/
def State.finish (s : State) : State := if s.fault.isSome then s else { s with op := .idle, pc := 0 }

/-- "Nothing else persists across operations" (R24). -/
def State.dropLocals (s : State) : State :=
  if s.fault.isSome then s else { s with locals := Locals.none }

/-- An operation issued: after a fault nothing is accepted (R284), while one executes another is refused
(R286), otherwise it runs. -/
def State.issue (i : Instr) (steps : List Prim) (s : State) : Host.Outcome State Fault Refusal :=
  match s.fault with
  | some r => .fault (.sequencerStuck r)
  | none =>
    match s.op with
    | .busy _ => .refused .concurrentCaller
    | .idle => .next ((s.start i).runSteps steps).finish

/-- A host operation called: refused when an argument does not fit its width, before every other check
(R282, R286), else issued; its locals do not outlive it. -/
def State.call (i : Instr) (steps : List Prim) (s : State) : Host.Outcome State Fault Refusal :=
  if i.argsFit then
    match s.issue i steps with
    | .next t => .next t.dropLocals
    | .fault r => .fault r
    | .refused r => .refused r
  else .refused .argWidth

/-! ### The environment -/

/-- `board_setup()` (70_reset_and_hazards.md R324): the three idle levels driven, in this order. -/
def State.boardSetup (s : State) : State :=
  s.emitAll [.drive .cs true, .drive .dc true, .drive .rst true]

/-- A frame event put on the receiver's input (log 11). -/
def State.wireEvent (e : FrameEvent) (s : State) : State := { s with rx := s.rx.receive s.cfg e }

end Sys2Proof.Machine
end

