-- ==== Sys2Proof/Machine/Framing.lean ====
section
/-! DEFINITION. Command and data framing (41_framing.md). -/

namespace Sys2Proof.Machine

open Sys2Proof

/-- `write_command(b)` (R121). -/
def writeCommandSteps (b : Byte) : List Prim :=
  [.drive .dc false, .drive .cs false, .transmit b, .drive .cs true, .drive .dc true]

/-- `write_data(b)` (R122). -/
def writeDataSteps (b : Byte) : List Prim := [.drive .cs false, .transmit b, .drive .cs true]

/-- `write_command` as an instruction (R121). -/
def execWriteCommand (b : Byte) (s : State) : Host.Outcome State Fault Refusal :=
  s.issue (.writeCommand b) (writeCommandSteps b)

/-- `write_data` as an instruction (R122). -/
def execWriteData (b : Byte) (s : State) : Host.Outcome State Fault Refusal :=
  s.issue (.writeData b) (writeDataSteps b)

end Sys2Proof.Machine
end

