-- ==== Sys2Proof/Machine/Bringup.lean ====
section
/-! DEFINITION. The initialization sequence (45_init.md). -/

namespace Sys2Proof.Machine

open Sys2Proof

/-- `init()` (R221). -/
def initSteps (c : Config) : List Prim :=
  [.checkIdle, .drive .rst false, .delay .rstPulse, .drive .rst true, .delay .rstSettle] ++
    writeCommandSteps c.opcodes.swreset ++ [.delay .swresetSettle] ++
    writeCommandSteps c.opcodes.slpout ++ [.delay .slpoutSettle] ++
    writeCommandSteps c.opcodes.colmod ++ writeDataSteps c.colmod16bpp ++
    writeCommandSteps c.opcodes.dispon

/-- `init` (R221). -/
def execInit (s : State) : Host.Outcome State Fault Refusal := s.call .init (initSteps s.cfg)

end Sys2Proof.Machine
end

