-- ==== Sys2Proof/Machine/Operands.lean ====
section
/-! DEFINITION. Operand assembly: every form of 30_encoding.md R85, and the glyph lookup of 44_text.md R190. -/

namespace Sys2Proof.Machine

open Sys2Proof

/-- `unpack(c)`, first byte: `c >> 8` (43_pixel.md R160). -/
def colourHi (c : Colour) : Byte := (c >>> 8).setWidth 8

/-- `unpack(c)`, second byte: `c & 0xFF` (R160). -/
def colourLo (c : Colour) : Byte := (c &&& 0xFF).setWidth 8

/-- A host operation's 8-bit argument, in its latch (10_state.md R25). -/
def u8 (n : Nat) : Byte := BitVec.ofNat 8 n

/-- A host operation's 16-bit argument, in its latch (R25). -/
def u16 (n : Nat) : Colour := BitVec.ofNat 16 n

/-- `coord(v)`: the 8-bit value, or `COORD_RANGE` with the computed integer (60_exceptions.md R281). -/
def coord (v : Int) : Except FaultCode Byte :=
  if 0 ≤ v ∧ v ≤ 255 then .ok (BitVec.ofNat 8 v.toNat) else .error (.coordRange v)

/-- The corners of an `s × s` block at `(ox, oy)`, checked in argument order (R85, R167, R192). -/
def blockCorners (ox oy s : Int) : Except FaultCode (Byte × Byte × Byte × Byte) := do
  let x1 ← coord ox
  let y1 ← coord oy
  let x2 ← coord (ox + s - 1)
  let y2 ← coord (oy + s - 1)
  return (x1, y1, x2, y2)

/-- The values of `for v in a..b`, both ends included, where `a ≤ b` (R162). -/
def indices (a b : Byte) : List Nat := List.range' a.toNat (b.toNat - a.toNat + 1)

/-- The origin of the `k`-th character of a text (R85, R196). -/
def charOrigin (x size k : Nat) : Int := (x + k * size * charAdvance : Nat)

/-- The origin of cell `i`, in units of `step`, from `base`: `x + i × size`, `x + j × scale` (R85). -/
def cellOrigin (base step i : Nat) : Int := (base + i * step : Nat)

/-- The index of a bitmap's element for row `i`, column `j` (R83, R85). -/
def bitmapIndex (width i j : Nat) : Nat := 2 + i * width + j

/-- The font table and the index in it of a character's first byte (R82). -/
def fontPlace (c : Config) (ch : Byte) : List Byte × Nat :=
  if ch.toNat < c.splitChar then (c.fontA, (ch.toNat - c.firstPrintable) * glyphCols)
  else (c.fontB, (ch.toNat - c.splitChar) * glyphCols)

/-- `glyph(ch)`: five bytes, or `CHAR_RANGE` (44_text.md R190). In an instance the read of a font table
cannot fail once the character is in range (20_memory.md R51). -/
def glyphOf (c : Config) (ch : Byte) : Except FaultCode (List Byte) :=
  if ch.toNat < c.firstPrintable ∨ c.lastPrintable < ch.toNat then .error (.charRange ch)
  else
    match memRead (fontPlace c ch).1 (fontPlace c ch).2 glyphCols with
    | some g => .ok g
    | none => .error (.charRange ch)

/-- `b` after `j` shifts `b <- b >> 1` (R192). -/
def shifted (b : Byte) (j : Nat) : Byte := b >>> j

end Sys2Proof.Machine
end

