-- ==== Sys2Proof/Machine/Window.lean ====
section
/-! DEFINITION. The window-address programmer (42_window.md). -/

namespace Sys2Proof.Machine

open Sys2Proof

/-- An address command with its four parameter bytes `0x00, a, 0x00, b` (30_encoding.md R74, R75). -/
def addressSteps (cmd a b : Byte) : List Prim :=
  writeCommandSteps cmd ++ writeDataSteps 0 ++ writeDataSteps a ++ writeDataSteps 0 ++ writeDataSteps b

/-- `set_window(x1, y1, x2, y2)` (R140). No value of the coordinates is checked (R141). -/
def setWindowSteps (c : Config) (x1 y1 x2 y2 : Byte) : List Prim :=
  [.checkIdle] ++ addressSteps c.opcodes.caset x1 x2 ++ addressSteps c.opcodes.raset y1 y2 ++
    writeCommandSteps c.opcodes.ramwr

/-- `set_window` (R140). -/
def execSetWindow (x1 y1 x2 y2 : Nat) (s : State) : Host.Outcome State Fault Refusal :=
  s.call (.setWindow x1 y1 x2 y2) (setWindowSteps s.cfg (u8 x1) (u8 y1) (u8 x2) (u8 y2))

end Sys2Proof.Machine
end

