-- ==== Sys2Proof/Machine/Pixel.lean ====
section
/-! DEFINITION. The pixel-stream sequencer (43_pixel.md). -/

namespace Sys2Proof.Machine

open Sys2Proof

/-- `(hi, lo) <- unpack(c)` (R160). -/
def unpackSteps (c : Colour) : List Prim := [.assign (.hi (colourHi c)), .assign (.lo (colourLo c))]

/-- The two bytes of a pixel (R161, R162). -/
def pixelSteps (c : Colour) : List Prim := [.transmit (colourHi c), .transmit (colourLo c)]

/-- A stream frame around its bytes (R161, R162). -/
def streamSteps (bytes : List Prim) : List Prim := [.drive .cs false] ++ bytes ++ [.drive .cs true]

/-- `write_pixels(c, n)` (R161). -/
def writePixelsSteps (c : Colour) (n : Nat) : List Prim :=
  unpackSteps c ++ streamSteps (List.replicate n (pixelSteps c)).flatten

/-- `for r in y1..y2: for q in x1..x2:` and the pixel (R162). -/
def rectangleSteps (x1 y1 x2 y2 : Byte) (colour : Colour) : List Prim :=
  (indices y1 y2).flatMap fun r =>
    [.assign (.r r)] ++ (indices x1 x2).flatMap fun q => [.assign (.q q)] ++ pixelSteps colour

/-- `fill_rectangle(x1, y1, x2, y2, colour)` (R162). -/
def fillRectangleSteps (c : Config) (x1 y1 x2 y2 : Byte) (colour : Colour) : List Prim :=
  [.checkIdle] ++
    if x2 < x1 ∨ y2 < y1 then [.raise (.windowInverted x1 y1 x2 y2)]
    else setWindowSteps c x1 y1 x2 y2 ++ (unpackSteps colour ++ streamSteps (rectangleSteps x1 y1 x2 y2 colour))

/-- `draw_pixel(x, y, colour)` (R164). -/
def drawPixelSteps (c : Config) (x y : Byte) (colour : Colour) : List Prim :=
  [.checkIdle] ++
    orRaise (coord (x.toNat + 1)) fun xe =>
      [.assign (.xe xe)] ++ orRaise (coord (y.toNat + 1)) fun ye =>
        [.assign (.ye ye)] ++ (setWindowSteps c x y xe ye ++ (unpackSteps colour ++
          writeDataSteps (colourHi colour) ++ writeDataSteps (colourLo colour)))

/-- One `s × s` block painted at an origin: the origin named, the corners checked, then `fill_rectangle` (R85,
R167, R192). -/
def blockSteps (c : Config) (ox oy s : Int) (colour : Colour) : List Prim :=
  [.assign (.ox ox), .assign (.oy oy)] ++
    orRaise (blockCorners ox oy s) fun k => fillRectangleSteps c k.1 k.2.1 k.2.2.1 k.2.2.2 colour

/-- The source pixel of row `i`, column `j` (R167). -/
def sourcePixelSteps (c : Config) (x y scale width : Nat) (bitmap : List Colour) (i j : Nat) : List Prim :=
  match memRead bitmap (bitmapIndex width i j) 1 with
  | some [colour] =>
    [.assign (.c colour)] ++ blockSteps c (cellOrigin x scale j) (cellOrigin y scale i) scale colour
  | _ => [.raise (.bitmapBounds (firstOutside bitmap (bitmapIndex width i j)))]

/-- `draw_bitmap(x, y, scale, bitmap)` (R167): the header, then every source pixel, rows outermost. -/
def drawBitmapSteps (c : Config) (x y scale : Byte) (bitmap : List Colour) : List Prim :=
  [.checkIdle] ++
    match memRead bitmap 0 2 with
    | some [w, h] =>
      [.assign (.hdr [w, h]), .assign (.w w), .assign (.h h)] ++
        (List.range h.toNat).flatMap fun i =>
          [.assign (.i i)] ++ (List.range w.toNat).flatMap fun j =>
            [.assign (.j j)] ++ sourcePixelSteps c x.toNat y.toNat scale.toNat w.toNat bitmap i j
    | _ => [.raise (.bitmapBounds (firstOutside bitmap 0))]

/-- `write_pixels` as an instruction (R161); `n = 0` is outside its operand's range (log 30). -/
def execWritePixels (c : Colour) (n : Nat) (s : State) : Host.Outcome State Fault Refusal :=
  if n = 0 then .refused .emptyStream else s.issue (.writePixels c n) (writePixelsSteps c n)

/-- `fill_rectangle` (R162). -/
def execFillRectangle (x1 y1 x2 y2 colour : Nat) (s : State) : Host.Outcome State Fault Refusal :=
  s.call (.fillRectangle x1 y1 x2 y2 colour)
    (fillRectangleSteps s.cfg (u8 x1) (u8 y1) (u8 x2) (u8 y2) (u16 colour))

/-- `draw_pixel` (R164). -/
def execDrawPixel (x y colour : Nat) (s : State) : Host.Outcome State Fault Refusal :=
  s.call (.drawPixel x y colour) (drawPixelSteps s.cfg (u8 x) (u8 y) (u16 colour))

/-- `draw_bitmap` (R167). -/
def execDrawBitmap (x y scale : Nat) (bitmap : List Colour) (s : State) : Host.Outcome State Fault Refusal :=
  s.call (.drawBitmap x y scale bitmap) (drawBitmapSteps s.cfg (u8 x) (u8 y) (u8 scale) bitmap)

end Sys2Proof.Machine
end

