-- ==== Sys2Proof/Machine/Text.lean ====
section
/-! DEFINITION. The glyph text rasterizer (44_text.md). -/

namespace Sys2Proof.Machine

open Sys2Proof

/-- The set glyph bit of column `i`, row `j`: one pixel at size 1, else one block (R192). -/
def paintSteps (c : Config) (x y size : Nat) (colour : Colour) (i j : Nat) : List Prim :=
  if size = 1 then
    orRaise (coord (cellOrigin x 1 i)) fun px =>
      orRaise (coord (cellOrigin y 1 j)) fun py => drawPixelSteps c px py colour
  else blockSteps c (cellOrigin x size i) (cellOrigin y size j) size colour

/-- Row `j` of a glyph column whose byte is `b`: the bit tested, then the byte shifted (R191, R192). -/
def glyphRowSteps (c : Config) (x y size : Nat) (colour : Colour) (i : Nat) (b : Byte) (j : Nat) : List Prim :=
  [.assign (.j j)] ++ (if (shifted b j).getLsbD 0 then paintSteps c x y size colour i j else []) ++
    [.assign (.b (shifted b (j + 1)))]

/-- Column `i` of a glyph, rows 0 to 6; bit 7 is never tested (R191 to R193). -/
def glyphColumnSteps (c : Config) (x y size : Nat) (colour : Colour) (g : List Byte) (i : Nat) : List Prim :=
  [.assign (.i i), .assign (.b (g.getD i 0))] ++
    (List.range glyphRows).flatMap (glyphRowSteps c x y size colour i (g.getD i 0))

/-- `draw_char(x, y, char, colour, size)` (R192). -/
def drawCharSteps (c : Config) (x y ch : Byte) (colour : Colour) (size : Byte) : List Prim :=
  [.checkIdle] ++
    orRaise (glyphOf c ch) fun g =>
      [.assign (.g g)] ++
        (List.range glyphCols).flatMap (glyphColumnSteps c x.toNat y.toNat size.toNat colour g)

/-- The characters of a text from its `k`-th on, up to the first 0x00 (R84, R195). The end of the list
is the end of the space: `STRING_BOUNDS` at `len(text)`. -/
def textSteps (c : Config) (x y : Byte) (colour : Colour) (size : Byte) (k : Nat) : List Byte → List Prim
  | [] => [.raise (.stringBounds k)]
  | ch :: rest =>
    [.assign (.ch ch)] ++
      if ch = 0 then []
      else
        orRaise (coord (charOrigin x.toNat size.toNat k)) (fun cx => drawCharSteps c cx y ch colour size) ++
          ([.assign (.k (k + 1))] ++ textSteps c x y colour size (k + 1) rest)

/-- `draw_string(x, y, colour, size, text)` (R195). -/
def drawStringSteps (c : Config) (x y : Byte) (colour : Colour) (size : Byte) (text : List Byte) : List Prim :=
  [.checkIdle, .assign (.k 0)] ++ textSteps c x y colour size 0 text

/-- `glyph` as an instruction: the five bytes are handed back in the local `g` (R190). -/
def execGlyph (ch : Byte) (s : State) : Host.Outcome State Fault Refusal :=
  s.issue (.glyph ch) (orRaise (glyphOf s.cfg ch) fun g => [.assign (.g g)])

/-- `draw_char` (R192). -/
def execDrawChar (x y ch colour size : Nat) (s : State) : Host.Outcome State Fault Refusal :=
  s.call (.drawChar x y ch colour size) (drawCharSteps s.cfg (u8 x) (u8 y) (u8 ch) (u16 colour) (u8 size))

/-- `draw_string` (R195). -/
def execDrawString (x y colour size : Nat) (text : List Byte) (s : State) :
    Host.Outcome State Fault Refusal :=
  s.call (.drawString x y colour size text)
    (drawStringSteps s.cfg (u8 x) (u8 y) (u16 colour) (u8 size) text)

end Sys2Proof.Machine
end

