-- ==== Sys2Proof/Machine/Transport.lean ====
section
/-! DEFINITION. The byte transport's two primitives as instructions (40_transport.md). An instance has the
one it is built with (R100, R105); the other is refused (log 14). -/

namespace Sys2Proof.Machine

open Sys2Proof

/-- `transmit.HW` (R101). -/
def execTransmitHw (b : Byte) (s : State) : Host.Outcome State Fault Refusal :=
  match s.cfg.transport with
  | .hw => s.issue (.transmitHw b) [.transmit b]
  | .bitbang => .refused .otherTransport

/-- `transmit.BITBANG` (R102). -/
def execTransmitBitbang (b : Byte) (s : State) : Host.Outcome State Fault Refusal :=
  match s.cfg.transport with
  | .bitbang => s.issue (.transmitBitbang b) [.transmit b]
  | .hw => .refused .otherTransport

end Sys2Proof.Machine
end

