-- ==== Sys2Proof/Machine/Dispatch.lean ====
section
/-! DEFINITION. One arm for each constructor of Instr. -/

namespace Sys2Proof.Machine

open Sys2Proof

/-- The meaning of an instruction. -/
def exec (i : Instr) (s : State) : Host.Outcome State Fault Refusal :=
  match i with
  | .cmdSwreset => Sys2Proof.Machine.execCmdSwreset s
  | .cmdSlpout => Sys2Proof.Machine.execCmdSlpout s
  | .cmdColmod => Sys2Proof.Machine.execCmdColmod s
  | .cmdDispon => Sys2Proof.Machine.execCmdDispon s
  | .cmdCaset => Sys2Proof.Machine.execCmdCaset s
  | .cmdRaset => Sys2Proof.Machine.execCmdRaset s
  | .cmdRamwr => Sys2Proof.Machine.execCmdRamwr s
  | .data d => Sys2Proof.Machine.execData d s
  | .cmdUnsupported b => Sys2Proof.Machine.execCmdUnsupported b s
  | .init => Sys2Proof.Machine.execInit s
  | .setWindow x1 y1 x2 y2 => Sys2Proof.Machine.execSetWindow x1 y1 x2 y2 s
  | .fillRectangle x1 y1 x2 y2 colour => Sys2Proof.Machine.execFillRectangle x1 y1 x2 y2 colour s
  | .drawPixel x y colour => Sys2Proof.Machine.execDrawPixel x y colour s
  | .drawBitmap x y scale bitmap => Sys2Proof.Machine.execDrawBitmap x y scale bitmap s
  | .drawChar x y ch colour size => Sys2Proof.Machine.execDrawChar x y ch colour size s
  | .drawString x y colour size text => Sys2Proof.Machine.execDrawString x y colour size text s
  | .transmitHw b => Sys2Proof.Machine.execTransmitHw b s
  | .transmitBitbang b => Sys2Proof.Machine.execTransmitBitbang b s
  | .writeCommand b => Sys2Proof.Machine.execWriteCommand b s
  | .writeData b => Sys2Proof.Machine.execWriteData b s
  | .writePixels c n => Sys2Proof.Machine.execWritePixels c n s
  | .glyph ch => Sys2Proof.Machine.execGlyph ch s

end Sys2Proof.Machine
end

