-- ==== Sys2Proof/Machine/Fetch.lean ====
section
/-! DEFINITION. Where the next input comes from. The block fetches no instructions (20_memory.md R65); the
caller's calls and the environment's actions stand in `inbox` (log 11). -/

namespace Sys2Proof.Machine

open Sys2Proof

/-- The state with the first input taken. -/
def State.taken (s : State) : State := { s with inbox := s.inbox.tail }

/-- The state with an instruction's bytes put before every other input. -/
def State.withInstr (s : State) (bytes : List Byte) : State := { s with inbox := .instr bytes :: s.inbox }

end Sys2Proof.Machine
end

