-- ==== Sys2Proof/Machine/Step.lean ====
section
/-! DEFINITION. One step of the machine: the next input is taken and acted on. -/

namespace Sys2Proof.Machine

open Sys2Proof

/-- One step. With no input pending the block "is `Idle` and does nothing" (70_reset_and_hazards.md R323;
log 34). A caller's bytes that are none of the seven host operations, and bytes that are no instruction at all, are
`REF_UNKNOWN_OP` (60_exceptions.md R286). -/
def step (s : State) : Host.Outcome State Fault Refusal :=
  match s.inbox with
  | [] => .next s
  | .boardSetup :: _ => .next s.taken.boardSetup
  | .wire e :: _ => .next (s.taken.wireEvent e)
  | .call bytes :: _ =>
    match decodeCaller s.cfg.opcodes bytes with
    | .ok i => exec i s.taken
    | .error why => .refused (.unknownOp why)
  | .instr bytes :: _ =>
    match decode s.cfg.opcodes bytes with
    | .ok i => exec i s.taken
    | .error why => .refused (.unknownOp why)

/-- The state whose next step runs the instruction of `nbits` bits `w`, numbered as
spec/opcode_table.json numbers them: its bytes stand first in `inbox` (log 11). -/
def State.withFetchWord (s : State) (nbits w : Nat) : State := s.withInstr (tableBytes nbits w)

end Sys2Proof.Machine
end

