-- ==== Sys2Proof/Machine/Frames.lean ====
section
/-! DEFINITION. The frames of every operation, as the rules' "Frame projection" lines and the "encoding"
column of spec/opcode_table.json give them. No step reads this file: claims compare the machine with it. -/

namespace Sys2Proof.Machine

open Sys2Proof

/-- The projection of a run of events that begins with the lines at `lv` and no bit of a byte clocked. -/
def projFrom (lv : Lines) (es : List BusEvent) : List FrameEvent := Decoder.run ⟨lv, Shift8.zero, 0⟩ es

/-- The projection "with the `Wait(T_BIT)` events removed" (40_transport.md R106). -/
def dropBitWaits (fs : List FrameEvent) : List FrameEvent := fs.filter fun e => decide (e ≠ .wait .bit)

/-- A command frame (30_encoding.md R72, 41_framing.md R121). -/
def commandFrame (b : Byte) : List FrameEvent := [.csFall, .cmd b, .csRise]

/-- A data frame (R72, R122). -/
def dataFrame (b : Byte) : List FrameEvent := [.csFall, .dat b, .csRise]

/-- A stream frame of `n` pixels (R72, 43_pixel.md R161). -/
def streamFrame (c : Colour) (n : Nat) : List FrameEvent :=
  [.csFall] ++ (List.replicate n [FrameEvent.dat (colourHi c), FrameEvent.dat (colourLo c)]).flatten ++ [.csRise]

/-- The eleven frames of `set_window` (42_window.md R140). -/
def windowFrames (o : Opcodes) (x1 y1 x2 y2 : Byte) : List FrameEvent :=
  commandFrame o.caset ++ dataFrame 0 ++ dataFrame x1 ++ dataFrame 0 ++ dataFrame x2 ++
    commandFrame o.raset ++ dataFrame 0 ++ dataFrame y1 ++ dataFrame 0 ++ dataFrame y2 ++
    commandFrame o.ramwr

/-- The twelve frames of `fill_rectangle` (R162, R163). -/
def fillFrames (o : Opcodes) (x1 y1 x2 y2 : Byte) (c : Colour) : List FrameEvent :=
  windowFrames o x1 y1 x2 y2 ++
    streamFrame c ((x2.toNat - x1.toNat + 1) * (y2.toNat - y1.toNat + 1))

/-- The thirteen frames of `draw_pixel` (R164). -/
def pixelFrames (o : Opcodes) (x y : Byte) (c : Colour) : List FrameEvent :=
  windowFrames o x y (x + 1) (y + 1) ++ dataFrame (colourHi c) ++ dataFrame (colourLo c)

/-- The frames of an `s × s` block at `(ox, oy)` (30_encoding.md R85). -/
def blockFrames (o : Opcodes) (ox oy s : Nat) (c : Colour) : List FrameEvent :=
  fillFrames o (u8 ox) (u8 oy) (u8 (ox + s - 1)) (u8 (oy + s - 1)) c

/-- The frames of `draw_bitmap`, with `body` the elements after the header (R167). -/
def bitmapFrames (o : Opcodes) (x y s w h : Nat) (body : List Colour) : List FrameEvent :=
  (List.range h).flatMap fun i =>
    (List.range w).flatMap fun j => blockFrames o (x + j * s) (y + i * s) s (body.getD (i * w + j) 0)

/-- The frames of a glyph cell (44_text.md R192). -/
def cellFrames (o : Opcodes) (x y size i j : Nat) (c : Colour) : List FrameEvent :=
  if size = 1 then pixelFrames o (u8 (x + i)) (u8 (y + j)) c
  else blockFrames o (x + i * size) (y + j * size) size c

/-- The frames of a glyph: those of its set bits, columns outermost (R192, R193). -/
def glyphFrames (o : Opcodes) (g : List Byte) (x y size : Nat) (c : Colour) : List FrameEvent :=
  (List.range 5).flatMap fun i =>
    (List.range 7).flatMap fun j =>
      if (g.getD i 0).getLsbD j then cellFrames o x y size i j c else []

/-- The frames of `init` (45_init.md R221). -/
def initFrames (c : Config) : List FrameEvent :=
  [.rstLow, .wait .rstPulse, .rstHigh, .wait .rstSettle] ++
    commandFrame c.opcodes.swreset ++ [.wait .swresetSettle] ++
    commandFrame c.opcodes.slpout ++ [.wait .slpoutSettle] ++
    commandFrame c.opcodes.colmod ++ dataFrame c.colmod16bpp ++ commandFrame c.opcodes.dispon

/-! ### Scripts: what an operation sends before the first fault it meets (60_exceptions.md R282) -/

/-- A part of an operation: its frames, or the fault met before any of them. -/
abbrev Part := Except FaultCode (List FrameEvent)

/-- The frames sent before the first fault. -/
def sentBefore : List Part → List FrameEvent
  | [] => []
  | .ok fs :: rest => fs ++ sentBefore rest
  | .error _ :: _ => []

/-- The first fault. -/
def firstFault : List Part → Option FaultCode
  | [] => none
  | .ok _ :: rest => firstFault rest
  | .error code :: _ => some code

/-- A coordinate's check (R281): `COORD_RANGE` with the computed integer. -/
def coordFault (v : Int) : Option FaultCode := if 0 ≤ v ∧ v ≤ 255 then none else some (.coordRange v)

/-- One `s × s` block at `(ox, oy)`: the four corners in argument order, then the order of the corners, which
only `s = 0` inverts (43_pixel.md R167, 44_text.md R192). -/
def blockPart (o : Opcodes) (ox oy s : Nat) (c : Colour) : Part :=
  match (coordFault ox).orElse fun _ => (coordFault oy).orElse fun _ =>
      (coordFault ((ox : Int) + s - 1)).orElse fun _ => coordFault ((oy : Int) + s - 1) with
  | some code => .error code
  | none =>
    if s = 0 then .error (.windowInverted (u8 ox) (u8 oy) (u8 (ox - 1)) (u8 (oy - 1)))
    else .ok (blockFrames o ox oy s c)

/-- One `draw_pixel` (R164). -/
def pixelPart (o : Opcodes) (x y : Byte) (c : Colour) : Part :=
  if x = 255 ∨ y = 255 then .error (.coordRange 256) else .ok (pixelFrames o x y c)

/-- `draw_bitmap`: the header, then each source pixel in row-major order (R167). -/
def bitmapScript (o : Opcodes) (x y s : Nat) (bitmap : List Colour) : List Part :=
  match bitmap with
  | w :: h :: _ =>
    (List.range h.toNat).flatMap fun i =>
      (List.range w.toNat).map fun j =>
        match bitmap[2 + i * w.toNat + j]? with
        | some c => blockPart o (x + j * s) (y + i * s) s c
        | none => .error (.bitmapBounds (max (2 + i * w.toNat + j) bitmap.length))
  | [_] => [.error (.bitmapBounds 1)]
  | [] => [.error (.bitmapBounds 0)]

/-- One set bit of a glyph (R192). -/
def cellPart (o : Opcodes) (x y size i j : Nat) (c : Colour) : Part :=
  if size = 1 then
    match (coordFault (x + i)).orElse fun _ => coordFault (y + j) with
    | some code => .error code
    | none => pixelPart o (u8 (x + i)) (u8 (y + j)) c
  else blockPart o (x + i * size) (y + j * size) size c

/-- Byte `i` of the glyph of a character in range (30_encoding.md R82). -/
def fontByte (c : Config) (ch : Byte) (i : Nat) : Byte :=
  if ch.toNat < c.splitChar then c.fontA.getD ((ch.toNat - c.firstPrintable) * 5 + i) 0
  else c.fontB.getD ((ch.toNat - c.splitChar) * 5 + i) 0

/-- The five bytes of a glyph (R81, R82). -/
def fontGlyph (c : Config) (ch : Byte) : List Byte := (List.range 5).map (fontByte c ch)

/-- A character has a glyph (44_text.md R190). -/
def HasGlyph (c : Config) (ch : Byte) : Prop := c.firstPrintable ≤ ch.toNat ∧ ch.toNat ≤ c.lastPrintable

/-- `draw_char`: the character's check, then each set bit, columns outermost (R192, R193). -/
def charScript (c : Config) (x y : Nat) (ch : Byte) (colour : Colour) (size : Nat) : List Part :=
  if ch.toNat < c.firstPrintable ∨ c.lastPrintable < ch.toNat then [.error (.charRange ch)]
  else
    (List.range 5).flatMap fun i =>
      (List.range 7).flatMap fun j =>
        if (fontByte c ch i).getLsbD j then [cellPart c.opcodes x y size i j colour] else []

/-- `draw_string` from its `k`-th character: the read, the origin's check, the character (R195). -/
def textScript (c : Config) (x y : Nat) (colour : Colour) (size k : Nat) : List Byte → List Part
  | [] => [.error (.stringBounds k)]
  | ch :: rest =>
    if ch = 0 then []
    else
      match coordFault (x + k * size * 6) with
      | some code => [.error code]
      | none => charScript c (x + k * size * 6) y ch colour size ++ textScript c x y colour size (k + 1) rest

end Sys2Proof.Machine
end

