-- ==== Sys2Proof/Safety.lean ====
section
/-! DEFINITION. What claims say of states: when an operation can start, what it leaves, when a receiver
listens, and the invariant of every step. -/

namespace Sys2Proof.Machine

open Sys2Proof

/-- No fault has been raised and no operation executes. -/
def State.Free (s : State) : Prop := s.fault = none ∧ s.op = .idle

/-- A host operation issued now passes its entry check (60_exceptions.md R283, R284, R286). -/
def State.Ready (s : State) : Prop := s.Free ∧ s.lines.idle = true

/-- No transfer can time out: the transport is BITBANG, or no bound is set (40_transport.md R107). -/
def State.Untimed (s : State) : Prop := s.cfg.transport = .bitbang ∨ s.cfg.txWaitBound = none

/-- The receiver has no bit of a byte pending. -/
def State.Aligned (s : State) : Prop := s.rx.nbits.getD 0 = 0

/-- What every operation leaves as it was: the instance, the inputs to come, and in BITBANG the
peripheral. -/
def State.Kept (s t : State) : Prop :=
  t.cfg = s.cfg ∧ t.inbox = s.inbox ∧
    (s.cfg.transport = .bitbang → t.spi = s.spi ∧ t.freeCtr = s.freeCtr)

/-- A primitive or operation ended without a fault: `op` is `Idle` again and `pc` 0 (10_state.md R26). -/
def State.Ended (s t : State) : Prop := t.fault = none ∧ t.op = .idle ∧ t.pc = 0 ∧ State.Kept s t

/-- A host operation completed: it ended, with the lines at their idle levels (R23) and no local left
(R24). -/
def State.Completed (s t : State) : Prop :=
  State.Ended s t ∧ t.lines.idle = true ∧ t.locals = Locals.none

/-- The bus carried `es` between two states. -/
def State.Carried (s t : State) (es : List BusEvent) : Prop :=
  t.trace = s.trace ++ es ∧ t.lines = s.lines.afterAll es

/-- A receiver's fields but the serial register, which no reaction to a frame looks at. -/
def Rx.sansSerial (rx : Rx) : Rx := { rx with shift := .unknown, nbits := none }

/-- The receiver has received the frames of `es` and nothing else (46_receiver.md R240), and no bit of a
byte is pending. -/
def State.Heard (s t : State) (es : List BusEvent) : Prop :=
  t.Aligned ∧ t.rx.sansSerial = (s.rx.receiveAll s.cfg (projFrom s.lines es)).sansSerial

/-- The frames between two states are `fs`, the optional bit waits aside, and the receiver heard them. -/
def State.Sent (s t : State) (fs : List FrameEvent) : Prop :=
  ∃ es, State.Carried s t es ∧ State.Heard s t es ∧ dropBitWaits (projFrom s.lines es) = fs

/-- Everything but the receiver is as it was. -/
def State.OnlyRx (s t : State) : Prop := t = { s with rx := t.rx }

/-- The receiver takes a byte: it is defined, its reset line is not low, and nothing is left to settle
(46_receiver.md R240 steps 1, 2 and 4). -/
def Rx.Awake (rx : Rx) : Prop := rx.undef = none ∧ (∀ ok, rx.rst ≠ .low ok) ∧ rx.settle = .clear

/-- The receiver takes a command: it has been reset, waits for no parameter and holds no half pixel
(R244). -/
def Rx.Listening (rx : Rx) : Prop :=
  rx.Awake ∧ (rx.mode = .idle ∨ rx.mode = .pixels) ∧ rx.hi = .empty

/-- A window the controller's area holds (R253). -/
def WindowInArea (c : Config) (x1 y1 x2 y2 : Byte) : Prop :=
  x1 ≤ x2 ∧ y1 ≤ y2 ∧ x2.toNat < c.ramCols ∧ y2.toNat < c.ramRows

/-- The delays of `init` meet the receiver's minima (70_reset_and_hazards.md R327, R328). -/
def DelaysMeet (c : Config) : Prop :=
  c.rxRstwMin ≤ c.tRstPulse ∧ c.rxResetMin ≤ c.tRstSettle ∧ c.rxResetMin ≤ c.tSwresetSettle ∧
    c.rxSlpoutMin ≤ c.tSlpoutSettle

/-- The reasons that the block's own traces can cause (R261). -/
def UndefReason.fromBlock : UndefReason → Bool
  | .notReset | .shortReset | .settle | .badWindow | .pixelFormat => true
  | .partialByte | .unknownLevel | .byteInReset | .partialParams | .halfPixel => false
  | .strayData | .noWindow | .unsupportedCmd => false

/-- Between operations of one caller (R261): a receiver still defined waits for no parameter, holds no
half pixel and is not held in reset; one that is not has a reason the block can cause. -/
def Rx.BetweenOps (rx : Rx) : Prop :=
  match rx.undef with
  | some r => r.fromBlock = true
  | none => (∀ p, rx.mode ≠ .param p) ∧ (∀ b, rx.hi ≠ .byte b) ∧ (∀ ok, rx.rst ≠ .low ok) ∧
      (rx.mode ≠ .unknown → rx.hi = .empty)

/-- In `Pixels` mode the window is known and lies in the area, the write pointer lies in the window, and
the pixel format is the 16-bit one (R253 to R255). -/
def Rx.PixelsInv (c : Config) (rx : Rx) : Prop :=
  rx.mode = .pixels →
    ∃ xs xe ys ye pc pr, rx.xs = some xs ∧ rx.xe = some xe ∧ rx.ys = some ys ∧ rx.ye = some ye ∧
      rx.pc = some pc ∧ rx.pr = some pr ∧ badWindow c xs xe ys ye = false ∧
      xs ≤ pc ∧ pc ≤ xe ∧ ys ≤ pr ∧ pr ≤ ye ∧ rx.colmod = some c.colmod16bpp

/-- The receiver's part of the invariant. -/
structure Rx.Inv (c : Config) (rx : Rx) : Prop where
  /-- Frame memory keeps its canonical form, inside the area (R32). -/
  memory : Memory.wf rx.fb = true ∧ Memory.inArea c rx.fb = true
  /-- "every other receiver field is `U`" (R242). -/
  undefined : ∀ r, rx.undef = some r → rx = Rx.undefined r
  /-- R253 to R255. -/
  pixels : rx.PixelsInv c
  /-- A half pixel is pending in `Pixels` mode only (R254), and its state is known after a reset. -/
  half : (∀ b, rx.hi = .byte b → rx.mode = .pixels) ∧ (rx.mode ≠ .unknown → rx.hi ≠ .unknown)
  /-- The settle requirement is known after a reset (R247). -/
  settled : rx.mode ≠ .unknown → rx.settle ≠ .unknown

/-- What every step keeps. -/
structure State.Inv (s : State) : Prop where
  /-- The receiver. -/
  receiver : s.rx.Inv s.cfg
  /-- Between steps no byte is half clocked (20_memory.md R57). -/
  aligned : s.Aligned
  /-- Without a fault the sequencer is idle, at step 0, and no control line is asserted (R23, R26). -/
  resting : s.fault = none →
    s.op = .idle ∧ s.pc = 0 ∧ s.lines.cs ≠ .low ∧ s.lines.dc ≠ .low ∧ s.lines.rst ≠ .low
  /-- After a fault `op` and `pc` stay as the fault recorded them (60_exceptions.md R284). -/
  stopped : ∀ r, s.fault = some r → s.op ≠ .idle ∧ r.op = s.op ∧ r.pc = s.pc
  /-- The transport that is not built is untouched (10_state.md R22, R28). -/
  transport : match s.cfg.transport with
    | .hw => s.lines.sck = .unknown ∧ s.lines.sdo = .unknown
    | .bitbang => s.spi.txbuf = none ∧ s.spi.txdone = none ∧ s.spi.inFlight = none

/-- The receiver is what the whole bus trace makes of a receiver at power-on (46_receiver.md R240), and no byte
is half clocked. -/
structure State.Heeds (s : State) : Prop where
  /-- The lines follow the trace (00_scope.md R13). -/
  lines : s.lines = Lines.powerOn.afterAll s.trace
  /-- 20_memory.md R57. -/
  whole : (s.trace.foldl Decoder.next ⟨Lines.powerOn, Shift8.zero, 0⟩).nb = 0
  /-- The receiver's own count agrees. -/
  aligned : s.Aligned
  /-- R240. -/
  receiver : s.rx.sansSerial = ((Rx.blank none).receiveAll s.cfg (proj s.trace)).sansSerial

/-- The glyph cell `(i, j)` fits `0..255` at this origin and size (44_text.md R192). -/
def CellFits (x y size i j : Nat) : Prop :=
  if size = 1 then x + i < 255 ∧ y + j < 255
  else 1 ≤ size ∧ x + i * size + size - 1 ≤ 255 ∧ y + j * size + size - 1 ≤ 255

/-- Every set bit of a glyph fits. -/
def GlyphFits (g : List Byte) (x y size : Nat) : Prop :=
  ∀ i j, i < 5 → j < 7 → (g.getD i 0).getLsbD j = true → CellFits x y size i j

end Sys2Proof.Machine
end

