-- ==== Sys2Proof/Certificates/Slice0/Obligations.lean ====
section
/-! DEFINITION. The statements for the provers. Each docstring names the rules of spec/ it formalises. A
premise `Ready`, `Aligned` or `Untimed` (Safety.lean) is about the state alone: the caller may issue an
operation, no byte is half clocked, and no transfer can time out. -/

open Sys2Proof Sys2Proof.Machine

/-! ### Power-on, invariants and the step -/

/-- 10_state.md R34, 70_reset_and_hazards.md R321 and R322: what power-on leaves. The parameters it holds
are the model's choice (log 2) and take no part. -/
def Obligations.ResetIsPowerOn : Prop :=
  State.reset.op = .idle ∧ State.reset.pc = 0 ∧ State.reset.fault = none ∧ State.reset.trace = [] ∧
    State.reset.lines = ⟨.unknown, .unknown, .unknown, .unknown, .unknown⟩ ∧
    State.reset.spi.txbuf = none ∧ State.reset.spi.txdone = none ∧
    State.reset.rx.shift = ⟨.unknown, .unknown, .unknown, .unknown, .unknown, .unknown, .unknown, .unknown⟩ ∧
    State.reset.rx.nbits = none ∧ State.reset.rx.mode = .unknown ∧
    State.reset.rx.pbuf = ⟨none, none, none, none⟩ ∧
    State.reset.rx.xs = none ∧ State.reset.rx.xe = none ∧ State.reset.rx.ys = none ∧ State.reset.rx.ye = none ∧
    State.reset.rx.colmod = none ∧ State.reset.rx.sleep = .unknown ∧ State.reset.rx.disp = .unknown ∧
    State.reset.rx.pc = none ∧ State.reset.rx.pr = none ∧ State.reset.rx.hi = .unknown ∧
    State.reset.rx.rst = .unknown ∧ State.reset.rx.settle = .unknown ∧ State.reset.rx.undef = none ∧
    ∀ row col, Memory.read State.reset.rx.fb row col = none

/-- The power-on state meets the invariant of every step (10_state.md R34, 70_reset_and_hazards.md R321, R322). The
instance it holds is the model's choice, a BITBANG one (log 2), so that the invariant asks for no byte in flight, the
model's choice as well (log 24); that a bit count of U is no half-clocked byte is the model's reading (log 18). -/
def Obligations.ResetMeetsInvariant : Prop := State.reset.Inv

/-- Every step keeps the invariant: frame memory canonical and inside the area, an undefined receiver all
`U`, the write pointer inside a valid window, no half-clocked byte, idle control lines and sequencer without
a fault, a fault's record kept, the transport that is not built untouched. -/
def Obligations.StepKeepsInvariant : Prop :=
  ∀ s t : State, s.Inv → step s = .next t → t.Inv

/-- 10_state.md R20, R30 and 40_transport.md R105: the parameters never change, and events are only appended. The
list of inputs is the model's choice (log 11): a step uses up the first. -/
def Obligations.StepKeepsInstance : Prop :=
  ∀ s t : State, step s = .next t → t.cfg = s.cfg ∧ s.trace <+: t.trace ∧ t.inbox = s.inbox.tail

/-- 60_exceptions.md R284: a fault records the operation and the step, `op` stays, and no step clears it; no later
host operation or primitive is accepted, but for the forms of `PrimitivesOutOfRangeRefused`, which are refused in
every state. That a primitive run alone is recorded as `op` is the model's choice (log 13), and so is the stuck
outcome where R286 could also answer that `op` is not `Idle` (log 7). -/
def Obligations.FaultsAreSticky : Prop :=
  (∀ (i : Instr) (s t : State) (r : FaultRecord), i.isHostOp = true ∨ i.isPrimitive = true → s.fault = none →
      exec i s = .next t → t.fault = some r → r.op = .busy i ∧ t.op = .busy i ∧ r.pc = t.pc) ∧
    (∀ (i : Instr) (s : State) (r : FaultRecord), i.isHostOp = true ∨ i.isPrimitive = true → i.argsFit = true →
      (∀ b, i = .transmitHw b → s.cfg.transport = .hw) →
      (∀ b, i = .transmitBitbang b → s.cfg.transport = .bitbang) → (∀ c, i ≠ .writePixels c 0) →
      s.fault = some r → exec i s = .fault (.sequencerStuck r)) ∧
    ∀ (s t : State) (r : FaultRecord), s.fault = some r → step s = .next t →
      t.fault = some r ∧ t.op = s.op ∧ t.pc = s.pc

/-- A step takes the next input: an instruction's bytes are decoded under the instance's opcodes and executed
with the input used up; so are a caller's, where they are one of the seven host operations (30_encoding.md R86,
R87); other bytes are `REF_UNKNOWN_OP`; with no input nothing happens. That bytes which decode to nothing for their
sender are refused in every state, before the other refusal of R286 and before the stuck state, is the model's reading
(log 8). The input list is the model's choice (log 11), a test bench's frame words and primitives are log 12 and log 13,
and that an empty list changes nothing is read from R323 (log 34). -/
def Obligations.StepRunsTheDecoded : Prop :=
  ∀ (s : State) (rest : List Input),
    (∀ bs i, s.inbox = .instr bs :: rest → decode s.cfg.opcodes bs = .ok i →
      step s = exec i { s with inbox := rest }) ∧
    (∀ bs why, s.inbox = .instr bs :: rest → decode s.cfg.opcodes bs = .error why →
      step s = .refused (.unknownOp why)) ∧
    (∀ bs i, s.inbox = .call bs :: rest → decode s.cfg.opcodes bs = .ok i → i.isHostOp = true →
      step s = exec i { s with inbox := rest }) ∧
    (∀ bs i, s.inbox = .call bs :: rest → decode s.cfg.opcodes bs = .ok i → i.isHostOp = false →
      step s = .refused (.unknownOp .notHostOp)) ∧
    (∀ bs why, s.inbox = .call bs :: rest → decode s.cfg.opcodes bs = .error why →
      step s = .refused (.unknownOp why)) ∧
    (∀ e, s.inbox = .wire e :: rest →
      step s = .next { s with inbox := rest, rx := s.rx.receive s.cfg e }) ∧
    (s.inbox = [] → step s = .next s)

/-! ### Encoding -/

/-- 30_encoding.md R71, R73, R91: words written out from the spec's encodings decode to what they stand for. The
opcodes are the table's, which the spec gives from general knowledge (log 3). -/
def Obligations.WordsDecode : Prop :=
  decodeTableWord 9 0b000101010 = some .cmdCaset ∧
    decodeTableWord 9 0b000101100 = some .cmdRamwr ∧
    decodeTableWord 9 0b100000101 = some (.data 0x05) ∧
    decodeTableWord 9 0b011111111 = some (.cmdUnsupported 0xFF) ∧
    decode Opcodes.table (ascii "init()") = .ok .init ∧
    decode Opcodes.table (ascii "fill_rectangle(0,0,127,127,0x0000)") = .ok (.fillRectangle 0 0 127 127 0) ∧
    decode Opcodes.table (ascii "draw_string(0,0,0xFFFF,2,\"AB\")") =
      .ok (.drawString 0 0 0xFFFF 2 [0x41, 0x42, 0])

/-- Under any seven distinct opcodes, decoding an encoded well-formed instruction gives it back, with every
operand at every value. -/
def Obligations.DecodeUndoesEncode : Prop :=
  ∀ (o : Opcodes) (i : Instr), o.all.Nodup → i.wellFormed o = true → decode o (encode o i) = .ok i

/-- 30_encoding.md R71, R88: every one of the 512 frame words is an instruction, bit 8 its qualifier: 256 data
words, one word for each of the seven commands, 249 unsupported ones. That a word is stored in two bytes is the
model's choice (log 10). -/
def Obligations.EveryFrameWordDecodes : Prop :=
  ∀ (o : Opcodes) (w : FrameWord), o.all.Nodup →
    decode o w.bytes = .ok (decodeFrame o w) ∧ (decodeFrame o w).wellFormed o = true ∧
      (decodeFrame o w).frame? o = some w ∧
      (w.getLsbD 8 = true → decodeFrame o w = .data (w.setWidth 8)) ∧
      (w.getLsbD 8 = false → ¬ w.setWidth 8 ∈ o.all → decodeFrame o w = .cmdUnsupported (w.setWidth 8))

/-- 60_exceptions.md R286, 30_encoding.md R86, R87: the caller's call of any name but the seven host operations', a
primitive's or the disabled line-drawing routine's, is `REF_UNKNOWN_OP`, and so is a frame word as a call. A name
that is not even a primitive's is refused as an instruction too. That this comes before the other refusal of R286 and
before the stuck state, and so holds in every state, and that a test bench's bytes can be refused at all, is the
model's reading (log 8). The text of a call, the two bytes of a word and the test bench are the model's choice (log 9,
log 10, log 13). -/
def Obligations.UnknownOperationRefused : Prop :=
  ∀ (s : State) (rest : List Input),
    (∀ (b : Byte) (nm : List Byte) (args : List Arg), isNameStart b = true → nm.all isNameByte = true →
      (¬ (b :: nm) ∈ hostNames → s.inbox = .call (callBytes (b :: nm) args) :: rest →
        ∃ why, step s = .refused (.unknownOp why)) ∧
      (¬ (b :: nm) ∈ callNames →
        s.inbox = .call (callBytes (b :: nm) args) :: rest ∨ s.inbox = .instr (callBytes (b :: nm) args) :: rest →
        step s = .refused (.unknownOp .unknownName))) ∧
    ∀ w : FrameWord, s.inbox = .call w.bytes :: rest → step s = .refused (.unknownOp .notHostOp)

/-! ### Refusals (60_exceptions.md R286) -/

/-- R286, 30_encoding.md R86, R89: an argument that does not fit its width is `REF_ARG_WIDTH`. That it comes before
the other refusal of R286 and before the stuck state, and so holds in every state, is the model's reading (log 8). -/
def Obligations.ArgWidthRefused : Prop :=
  ∀ (s : State) (a b c d e : Nat) (bm : List Colour) (text : List Byte),
    (256 ≤ a ∨ 256 ≤ b ∨ 256 ≤ c ∨ 256 ≤ d → exec (.setWindow a b c d) s = .refused .argWidth) ∧
    (256 ≤ a ∨ 256 ≤ b ∨ 256 ≤ c ∨ 256 ≤ d ∨ 65536 ≤ e →
      exec (.fillRectangle a b c d e) s = .refused .argWidth) ∧
    (256 ≤ a ∨ 256 ≤ b ∨ 65536 ≤ e → exec (.drawPixel a b e) s = .refused .argWidth) ∧
    (256 ≤ a ∨ 256 ≤ b ∨ 256 ≤ c → exec (.drawBitmap a b c bm) s = .refused .argWidth) ∧
    (256 ≤ a ∨ 256 ≤ b ∨ 256 ≤ c ∨ 65536 ≤ e ∨ 256 ≤ d →
      exec (.drawChar a b c e d) s = .refused .argWidth) ∧
    (256 ≤ a ∨ 256 ≤ b ∨ 65536 ≤ e ∨ 256 ≤ d → exec (.drawString a b e d text) s = .refused .argWidth)

/-- R286, 20_memory.md R64: a host operation issued while another executes is `REF_CONCURRENT_CALLER`. -/
def Obligations.ConcurrentCallerRefused : Prop :=
  ∀ (i j : Instr) (s : State), i.isHostOp = true → i.argsFit = true → s.fault = none → s.op = .busy j →
    exec i s = .refused .concurrentCaller

/-- An instance has one `transmit` (40_transport.md R100, R105), and `write_pixels` has `n ≥ 1` (43_pixel.md
R161). That the other cases are refusals, and this in every state, is the model's choice (log 14, log 30). -/
def Obligations.PrimitivesOutOfRangeRefused : Prop :=
  ∀ (s : State) (b : Byte) (c : Colour),
    (s.cfg.transport = .bitbang → exec (.transmitHw b) s = .refused .otherTransport) ∧
    (s.cfg.transport = .hw → exec (.transmitBitbang b) s = .refused .otherTransport) ∧
    exec (.writePixels c 0) s = .refused .emptyStream

/-! ### The receiver (46_receiver.md) -/

/-- R247, with R243 and R246 for when: what a reset sets, by the software-reset command and by the end of a long enough
hardware pulse. That the parameter bytes and the serial register, which R247 does not list, become `U` too is read from
60_exceptions.md R295: nothing but the reset line's state survives (log 37). -/
def Obligations.ResetClearsReceiver : Prop :=
  ∀ (s : State) (cleared : Rx), s.rx.undef = none →
    cleared = { s.rx with
      shift := .unknown, nbits := none, pbuf := ⟨none, none, none, none⟩,
      xs := none, xe := none, ys := none, ye := none, pc := none, pr := none, colmod := none, fb := [],
      sleep := .asleep, disp := .off, mode := .idle, hi := .empty, settle := .need s.cfg.rxResetMin } →
    ((∀ ok, s.rx.rst ≠ .low ok) → s.rx.mode = .unknown ∨ s.rx.Listening →
      exec .cmdSwreset s = .next { s with rx := cleared }) ∧
    (∀ rest, s.rx.rst = .low true → s.inbox = .wire .rstHigh :: rest →
      step s = .next { s with inbox := rest, rx := { cleared with rst := .high } }) ∧
    ∀ row col, Memory.read cleared.fb row col = none

/-- R249. -/
def Obligations.SleepOutWakes : Prop :=
  ∀ s : State, s.rx.Listening → exec .cmdSlpout s =
    .next { s with rx := { s.rx with sleep := .awake, mode := .idle, settle := .need s.cfg.rxSlpoutMin } }

/-- R251. -/
def Obligations.DisplayOn : Prop :=
  ∀ s : State, s.rx.Listening → exec .cmdDispon s = .next { s with rx := { s.rx with disp := .on, mode := .idle } }

/-- R250: the byte after `CMD_COLMOD` is the pixel format, and only `COLMOD_16BPP` gives pixels a meaning. -/
def Obligations.PixelFormatSets : Prop :=
  ∀ (s : State) (d : Byte),
    (s.rx.Listening → exec .cmdColmod s = .next { s with rx := { s.rx with mode := .param .colmod } }) ∧
    (s.rx.Awake → s.rx.mode = .param .colmod →
      exec (.data d) s = .next { s with rx := { s.rx with colmod := some d, mode := .idle } }) ∧
    (∀ xs xe ys ye, s.rx.Listening → s.rx.xs = some xs → s.rx.xe = some xe → s.rx.ys = some ys →
      s.rx.ye = some ye → badWindow s.cfg xs xe ys ye = false → s.rx.colmod ≠ some s.cfg.colmod16bpp →
      exec .cmdRamwr s = .next { s with rx := Rx.undefined .pixelFormat })

/-- R244, R245, R252: the address commands wait for four bytes, each kept in its place; the fourth sets the start
register from the first two and the end register from the last two, high byte first. -/
def Obligations.AddressBytesSetTheWindow : Prop :=
  ∀ (s : State) (d : Byte) (k : Fin 4) (p : ParamBuf), p = s.rx.pbuf.set k d →
    (s.rx.Listening → exec .cmdCaset s = .next { s with rx := { s.rx with mode := .param (.caset 0) } }) ∧
    (s.rx.Listening → exec .cmdRaset s = .next { s with rx := { s.rx with mode := .param (.raset 0) } }) ∧
    (s.rx.Awake → s.rx.mode = .param (.caset k) → k ≠ 3 →
      exec (.data d) s = .next { s with rx := { s.rx with pbuf := p, mode := .param (.caset (k + 1)) } }) ∧
    (s.rx.Awake → s.rx.mode = .param (.raset k) → k ≠ 3 →
      exec (.data d) s = .next { s with rx := { s.rx with pbuf := p, mode := .param (.raset (k + 1)) } }) ∧
    ∀ p0 p1 p2, s.rx.pbuf.p0 = some p0 → s.rx.pbuf.p1 = some p1 → s.rx.pbuf.p2 = some p2 → k = 3 →
      (s.rx.Awake → s.rx.mode = .param (.caset k) →
        exec (.data d) s = .next { s with rx := { s.rx with
          pbuf := p, xs := some (p0 ++ p1), xe := some (p2 ++ d), mode := .idle } }) ∧
      (s.rx.Awake → s.rx.mode = .param (.raset k) →
        exec (.data d) s = .next { s with rx := { s.rx with
          pbuf := p, ys := some (p0 ++ p1), ye := some (p2 ++ d), mode := .idle } })

/-- R253, its four steps. -/
def Obligations.MemoryWriteOpens : Prop :=
  ∀ s : State, s.rx.Listening →
    (s.rx.xs = none ∨ s.rx.xe = none ∨ s.rx.ys = none ∨ s.rx.ye = none →
      exec .cmdRamwr s = .next { s with rx := Rx.undefined .noWindow }) ∧
    ∀ xs xe ys ye, s.rx.xs = some xs → s.rx.xe = some xe → s.rx.ys = some ys → s.rx.ye = some ye →
      (xe < xs ∨ ye < ys ∨ s.cfg.ramCols ≤ xe.toNat ∨ s.cfg.ramRows ≤ ye.toNat →
        exec .cmdRamwr s = .next { s with rx := Rx.undefined .badWindow }) ∧
      (xs ≤ xe ∧ ys ≤ ye ∧ xe.toNat < s.cfg.ramCols ∧ ye.toNat < s.cfg.ramRows →
        (s.rx.colmod ≠ some s.cfg.colmod16bpp →
          exec .cmdRamwr s = .next { s with rx := Rx.undefined .pixelFormat }) ∧
        (s.rx.colmod = some s.cfg.colmod16bpp →
          exec .cmdRamwr s = .next { s with rx := { s.rx with
            pc := some xs, pr := some ys, hi := .empty, mode := .pixels } }))

/-- R254, R255: in `Pixels` mode a first byte is kept; a second one writes the cell at the pointer, high byte
first, and moves the pointer on, row by row, wrapping at the window's end. Every other cell is unchanged. -/
def Obligations.PixelBytesPaint : Prop :=
  ∀ (s : State) (d : Byte), s.Inv → s.rx.Awake → s.rx.mode = .pixels →
    (s.rx.hi = .empty → exec (.data d) s = .next { s with rx := { s.rx with hi := .byte d } }) ∧
    ∀ h, s.rx.hi = .byte h → ∃ xs xe ys ye pc pr fb,
      s.rx.xs = some xs ∧ s.rx.xe = some xe ∧ s.rx.ys = some ys ∧ s.rx.ye = some ye ∧
      s.rx.pc = some pc ∧ s.rx.pr = some pr ∧
      exec (.data d) s = .next { s with rx := { s.rx with
        fb := fb, hi := .empty
        pc := some (if pc < xe then pc + 1 else xs)
        pr := some (if pc < xe then pr else if pr < ye then pr + 1 else ys) } } ∧
      ∀ row col, col < 65536 → Memory.read fb row col =
        if row = pr.toNat ∧ col = pc.toNat then some (h ++ d) else Memory.read s.rx.fb row col

/-- R256: a command byte that is none of the seven. -/
def Obligations.UnsupportedCommandUndefines : Prop :=
  ∀ (s : State) (b : Byte), s.rx.Listening → ¬ b ∈ s.cfg.opcodes.all →
    exec (.cmdUnsupported b) s = .next { s with rx := Rx.undefined .unsupportedCmd }

/-- R240, with R242 to R246 and R248: the checks of a byte, in their order, for every frame word; and a frame
word touches the receiver alone. -/
def Obligations.ByteChecksInOrder : Prop :=
  ∀ (s : State) (w : FrameWord), ∃ rx, exec (decodeFrame s.cfg.opcodes w) s = .next { s with rx := rx } ∧
    (s.rx.undef ≠ none → rx = s.rx) ∧
    (s.rx.undef = none →
      (∀ ok, s.rx.rst = .low ok → rx = Rx.undefined .byteInReset) ∧
      ((∀ ok, s.rx.rst ≠ .low ok) →
        (s.rx.mode = .unknown → w ≠ frameWord false s.cfg.opcodes.swreset → rx = Rx.undefined .notReset) ∧
        (s.rx.mode ≠ .unknown → s.rx.settle ≠ .clear → rx = Rx.undefined .settle) ∧
        (s.rx.mode ≠ .unknown → s.rx.settle = .clear →
          (∀ p, s.rx.mode = .param p → w.getLsbD 8 = false → rx = Rx.undefined .partialParams) ∧
          ((∀ p, s.rx.mode ≠ .param p) → s.rx.hi ≠ .empty → w.getLsbD 8 = false →
            rx = Rx.undefined .halfPixel) ∧
          (s.rx.mode = .idle → w.getLsbD 8 = true → rx = Rx.undefined .strayData))))

/-- R242: an undefined receiver stays as it is whatever the step, and a receiver that becomes undefined keeps
nothing but the reason. -/
def Obligations.UndefinedIsSticky : Prop :=
  ∀ s t : State, step s = .next t →
    (s.rx.undef ≠ none → t.rx = s.rx) ∧
    ∀ r, s.rx.undef = none → t.rx.undef = some r → t.rx = Rx.blank (some r)

/-- R243, and R248 for the wait: the reset line at the receiver, the whole receiver after each event. The reset that
a long enough low ends in is R247's, as `ResetClearsReceiver` spells out (log 37). -/
def Obligations.ResetLineAtReceiver : Prop :=
  ∀ (s : State) (rest : List Input), s.rx.undef = none →
    (s.inbox = .wire .rstLow :: rest →
      step s = .next { s with inbox := rest, rx := { s.rx with rst := .low false } }) ∧
    (∀ ok t, s.rx.rst = .low ok → s.inbox = .wire (.wait t) :: rest →
      ∃ ok' settle', step s = .next { s with inbox := rest, rx := { s.rx with rst := .low ok', settle := settle' } } ∧
        (s.cfg.rxRstwMin ≤ s.cfg.time t → ok' = true) ∧ (s.cfg.time t < s.cfg.rxRstwMin → ok' = ok) ∧
        (∀ m, s.rx.settle = .need m → m ≤ s.cfg.time t → settle' = .clear) ∧
        (∀ m, s.rx.settle = .need m → s.cfg.time t < m → settle' = .need m) ∧
        ((∀ m, s.rx.settle ≠ .need m) → settle' = s.rx.settle)) ∧
    (s.rx.rst = .low false → s.inbox = .wire .rstHigh :: rest →
      step s = .next { s with inbox := rest, rx := Rx.undefined .shortReset }) ∧
    (s.rx.rst = .low true → s.inbox = .wire .rstHigh :: rest →
      step s = .next { s with inbox := rest, rx := { s.rx.reset s.cfg with rst := .high } }) ∧
    (s.rx.rst = .unknown → s.inbox = .wire .rstHigh :: rest →
      step s = .next { s with inbox := rest, rx := { s.rx with rst := .high } }) ∧
    (∀ ok w, s.rx.rst = .low ok →
      exec (decodeFrame s.cfg.opcodes w) s = .next { s with rx := Rx.undefined .byteInReset })

/-- R248: one wait at least as long as the requirement meets it; a shorter one leaves it, so that waits do not add
up. While the reset line is low the wait also counts for R243. Nothing else changes. -/
def Obligations.SettleNeedsOneLongWait : Prop :=
  ∀ (s : State) (rest : List Input) (t : DelayName) (m : Nat), s.rx.undef = none →
    s.rx.settle = .need m → s.inbox = .wire (.wait t) :: rest →
    ∃ rst', ((∀ ok, s.rx.rst ≠ .low ok) → rst' = s.rx.rst) ∧
      (∀ ok, s.rx.rst = .low ok → rst' = .low (ok || decide (s.cfg.rxRstwMin ≤ s.cfg.time t))) ∧
      (m ≤ s.cfg.time t →
        step s = .next { s with inbox := rest, rx := { s.rx with rst := rst', settle := .clear } }) ∧
      (s.cfg.time t < m → step s = .next { s with inbox := rest, rx := { s.rx with rst := rst' } })

/-! ### The primitives -/

/-- 40_transport.md R102, R103, R104: the events of a bit-banged byte, their number, and the levels left. That the
loop index keeps its last value is the model's choice (log 23). -/
def Obligations.BitbangTransmits : Prop :=
  ∀ (s : State) (b : Byte) (pause : List BusEvent) (es : List BusEvent), s.Free → s.cfg.transport = .bitbang →
    pause = (if 0 < s.cfg.tBit then [.delay .bit] else []) →
    es = ([7, 6, 5, 4, 3, 2, 1, 0].flatMap fun k =>
      [.drive .sck false, .drive .sdo (b.getLsbD k)] ++ pause ++ [.drive .sck true] ++ pause) →
    ∃ t, exec (.transmitBitbang b) s = .next t ∧ State.Ended s t ∧ State.Carried s t es ∧
      es.length = (if 0 < s.cfg.tBit then 40 else 24) ∧
      t.lines = { s.lines with sck := .high, sdo := .ofBool (b.getLsbD 0) } ∧
      t.locals = { Locals.none with bit := some 0 } ∧ (s.Aligned → State.Heard s t es)

/-- R101: in HW a byte is one `TxByte`; the wait ends with `TXDONE` read as 1 after the polls the peripheral's
schedule gives (the schedule is the model's, log 15, and so is that the count stays to be read, log 23), and the
control lines stay. -/
def Obligations.HwTransmits : Prop :=
  ∀ (s : State) (b : Byte), s.Free → s.cfg.transport = .hw →
    (s.cfg.txWaitBound = none ∨ ∃ n z rest, s.cfg.txWaitBound = some n ∧ s.spi.sched = z :: rest ∧ z < n) →
    ∃ t, exec (.transmitHw b) s = .next t ∧ State.Ended s t ∧ State.Carried s t [.txByte b] ∧
      t.spi.txbuf = some b ∧ t.spi.txdone = some true ∧ t.spi.inFlight = none ∧
      t.lines.cs = s.lines.cs ∧ t.lines.dc = s.lines.dc ∧ t.lines.rst = s.lines.rst ∧
      (∀ z rest, s.spi.sched = z :: rest → t.locals = { Locals.none with polls := some z } ∧
        t.spi.sched = rest) ∧
      (s.Aligned → State.Heard s t [.txByte b])

/-- R101, R107, 60_exceptions.md R284: with a bound `n`, a transfer whose first `n` polls read 0 raises
`TX_TIMEOUT` after its `TxByte`, as the first byte of a primitive or operation here; and whatever raises it, any
operation included, its byte is the last event, `TXDONE` reads 0, and inside a frame `CS` is left low. The numbers of the
recorded steps are the model's reading of what counts as a step (log 6), the schedule is the model's (log 15), that a
local keeps its value is the model's choice (log 23), and so is that a primitive run alone is recorded as `op`
(log 13). -/
def Obligations.TransferTimesOut : Prop :=
  (∀ (s : State) (n z : Nat) (rest : List Nat), s.Free → s.cfg.transport = .hw → s.cfg.txWaitBound = some n →
    s.spi.sched = z :: rest → n ≤ z →
    (∀ b, ∃ t, exec (.transmitHw b) s = .next t ∧ State.Carried s t [.txByte b] ∧
      t.fault = some ⟨.txTimeout b, .busy (.transmitHw b), n⟩ ∧ t.op = .busy (.transmitHw b) ∧ t.pc = n ∧
      t.locals = { Locals.none with polls := some n } ∧ t.spi.txdone = some false ∧ State.Kept s t) ∧
    (∀ b, ∃ t, exec (.writeCommand b) s = .next t ∧
      State.Carried s t [.drive .dc false, .drive .cs false, .txByte b] ∧
      t.fault = some ⟨.txTimeout b, .busy (.writeCommand b), n + 2⟩ ∧
      t.locals = { Locals.none with polls := some n } ∧ t.lines.cs = .low ∧ t.lines.dc = .low) ∧
    (∀ b, ∃ t, exec (.writeData b) s = .next t ∧ State.Carried s t [.drive .cs false, .txByte b] ∧
      t.fault = some ⟨.txTimeout b, .busy (.writeData b), n + 1⟩) ∧
    (∀ (c : Colour) (k : Nat), 1 ≤ k → ∃ t, exec (.writePixels c k) s = .next t ∧
      State.Carried s t [.drive .cs false, .txByte ((c >>> 8).setWidth 8)] ∧
      t.fault = some ⟨.txTimeout ((c >>> 8).setWidth 8), .busy (.writePixels c k), n + 1⟩) ∧
    ∀ x1 y1 x2 y2 : Nat, s.lines.idle = true → x1 < 256 → y1 < 256 → x2 < 256 → y2 < 256 →
      ∃ t, exec (.setWindow x1 y1 x2 y2) s = .next t ∧
        State.Carried s t [.drive .dc false, .drive .cs false, .txByte s.cfg.opcodes.caset] ∧
        t.fault = some ⟨.txTimeout s.cfg.opcodes.caset, .busy (.setWindow x1 y1 x2 y2), n + 2⟩) ∧
  ∀ (i : Instr) (s t : State) (r : FaultRecord) (b : Byte), i.isHostOp = true ∨ i.isPrimitive = true →
    exec i s = .next t → t.fault = some r → r.code = .txTimeout b →
    s.cfg.transport = .hw ∧ s.cfg.txWaitBound ≠ none ∧ t.spi.txbuf = some b ∧ t.spi.txdone = some false ∧
      (∃ es, State.Carried s t (es ++ [.txByte b])) ∧ ((∀ d, i ≠ .transmitHw d) → t.lines.cs = .low)

/-- R101, R107: a bound that no wait meets changes nothing. What an instruction does on the instance without the
bound, using schedule entries below the bound and no free value, it does on the instance with it. -/
def Obligations.BoundUnmetChangesNothing : Prop :=
  ∀ (i : Instr) (s t : State) (c : Config) (n : Nat) (used : List Nat), s.cfg.txWaitBound = some n →
    c.toParams = { s.cfg.toParams with txWaitBound := none } → exec i { s with cfg := c } = .next t →
    s.spi.sched = used ++ t.spi.sched → t.freeCtr = s.freeCtr → (∀ z, z ∈ used → z < n) →
    exec i s = .next { t with cfg := s.cfg }

/-- 41_framing.md R121, R126: `write_command` sends one command frame and leaves `CS` and `DC` at 1. -/
def Obligations.WriteCommandSends : Prop :=
  ∀ (s : State) (b : Byte), s.Free → s.Aligned → s.Untimed →
    ∃ t es, exec (.writeCommand b) s = .next t ∧ State.Ended s t ∧ State.Carried s t es ∧ State.Heard s t es ∧
      t.lines.cs = .high ∧ t.lines.dc = .high ∧ t.lines.rst = s.lines.rst ∧
      (s.lines.cs ≠ .low → dropBitWaits (projFrom s.lines es) = [.csFall, .cmd b, .csRise])

/-- R122, R124, R126: `write_data` sends one frame, a data frame when `DC` is 1; it does not drive `DC`, and leaves
`CS` at 1. -/
def Obligations.WriteDataSends : Prop :=
  ∀ (s : State) (b : Byte), s.Free → s.Aligned → s.Untimed →
    ∃ t es, exec (.writeData b) s = .next t ∧ State.Ended s t ∧ State.Carried s t es ∧ State.Heard s t es ∧
      t.lines.cs = .high ∧ t.lines.dc = s.lines.dc ∧ t.lines.rst = s.lines.rst ∧
      (s.lines.cs ≠ .low → s.lines.dc = .high →
        dropBitWaits (projFrom s.lines es) = [.csFall, .dat b, .csRise]) ∧
      (s.lines.cs ≠ .low → s.lines.dc = .low →
        dropBitWaits (projFrom s.lines es) = [.csFall, .cmd b, .csRise])

/-- 43_pixel.md R160, R161: `write_pixels` sends its pixels, high byte first, in one frame that never raises `CS`
between bytes. -/
def Obligations.WritePixelsSends : Prop :=
  ∀ (s : State) (c : Colour) (n : Nat), s.Free → s.Aligned → s.Untimed → 1 ≤ n →
    ∃ t es, exec (.writePixels c n) s = .next t ∧ State.Ended s t ∧ State.Carried s t es ∧ State.Heard s t es ∧
      t.lines.cs = .high ∧ t.lines.dc = s.lines.dc ∧ t.lines.rst = s.lines.rst ∧
      (s.lines.cs ≠ .low → s.lines.dc = .high → dropBitWaits (projFrom s.lines es) =
        .csFall :: (List.replicate n [FrameEvent.dat ((c >>> 8).setWidth 8), .dat (c.setWidth 8)]).flatten ++
          [.csRise])

/-- 44_text.md R190, 30_encoding.md R82, 20_memory.md R51: a character in range gives its five bytes, from table A
below the split and from table B above, never past a table's end; another is `CHAR_RANGE`. No event is sent. That
the local `g` hands the bytes back is the model's choice (log 23), and so is that a primitive run alone is recorded and
left as `op` (log 13). That a lookup counts no step, so that the step is 0, is the model's reading (log 6). -/
def Obligations.GlyphLooksUp : Prop :=
  ∀ (s : State) (ch : Byte), s.Free →
    (s.cfg.firstPrintable ≤ ch.toNat → ch.toNat ≤ s.cfg.lastPrintable →
      ∃ g, exec (.glyph ch) s = .next { s with pc := 0, locals := { Locals.none with g := some g } } ∧ g.length = 5 ∧
        ∀ i, i < 5 →
          (ch.toNat < s.cfg.splitChar → g[i]? = s.cfg.fontA[(ch.toNat - s.cfg.firstPrintable) * 5 + i]?) ∧
          (s.cfg.splitChar ≤ ch.toNat → g[i]? = s.cfg.fontB[(ch.toNat - s.cfg.splitChar) * 5 + i]?)) ∧
    (ch.toNat < s.cfg.firstPrintable ∨ s.cfg.lastPrintable < ch.toNat →
      exec (.glyph ch) s = .next { s with
        op := .busy (.glyph ch), pc := 0, locals := Locals.none
        fault := some ⟨.charRange ch, .busy (.glyph ch), 0⟩ })

/-! ### The host operations -/

/-- 60_exceptions.md R283, R282: every host operation checks the idle levels before anything else, and sends
nothing when one is wrong. The step is 0 since no step comes before the check (10_state.md R26); that the locals start
unassigned is the model's choice of form (log 23). -/
def Obligations.EntryCheckComesFirst : Prop :=
  ∀ (i : Instr) (s : State), i.isHostOp = true → i.argsFit = true → s.Free →
    ¬(s.lines.cs = .high ∧ s.lines.dc = .high ∧ s.lines.rst = .high) →
    exec i s = .next { s with
      op := .busy i, pc := 0, locals := Locals.none
      fault := some ⟨.linesNotIdle s.lines.cs s.lines.dc s.lines.rst, .busy i, 0⟩ }

/-- 42_window.md R140, R141: `set_window` sends its eleven frames, whatever the coordinates. -/
def Obligations.SetWindowSends : Prop :=
  ∀ (s : State) (x1 y1 x2 y2 : Nat), s.Ready → s.Aligned → s.Untimed →
    x1 < 256 → y1 < 256 → x2 < 256 → y2 < 256 →
    ∃ t, exec (.setWindow x1 y1 x2 y2) s = .next t ∧ State.Completed s t ∧
      State.Sent s t (windowFrames s.cfg.opcodes (u8 x1) (u8 y1) (u8 x2) (u8 y2))

/-- R143, and R141 with 46_receiver.md R253 where the window is not valid. -/
def Obligations.SetWindowOpens : Prop :=
  ∀ (s : State) (x1 y1 x2 y2 : Nat), s.Ready → s.Aligned → s.Untimed → s.rx.Listening →
    x1 < 256 → y1 < 256 → x2 < 256 → y2 < 256 → s.rx.colmod = some s.cfg.colmod16bpp →
    ∃ t, exec (.setWindow x1 y1 x2 y2) s = .next t ∧
      (x1 ≤ x2 ∧ y1 ≤ y2 ∧ x2 < s.cfg.ramCols ∧ y2 < s.cfg.ramRows →
        t.rx.xs = some (BitVec.ofNat 16 x1) ∧ t.rx.xe = some (BitVec.ofNat 16 x2) ∧
        t.rx.ys = some (BitVec.ofNat 16 y1) ∧ t.rx.ye = some (BitVec.ofNat 16 y2) ∧
        t.rx.mode = .pixels ∧ t.rx.pc = some (BitVec.ofNat 16 x1) ∧ t.rx.pr = some (BitVec.ofNat 16 y1) ∧
        t.rx.hi = .empty ∧ t.rx.undef = none ∧
        t.rx.fb = s.rx.fb ∧ t.rx.colmod = s.rx.colmod ∧ t.rx.sleep = s.rx.sleep ∧ t.rx.disp = s.rx.disp ∧
        t.rx.rst = s.rx.rst ∧ t.rx.settle = s.rx.settle) ∧
      (¬(x1 ≤ x2 ∧ y1 ≤ y2 ∧ x2 < s.cfg.ramCols ∧ y2 < s.cfg.ramRows) → t.rx.undef = some .badWindow)

/-- R142: the same `set_window` issued twice sends the same frames twice, and the second leaves the receiver as the
first did. -/
def Obligations.SetWindowTwice : Prop :=
  ∀ (s : State) (x1 y1 x2 y2 : Nat), s.Ready → s.Aligned → s.Untimed → s.rx.BetweenOps →
    x1 < 256 → y1 < 256 → x2 < 256 → y2 < 256 →
    ∃ t u fs, exec (.setWindow x1 y1 x2 y2) s = .next t ∧ exec (.setWindow x1 y1 x2 y2) t = .next u ∧
      State.Sent s t fs ∧ State.Sent t u fs ∧ u.rx.sansSerial = t.rx.sansSerial

/-- 43_pixel.md R163, R162: `fill_rectangle` of a window that is not inverted sends the window's eleven bytes, then
exactly `2 × (x2−x1+1) × (y2−y1+1)` data bytes, high and low alternating, in the frames of R162. -/
def Obligations.FillSends : Prop :=
  ∀ (s : State) (x1 y1 x2 y2 colour : Nat), s.Ready → s.Aligned → s.Untimed →
    x1 ≤ x2 → y1 ≤ y2 → x2 < 256 → y2 < 256 → colour < 65536 →
    ∃ t es, exec (.fillRectangle x1 y1 x2 y2 colour) s = .next t ∧ State.Completed s t ∧
      State.Sent s t (fillFrames s.cfg.opcodes (u8 x1) (u8 y1) (u8 x2) (u8 y2) (u16 colour)) ∧
      State.Carried s t es ∧
      byteView (projFrom s.lines es) =
        [.cmd s.cfg.opcodes.caset, .dat 0, .dat (u8 x1), .dat 0, .dat (u8 x2),
          .cmd s.cfg.opcodes.raset, .dat 0, .dat (u8 y1), .dat 0, .dat (u8 y2), .cmd s.cfg.opcodes.ramwr] ++
        (List.replicate ((x2 - x1 + 1) * (y2 - y1 + 1))
          [FrameEvent.dat (u8 (colour / 256)), .dat (u8 (colour % 256))]).flatten

/-- R162, R280, R282, R284, 10_state.md R26: an inverted window is `WINDOW_INVERTED`, before any event. That the entry
check counts no step, so that the recorded step is 0, is the model's reading (log 6), and that the locals start
unassigned is its choice of form (log 23). -/
def Obligations.FillInvertedFaults : Prop :=
  ∀ (s : State) (x1 y1 x2 y2 colour : Nat), s.Ready →
    x1 < 256 → y1 < 256 → x2 < 256 → y2 < 256 → colour < 65536 → x2 < x1 ∨ y2 < y1 →
    exec (.fillRectangle x1 y1 x2 y2 colour) s = .next { s with
      op := .busy (.fillRectangle x1 y1 x2 y2 colour), pc := 0, locals := Locals.none
      fault := some ⟨.windowInverted (u8 x1) (u8 y1) (u8 x2) (u8 y2),
        .busy (.fillRectangle x1 y1 x2 y2 colour), 0⟩ }

/-- R164: `draw_pixel` away from column and row 255 sends its thirteen frames. -/
def Obligations.DrawPixelSends : Prop :=
  ∀ (s : State) (x y colour : Nat), s.Ready → s.Aligned → s.Untimed → x < 255 → y < 255 → colour < 65536 →
    ∃ t, exec (.drawPixel x y colour) s = .next t ∧ State.Completed s t ∧
      State.Sent s t (windowFrames s.cfg.opcodes (u8 x) (u8 y) (u8 (x + 1)) (u8 (y + 1)) ++
        dataFrame (u8 (colour / 256)) ++ dataFrame (u8 (colour % 256)))

/-- R164, R281, 10_state.md R24: `draw_pixel` in column or row 255 is `COORD_RANGE` with the integer 256, before any
event; where the row alone is at fault `xe` has been assigned. That no step is counted before the fault is the model's
reading (log 6), and that a local keeps its value after it is the model's choice (log 23). -/
def Obligations.DrawPixelCoordRange : Prop :=
  ∀ (s : State) (x y colour : Nat), s.Ready → x < 256 → y < 256 → colour < 65536 → x = 255 ∨ y = 255 →
    exec (.drawPixel x y colour) s = .next { s with
      op := .busy (.drawPixel x y colour), pc := 0
      locals := { Locals.none with xe := if x = 255 then none else some (u8 (x + 1)) }
      fault := some ⟨.coordRange 256, .busy (.drawPixel x y colour), 0⟩ }

/-- R165: the byte view of `draw_pixel` is that of the `2 × 2` fill cut after its first two pixel bytes. -/
def Obligations.PixelIsAFillCutShort : Prop :=
  ∀ (s : State) (x y colour : Nat), s.Ready → s.Aligned → s.Untimed → x < 255 → y < 255 → colour < 65536 →
    ∃ t u es fs, exec (.drawPixel x y colour) s = .next t ∧
      exec (.fillRectangle x y (x + 1) (y + 1) colour) s = .next u ∧ State.Carried s t es ∧ State.Carried s u fs ∧
      byteView (projFrom s.lines es) = (byteView (projFrom s.lines fs)).take 13 ∧
      (byteView (projFrom s.lines es)).length = 13 ∧ (byteView (projFrom s.lines fs)).length = 19

/-- 46_receiver.md R262: where the receiver stays defined, a fill leaves its colour in every cell of its window and
the pointer at the top-left corner; a pixel leaves its colour in its cell and the pointer one column on; every other
cell is as it was. It does stay defined when it listens, the window lies in the area and the format is right. -/
def Obligations.PixelPlacement : Prop :=
  ∀ (s : State) (x1 y1 x2 y2 colour : Nat), s.Ready → s.Aligned → s.Untimed → s.rx.BetweenOps →
    x1 ≤ x2 → y1 ≤ y2 → x2 < 256 → y2 < 256 → colour < 65536 →
    (∃ t, exec (.fillRectangle x1 y1 x2 y2 colour) s = .next t ∧
      (s.rx.Listening → x2 < s.cfg.ramCols → y2 < s.cfg.ramRows → s.rx.colmod = some s.cfg.colmod16bpp →
        t.rx.undef = none) ∧
      (t.rx.undef = none →
        t.rx.pc = some (BitVec.ofNat 16 x1) ∧ t.rx.pr = some (BitVec.ofNat 16 y1) ∧
        ∀ row col, col < 65536 → Memory.read t.rx.fb row col =
          if y1 ≤ row ∧ row ≤ y2 ∧ x1 ≤ col ∧ col ≤ x2 then some (u16 colour)
          else Memory.read s.rx.fb row col)) ∧
    (x1 < 255 → y1 < 255 → ∃ t, exec (.drawPixel x1 y1 colour) s = .next t ∧
      (s.rx.Listening → x1 + 1 < s.cfg.ramCols → y1 + 1 < s.cfg.ramRows →
        s.rx.colmod = some s.cfg.colmod16bpp → t.rx.undef = none) ∧
      (t.rx.undef = none →
        t.rx.pc = some (BitVec.ofNat 16 (x1 + 1)) ∧ t.rx.pr = some (BitVec.ofNat 16 y1) ∧
        ∀ row col, col < 65536 → Memory.read t.rx.fb row col =
          if row = y1 ∧ col = x1 then some (u16 colour) else Memory.read s.rx.fb row col))

/-- R167, R168: `draw_bitmap` whose elements are all there and whose blocks all lie in `0..255` sends one fill's
frames for each source pixel, row by row. An empty bitmap sends nothing. -/
def Obligations.DrawBitmapSends : Prop :=
  ∀ (s : State) (x y scale : Nat) (w h : Colour) (body : List Colour), s.Ready → s.Aligned → s.Untimed →
    x < 256 → y < 256 → scale < 256 →
    (∀ i j, i < h.toNat → j < w.toNat → i * w.toNat + j < body.length ∧ 1 ≤ scale ∧
      x + j * scale + scale - 1 ≤ 255 ∧ y + i * scale + scale - 1 ≤ 255) →
    ∃ t, exec (.drawBitmap x y scale (w :: h :: body)) s = .next t ∧ State.Completed s t ∧
      State.Sent s t (bitmapFrames s.cfg.opcodes x y scale w.toNat h.toNat body)

/-- R167, R282, 60_exceptions.md R280, R281: `draw_bitmap` sends the frames of every source pixel before the first
fault its pseudocode meets, and stops at that fault; without one it completes. The index recorded for a header that is
not all there, the first one outside the space, is the model's reading (log 26). -/
def Obligations.DrawBitmapStopsAtFirstFault : Prop :=
  ∀ (s : State) (x y scale : Nat) (bitmap : List Colour) (script : List Part),
    s.Ready → s.Aligned → s.Untimed → x < 256 → y < 256 → scale < 256 →
    script = bitmapScript s.cfg.opcodes x y scale bitmap →
    ∃ t, exec (.drawBitmap x y scale bitmap) s = .next t ∧ State.Kept s t ∧ t.lines.idle = true ∧
      State.Sent s t (sentBefore script) ∧
      (firstFault script = none → State.Completed s t) ∧
      ∀ code, firstFault script = some code →
        t.op = .busy (.drawBitmap x y scale bitmap) ∧
        t.fault = some ⟨code, .busy (.drawBitmap x y scale bitmap), t.pc⟩

/-- 44_text.md R192, R193, R194: `draw_char` of a character with a glyph whose painted cells all fit sends, for each
set bit among bits 0 to 6 of the five columns in order, one pixel's frames at size 1 and one block's otherwise. -/
def Obligations.DrawCharSends : Prop :=
  ∀ (s : State) (x y ch colour size : Nat), s.Ready → s.Aligned → s.Untimed →
    x < 256 → y < 256 → ch < 256 → colour < 65536 → size < 256 →
    s.cfg.firstPrintable ≤ ch → ch ≤ s.cfg.lastPrintable → GlyphFits (fontGlyph s.cfg (u8 ch)) x y size →
    ∃ t, exec (.drawChar x y ch colour size) s = .next t ∧ State.Completed s t ∧
      State.Sent s t (glyphFrames s.cfg.opcodes (fontGlyph s.cfg (u8 ch)) x y size (u16 colour))

/-- R192, R282, 60_exceptions.md R280, R281: `draw_char` sends the frames of every set bit before the first fault,
`CHAR_RANGE` before any event, and stops there. -/
def Obligations.DrawCharStopsAtFirstFault : Prop :=
  ∀ (s : State) (x y ch colour size : Nat) (script : List Part), s.Ready → s.Aligned → s.Untimed →
    x < 256 → y < 256 → ch < 256 → colour < 65536 → size < 256 →
    script = charScript s.cfg x y (u8 ch) (u16 colour) size →
    ∃ t, exec (.drawChar x y ch colour size) s = .next t ∧ State.Kept s t ∧ t.lines.idle = true ∧
      State.Sent s t (sentBefore script) ∧
      (firstFault script = none → State.Completed s t) ∧
      ∀ code, firstFault script = some code →
        t.op = .busy (.drawChar x y ch colour size) ∧
        t.fault = some ⟨code, .busy (.drawChar x y ch colour size), t.pc⟩

/-- R195, R196: `draw_string` of a terminated text sends its characters' frames in order, the `k`-th at
`x + k × size × 6` and the same `y`; what follows the terminator is not read. -/
def Obligations.DrawStringSends : Prop :=
  ∀ (s : State) (x y colour size : Nat) (chars rest : List Byte), s.Ready → s.Aligned → s.Untimed →
    x < 256 → y < 256 → colour < 65536 → size < 256 →
    (∀ k ch, chars[k]? = some ch → ch ≠ 0 ∧ HasGlyph s.cfg ch ∧ x + k * size * 6 ≤ 255 ∧
      GlyphFits (fontGlyph s.cfg ch) (x + k * size * 6) y size) →
    ∃ t, exec (.drawString x y colour size (chars ++ 0 :: rest)) s = .next t ∧ State.Completed s t ∧
      State.Sent s t ((List.range chars.length).flatMap fun k =>
        glyphFrames s.cfg.opcodes (fontGlyph s.cfg (chars.getD k 0)) (x + k * size * 6) y size (u16 colour))

/-- R195, R282, 60_exceptions.md R280, R281: `draw_string` sends the frames of everything before the first fault,
`STRING_BOUNDS` at `len(text)` when no terminator is found, and stops there. -/
def Obligations.DrawStringStopsAtFirstFault : Prop :=
  ∀ (s : State) (x y colour size : Nat) (text : List Byte) (script : List Part), s.Ready → s.Aligned → s.Untimed →
    x < 256 → y < 256 → colour < 65536 → size < 256 →
    script = textScript s.cfg x y (u16 colour) size 0 text →
    ∃ t, exec (.drawString x y colour size text) s = .next t ∧ State.Kept s t ∧ t.lines.idle = true ∧
      State.Sent s t (sentBefore script) ∧
      (firstFault script = none → State.Completed s t) ∧
      ∀ code, firstFault script = some code →
        t.op = .busy (.drawString x y colour size text) ∧
        t.fault = some ⟨code, .busy (.drawString x y colour size text), t.pc⟩

/-- 45_init.md R221, 10_state.md R34: `init` sends its frames and waits in order, and leaves the serial side as the
display-on byte does. -/
def Obligations.InitSends : Prop :=
  ∀ s : State, s.Ready → s.Aligned → s.Untimed →
    ∃ t, exec .init s = .next t ∧ State.Completed s t ∧ State.Sent s t (initFrames s.cfg) ∧
      (s.cfg.transport = .bitbang →
        t.lines.sck = .high ∧ t.lines.sdo = .ofBool (s.cfg.opcodes.dispon.getLsbD 0)) ∧
      (s.cfg.transport = .hw → t.spi.txbuf = some s.cfg.opcodes.dispon ∧ t.spi.txdone = some true)

/-- R225, with 10_state.md R34 for the fields it does not list and 70_reset_and_hazards.md R327, R328 for the delays:
`init` whose delays meet the minima brings a defined receiver up,
its window, pointer and frame memory unknown. That the parameter bytes are unknown too is read from
60_exceptions.md R295 (log 37); a bit count of U would count as 0 (log 18). -/
def Obligations.InitBringsUp : Prop :=
  ∀ s : State, s.Ready → s.Aligned → s.Untimed → s.rx.undef = none → DelaysMeet s.cfg →
    ∃ t, exec .init s = .next t ∧ t.fault = none ∧
      t.rx.colmod = some s.cfg.colmod16bpp ∧ t.rx.sleep = .awake ∧ t.rx.disp = .on ∧ t.rx.mode = .idle ∧
      t.rx.undef = none ∧ t.rx.hi = .empty ∧ t.rx.rst = .high ∧ t.rx.settle = .clear ∧
      t.rx.nbits.getD 0 = 0 ∧ t.rx.pbuf = ⟨none, none, none, none⟩ ∧
      t.rx.xs = none ∧ t.rx.xe = none ∧ t.rx.ys = none ∧ t.rx.ye = none ∧ t.rx.pc = none ∧ t.rx.pr = none ∧
      ∀ row col, Memory.read t.rx.fb row col = none

/-- 70_reset_and_hazards.md R324: `board_setup()` drives the three idle levels in order and nothing else, and a
receiver that has seen no reset pulse only learns that the line is high. R324 asks for it before the first host
operation; that it is accepted in every state, after a fault too, is the model's choice (log 35). -/
def Obligations.BoardSetupDrivesIdle : Prop :=
  ∀ (s : State) (rest : List Input), s.inbox = .boardSetup :: rest →
    ∃ t, step s = .next t ∧
      t = { s with
        inbox := rest, rx := t.rx
        trace := s.trace ++ [.drive .cs true, .drive .dc true, .drive .rst true]
        lines := { s.lines with cs := .high, dc := .high, rst := .high } } ∧
      (s.Aligned → s.lines.cs = .unknown → s.lines.rst = .unknown → s.rx.rst = .unknown → s.rx.undef = none →
        t.rx.sansSerial = ({ s.rx with rst := .high } : Rx).sansSerial)

/-! ### The machine as a whole -/

/-- 46_receiver.md R261: power-on is between operations, and every step of one caller or of board setup that leaves
no fault, and every host operation that raises none, keeps it so: no parameter or half pixel is pending, no byte is
half clocked, and if the receiver is undefined then for one of the five reasons the block's own traces can cause. That
the bit count U of power-on is no half-clocked byte is the model's reading (log 18). -/
def Obligations.OperationsKeepBetween : Prop :=
  (State.reset.Aligned ∧ State.reset.rx.BetweenOps) ∧
    ∀ s t : State, s.Aligned → s.rx.BetweenOps → t.fault = none →
      (∀ i : Instr, i.isHostOp = true → exec i s = .next t → t.Aligned ∧ t.rx.BetweenOps) ∧
      (s.inbox = [] ∨ (∃ rest, s.inbox = .boardSetup :: rest) ∨ (∃ bs rest, s.inbox = .call bs :: rest) →
        step s = .next t → t.Aligned ∧ t.rx.BetweenOps)

/-- 40_transport.md R106: two instances that differ in the transport alone send the same frames, bit waits aside, for
the same host operation from idle lines, and raise the same fault. -/
def Obligations.TransportsAgree : Prop :=
  ∀ (i : Instr) (s u : State), i.isHostOp = true → i.argsFit = true →
    s.Ready → s.Aligned → s.Untimed → u.Ready → u.Aligned → u.cfg.transport = .bitbang →
    u.cfg.toParams = { s.cfg.toParams with transport := .bitbang } →
    ∃ t v fs, exec i s = .next t ∧ exec i u = .next v ∧ State.Sent s t fs ∧ State.Sent u v fs ∧
      t.fault.map FaultRecord.code = v.fault.map FaultRecord.code

/-- 60_exceptions.md R296, 46_receiver.md R242: what the block does never depends on the receiver: with any other
receiver every instruction has the same outcome, and the next state differs in the receiver alone. -/
def Obligations.BlockIgnoresReceiver : Prop :=
  ∀ (i : Instr) (s : State) (rx : Rx),
    (∀ t, exec i s = .next t → ∃ rx', exec i { s with rx := rx } = .next { t with rx := rx' }) ∧
    (∀ f, exec i s = .fault f → exec i { s with rx := rx } = .fault f) ∧
    ∀ f, exec i s = .refused f → exec i { s with rx := rx } = .refused f

/-- 46_receiver.md R240, 20_memory.md R61: after every step of the caller or of board setup, and of a primitive run
alone, the receiver is what the frame projection of the whole bus trace makes of a receiver at power-on. That the bit
count U of power-on is no half-clocked byte is the model's reading (log 18). -/
def Obligations.ReceiverConsumesTheTrace : Prop :=
  State.reset.Heeds ∧
    ∀ s t : State, s.Heeds → step s = .next t →
      (s.inbox = [] ∨ (∃ rest, s.inbox = .boardSetup :: rest) ∨ (∃ bs rest, s.inbox = .call bs :: rest) ∨
        ∃ bs rest i, s.inbox = .instr bs :: rest ∧ decode s.cfg.opcodes bs = .ok i ∧
          (i.isHostOp = true ∨ i.isPrimitive = true)) →
      t.Heeds

/-- 41_framing.md R125: no host operation drives `DC` while `CS` is 0. -/
def Obligations.DcStableInFrames : Prop :=
  ∀ (i : Instr) (s t : State), i.isHostOp = true → exec i s = .next t →
    ∃ es, State.Carried s t es ∧
      ∀ before after v, es = before ++ .drive .dc v :: after → (s.lines.afterAll before).cs ≠ .low

/-- 30_encoding.md R79, R88, 20_memory.md R57: what a host operation puts on the bus holds no cut byte, no unknown
byte, and no command but the seven; nor does it when a transfer times out. That a byte with an unknown bit or qualifier
is one kind of event is the model's choice (log 39). -/
def Obligations.OnlySevenCommands : Prop :=
  ∀ (i : Instr) (s t : State), i.isHostOp = true → s.Aligned → exec i s = .next t →
    ∃ es, State.Carried s t es ∧ ∀ f, f ∈ projFrom s.lines es →
      f ≠ .partialByte ∧ f ≠ .unknownByte ∧ ∀ b, f = .cmd b → b ∈ s.cfg.opcodes.all

/-- 10_state.md R29, 20_memory.md R62, 40_transport.md R101: in HW, after an operation or primitive whose transfers
cannot time out, `TXDONE` reads 1 and `TXBUF` holds the last byte sent; with no byte sent the peripheral is
untouched. -/
def Obligations.FlagFollowsLastByte : Prop :=
  ∀ (i : Instr) (s t : State), i.isHostOp = true ∨ i.isPrimitive = true → s.cfg.transport = .hw →
    s.cfg.txWaitBound = none → exec i s = .next t →
    ∃ es, State.Carried s t es ∧
      ((∀ b, ¬ BusEvent.txByte b ∈ es) → t.spi = s.spi) ∧
      ∀ before after b, es = before ++ .txByte b :: after → (∀ c, ¬ BusEvent.txByte c ∈ after) →
        t.spi.txbuf = some b ∧ t.spi.txdone = some true ∧ t.spi.inFlight = none

/-! ### The receiver's input -/

/-- 46_receiver.md R241, R257: a cut byte and a byte with an unknown level make a defined receiver undefined; a rise of
chip-select between bytes, driven or put on the input as an event, changes nothing but the bit count, which it sets to
0, and a fall changes nothing. That the two reasons come before the checks R240 lists, and so hold in reset, before the
first reset and unsettled too, is the model's reading (log 19). That a count which is unknown becomes 0 at a driven fall
is read from 30_encoding.md R79 (log 18), and that a byte with an unknown bit or qualifier is one kind of event is the
model's choice (log 39). -/
def Obligations.ChipSelectAndCutBytes : Prop :=
  ∀ (s : State) (rest : List Input), s.rx.undef = none →
    (s.inbox = .wire .partialByte :: rest →
      step s = .next { s with inbox := rest, rx := Rx.undefined .partialByte }) ∧
    (s.inbox = .wire .unknownByte :: rest →
      step s = .next { s with inbox := rest, rx := Rx.undefined .unknownLevel }) ∧
    (s.inbox = .wire .csFall :: rest → step s = .next { s with inbox := rest }) ∧
    (s.inbox = .wire .csRise :: rest →
      step s = .next { s with inbox := rest, rx := { s.rx with nbits := some 0 } }) ∧
    (s.Aligned → (s.emit (.drive .cs false)).rx = { s.rx with nbits := some 0 }) ∧
    (s.lines.cs ≠ .high → s.Aligned → (s.emit (.drive .cs true)).rx = { s.rx with nbits := some 0 }) ∧
    (s.lines.cs ≠ .high → ¬ s.Aligned → (s.emit (.drive .cs true)).rx = Rx.undefined .partialByte)
end

