-- ==== Sys2Proof/Laws/Memory.lean ====
section
/-! SUPPORT. The laws of frame memory and of element reads. -/

namespace Sys2Proof.Machine

open Sys2Proof

/-! ### Keys -/

theorem cellKey_inj {r c r' c' : Nat} (hc : c < 65536) (hc' : c' < 65536) :
    cellKey r c = cellKey r' c' ↔ r = r' ∧ c = c' := by
  unfold cellKey
  constructor
  · intro h; omega
  · rintro ⟨rfl, rfl⟩; rfl

theorem cellKey_div {r c : Nat} (hc : c < 65536) : cellKey r c / 65536 = r := by
  unfold cellKey; omega

theorem cellKey_mod {r c : Nat} (hc : c < 65536) : cellKey r c % 65536 = c := by
  unfold cellKey; omega

/-! ### Read after write -/

theorem Memory.at_put_same (m : Memory) (k : Nat) (v : Colour) : Memory.at (Memory.put m k v) k = some v := by
  induction m with
  | nil => simp [Memory.put, Memory.at]
  | cons cell rest ih =>
    obtain ⟨k', w⟩ := cell
    unfold Memory.put
    split
    · simp [Memory.at]
    · split
      · simp [Memory.at]
      · rename_i h; simp [Memory.at, Ne.symm h, ih]

theorem Memory.at_put_other (m : Memory) {k k' : Nat} (v : Colour) (h : k' ≠ k) :
    Memory.at (Memory.put m k v) k' = Memory.at m k' := by
  induction m with
  | nil => simp [Memory.put, Memory.at, Ne.symm h]
  | cons cell rest ih =>
    obtain ⟨k₀, w⟩ := cell
    unfold Memory.put
    split
    · simp [Memory.at, Ne.symm h]
    · split
      · rename_i h₂; subst h₂; simp [Memory.at, Ne.symm h]
      · simp only [Memory.at, ih]

/-- A cell written reads as it was written. -/
theorem Memory.read_write_same (m : Memory) (r c : Nat) (v : Colour) :
    Memory.read (Memory.write m r c v) r c = some v := Memory.at_put_same m _ v

/-- Every other cell reads as before. -/
theorem Memory.read_write_other (m : Memory) {r c r' c' : Nat} (v : Colour) (hc : c < 65536)
    (hc' : c' < 65536) (h : ¬(r' = r ∧ c' = c)) :
    Memory.read (Memory.write m r c v) r' c' = Memory.read m r' c' :=
  Memory.at_put_other m v fun e => h ((cellKey_inj hc' hc).1 e)

@[simp] theorem Memory.read_nil (r c : Nat) : Memory.read [] r c = none := rfl

/-! ### The canonical form -/

theorem Memory.put_risingFrom {m : Memory} {lo k : Nat} (v : Colour) (h : Memory.risingFrom lo m = true)
    (hk : lo ≤ k) : Memory.risingFrom lo (Memory.put m k v) = true := by
  induction m generalizing lo with
  | nil => simp [Memory.put, Memory.risingFrom, hk]
  | cons cell rest ih =>
    obtain ⟨k₀, w⟩ := cell
    simp only [Memory.risingFrom, Bool.and_eq_true, decide_eq_true_eq] at h
    unfold Memory.put
    split
    · rename_i hlt
      simp [Memory.risingFrom, hk, h.2, Nat.succ_le_of_lt hlt]
    · split
      · rename_i heq; subst heq; simp [Memory.risingFrom, h.1, h.2]
      · rename_i h₁ h₂
        simp only [Memory.risingFrom, Bool.and_eq_true, decide_eq_true_eq]
        exact ⟨h.1, ih h.2 (by omega)⟩

/-- A write keeps the canonical form. -/
theorem Memory.write_wf {m : Memory} (r c : Nat) (v : Colour) (h : Memory.wf m = true) :
    Memory.wf (Memory.write m r c v) = true := Memory.put_risingFrom v h (Nat.zero_le _)

@[simp] theorem Memory.wf_nil : Memory.wf [] = true := rfl

theorem Memory.put_all {p : Nat × Colour → Bool} {m : Memory} {k : Nat} {v : Colour}
    (h : m.all p = true) (hk : p (k, v) = true) : (Memory.put m k v).all p = true := by
  induction m with
  | nil => simp [Memory.put, hk]
  | cons cell rest ih =>
    obtain ⟨k₀, w⟩ := cell
    simp only [List.all_cons, Bool.and_eq_true] at h
    unfold Memory.put
    split
    · simp [hk, h.1, h.2]
    · split
      · simp [hk, h.2]
      · simp [h.1, ih h.2]

/-- A write inside the area keeps every cell in the area. -/
theorem Memory.write_inArea {c : Config} {m : Memory} {row col : Nat} (v : Colour)
    (h : Memory.inArea c m = true) (hr : row < c.ramRows) (hc : col < c.ramCols) (h16 : col < 65536) :
    Memory.inArea c (Memory.write m row col v) = true :=
  Memory.put_all h (by simp only [cellKey_div h16, cellKey_mod h16, hr, hc, decide_true, Bool.and_self])

@[simp] theorem Memory.inArea_nil (c : Config) : Memory.inArea c [] = true := rfl

/-! ### Element reads -/

theorem memRead_eq_none {α : Type} {space : List α} {i n : Nat} :
    memRead space i n = none ↔ space.length < i + n := by
  unfold memRead; split <;> simp <;> omega

theorem memRead_length {α : Type} {space g : List α} {i n : Nat} (h : memRead space i n = some g) :
    g.length = n := by
  unfold memRead at h
  split at h
  · cases h; simp; omega
  · cases h

theorem memRead_one {α : Type} (space : List α) (i : Nat) :
    memRead space i 1 = (space[i]?).map fun a => [a] := by
  unfold memRead
  split
  · rename_i h
    have hi : i < space.length := by omega
    rw [List.getElem?_eq_getElem hi, List.drop_eq_getElem_cons hi]; rfl
  · rename_i h
    have hi : space.length ≤ i := by omega
    rw [List.getElem?_eq_none hi]; rfl

end Sys2Proof.Machine
end

