-- ==== Sys2Proof/Laws/Projection.lean ====
section
/-! SUPPORT. The laws of the frame projection (30_encoding.md R79): runs of events, one bit-banged byte, and
that the register's old contents never reach a frame. -/

namespace Sys2Proof.Machine

open Sys2Proof

/-! ### Levels -/

@[simp] theorem Level.bit?_ofBool (v : Bool) : (Level.ofBool v).bit? = some v := by cases v <;> rfl

@[simp] theorem Level.ofBool_true : Level.ofBool true = .high := rfl

@[simp] theorem Level.ofBool_false : Level.ofBool false = .low := rfl

@[simp] theorem Lines.after_drive (lv : Lines) (l : Line) (v : Bool) : lv.after (.drive l v) = lv.drive l v := rfl

@[simp] theorem Lines.after_delay (lv : Lines) (t : DelayName) : lv.after (.delay t) = lv := rfl

@[simp] theorem Lines.afterAll_nil (lv : Lines) : lv.afterAll [] = lv := rfl

@[simp] theorem Lines.afterAll_cons (lv : Lines) (e : BusEvent) (es : List BusEvent) :
    lv.afterAll (e :: es) = (lv.after e).afterAll es := rfl

@[simp] theorem Lines.afterAll_append (lv : Lines) (es fs : List BusEvent) :
    lv.afterAll (es ++ fs) = (lv.afterAll es).afterAll fs := List.foldl_append

/-! ### Runs -/

/-- What the projection keeps after a run of events. -/
def Decoder.afterAll (d : Decoder) (es : List BusEvent) : Decoder := es.foldl Decoder.next d

@[simp] theorem Decoder.afterAll_nil (d : Decoder) : d.afterAll [] = d := rfl

@[simp] theorem Decoder.afterAll_cons (d : Decoder) (e : BusEvent) (es : List BusEvent) :
    d.afterAll (e :: es) = (d.next e).afterAll es := rfl

@[simp] theorem Decoder.afterAll_append (d : Decoder) (es fs : List BusEvent) :
    d.afterAll (es ++ fs) = (d.afterAll es).afterAll fs := List.foldl_append

@[simp] theorem Decoder.run_nil (d : Decoder) : d.run [] = [] := rfl

@[simp] theorem Decoder.run_cons (d : Decoder) (e : BusEvent) (es : List BusEvent) :
    d.run (e :: es) = d.out e ++ (d.next e).run es := rfl

theorem Decoder.run_append (d : Decoder) (es fs : List BusEvent) :
    d.run (es ++ fs) = d.run es ++ (d.afterAll es).run fs := by
  induction es generalizing d with
  | nil => rfl
  | cons e es ih => simp [ih]

/-- The levels the projection keeps are the lines. -/
@[simp] theorem Decoder.next_lv (d : Decoder) (e : BusEvent) : (d.next e).lv = d.lv.after e := by
  rcases e with ⟨_ | _ | _ | _ | _, _ | _⟩ | _ | _ <;> (simp only [Decoder.next]; try rfl)
  split <;> rfl

@[simp] theorem Decoder.afterAll_lv (d : Decoder) (es : List BusEvent) :
    (d.afterAll es).lv = d.lv.afterAll es := by
  induction es generalizing d with
  | nil => rfl
  | cons e es ih => simp [ih]

@[simp] theorem dropBitWaits_append (fs gs : List FrameEvent) :
    dropBitWaits (fs ++ gs) = dropBitWaits fs ++ dropBitWaits gs := List.filter_append ..

@[simp] theorem dropBitWaits_nil : dropBitWaits [] = [] := rfl

/-! ### One bit-banged byte -/

/-- The register after a byte has been shifted in. -/
def Shift8.ofByte (b : Byte) : Shift8 :=
  ⟨.ofBool (b.getLsbD 7), .ofBool (b.getLsbD 6), .ofBool (b.getLsbD 5), .ofBool (b.getLsbD 4),
    .ofBool (b.getLsbD 3), .ofBool (b.getLsbD 2), .ofBool (b.getLsbD 1), .ofBool (b.getLsbD 0)⟩

/-- A byte shifted in is the byte read back. -/
@[simp] theorem Shift8.byte?_ofByte (b : Byte) : (Shift8.ofByte b).byte? = some b := by
  have h : ∀ b : Byte, (Shift8.ofByte b).byte? = some b := by decide +kernel
  exact h b

/-- The optional waits of one half of a bit. -/
def bitPause (tBit : Nat) : List FrameEvent := if 0 < tBit then [.wait .bit] else []

@[simp] theorem dropBitWaits_bitPause (tBit : Nat) : dropBitWaits (bitPause tBit) = [] := by
  unfold bitPause; split <;> rfl

/-- One bit sent with `CS` low: it is shifted in, and the eighth completes a byte. -/
theorem Decoder.run_bitEvents (d : Decoder) (tBit : Nat) (v : Bool) (h : d.lv.cs = .low) :
    d.run (bitEvents tBit v) = bitPause tBit ++
      (if d.nb = 7 then [byteEvent d.lv.dc (d.sh.shiftIn (.ofBool v)).byte?] else []) ++ bitPause tBit := by
  rcases d with ⟨⟨cs, dc, rst, sck, sdo⟩, sh, nb⟩
  simp only at h
  subst h
  unfold bitEvents bitPause
  by_cases ht : 0 < tBit <;>
    simp [ht, Decoder.out, Decoder.next, Lines.drive, Decoder.edge]

theorem Decoder.afterAll_bitEvents (d : Decoder) (tBit : Nat) (v : Bool) (h : d.lv.cs = .low) :
    d.afterAll (bitEvents tBit v) =
      ⟨{ d.lv with sck := .high, sdo := .ofBool v }, d.sh.shiftIn (.ofBool v), d.nb + 1⟩ := by
  rcases d with ⟨⟨cs, dc, rst, sck, sdo⟩, sh, nb⟩
  simp only at h
  subst h
  unfold bitEvents
  by_cases ht : 0 < tBit <;>
    simp [ht, Decoder.next, Lines.drive, Decoder.edge]

/-- With `CS` not low a bit reaches nobody (40_transport.md R108). -/
theorem Decoder.afterAll_bitEvents_idle (d : Decoder) (tBit : Nat) (v : Bool) (h : d.lv.cs ≠ .low) :
    d.afterAll (bitEvents tBit v) = ⟨{ d.lv with sck := .high, sdo := .ofBool v }, d.sh, d.nb⟩ ∧
      d.run (bitEvents tBit v) = bitPause tBit ++ bitPause tBit := by
  rcases d with ⟨⟨cs, dc, rst, sck, sdo⟩, sh, nb⟩
  simp only at h
  unfold bitEvents bitPause
  by_cases ht : 0 < tBit <;>
    simp [ht, Decoder.out, Decoder.next, Lines.drive, Decoder.edge, h]

/-- The sixteen optional waits of a byte, around its one event. -/
def byteWaits (tBit n : Nat) : List FrameEvent := (List.replicate n (bitPause tBit)).flatten

@[simp] theorem dropBitWaits_byteWaits (tBit n : Nat) : dropBitWaits (byteWaits tBit n) = [] := by
  induction n with
  | zero => rfl
  | succ n ih => simpa [byteWaits, List.replicate_succ] using ih

/-- A byte bit-banged in a frame contributes exactly one byte event and, with `T_BIT > 0`, sixteen waits
(R106). -/
theorem Decoder.run_bitbang (d : Decoder) (tBit : Nat) (b : Byte) (h : d.lv.cs = .low) (hn : d.nb = 0) :
    d.run (bitbangEvents tBit b) =
      byteWaits tBit 15 ++ [byteEvent d.lv.dc (some b)] ++ byteWaits tBit 1 := by
  have hb := Shift8.byte?_ofByte b
  simp only [Shift8.ofByte] at hb
  rcases d with ⟨lv, sh, nb⟩
  simp only at h hn
  subst hn
  simp only [bitbangEvents, List.flatMap_cons, List.flatMap_nil, List.append_nil, Decoder.run_append,
    Decoder.run_bitEvents, Decoder.afterAll_bitEvents, h, Shift8.shiftIn, hb]
  simp [byteWaits, List.replicate]

theorem Decoder.afterAll_bitbang (d : Decoder) (tBit : Nat) (b : Byte) (h : d.lv.cs = .low)
    (hn : d.nb = 0) :
    d.afterAll (bitbangEvents tBit b) =
      ⟨{ d.lv with sck := .high, sdo := .ofBool (b.getLsbD 0) }, Shift8.ofByte b, 0⟩ := by
  rcases d with ⟨lv, sh, nb⟩
  simp only at h hn
  subst hn
  simp only [bitbangEvents, List.flatMap_cons, List.flatMap_nil, List.append_nil,
    Decoder.afterAll_append, Decoder.afterAll_bitEvents, h, Shift8.shiftIn, Shift8.ofByte]
  rfl

/-- A byte bit-banged with `CS` not low leaves the projection's byte alone (R108). -/
theorem Decoder.bitbang_idle (d : Decoder) (tBit : Nat) (b : Byte) (h : d.lv.cs ≠ .low) :
    d.afterAll (bitbangEvents tBit b) =
        ⟨{ d.lv with sck := .high, sdo := .ofBool (b.getLsbD 0) }, d.sh, d.nb⟩ ∧
      d.run (bitbangEvents tBit b) = byteWaits tBit 16 := by
  rcases d with ⟨lv, sh, nb⟩
  simp only at h
  have step : ∀ (lv' : Lines) (v : Bool), lv'.cs = lv.cs → lv'.cs ≠ .low := fun lv' _ e => e ▸ h
  simp only [bitbangEvents, List.flatMap_cons, List.flatMap_nil, List.append_nil,
    Decoder.afterAll_append, Decoder.run_append, (Decoder.afterAll_bitEvents_idle _ tBit _ _).1,
    (Decoder.afterAll_bitEvents_idle _ tBit _ _).2, h, ne_eq, not_false_eq_true]
  simp [byteWaits, List.replicate]

/-- The levels after a bit-banged byte (R104). -/
theorem Lines.afterAll_bitbang (lv : Lines) (tBit : Nat) (b : Byte) :
    lv.afterAll (bitbangEvents tBit b) = { lv with sck := .high, sdo := .ofBool (b.getLsbD 0) } := by
  by_cases h : lv.cs = .low
  · have := congrArg Decoder.lv (Decoder.afterAll_bitbang ⟨lv, Shift8.zero, 0⟩ tBit b h rfl)
    simpa using this
  · have := congrArg Decoder.lv (Decoder.bitbang_idle ⟨lv, Shift8.zero, 0⟩ tBit b h).1
    simpa using this

/-! ### The register's old contents never reach a frame -/

/-- The last `n` bits shifted in. -/
def Shift8.last (sh : Shift8) (n : Nat) : List Level :=
  [sh.b0, sh.b1, sh.b2, sh.b3, sh.b4, sh.b5, sh.b6, sh.b7].take n

theorem Shift8.last_shiftIn (sh : Shift8) (bit : Level) (n : Nat) (h : n < 8) :
    (sh.shiftIn bit).last (n + 1) = bit :: sh.last n := by
  have hn : n = 0 ∨ n = 1 ∨ n = 2 ∨ n = 3 ∨ n = 4 ∨ n = 5 ∨ n = 6 ∨ n = 7 := by omega
  rcases hn with h | h | h | h | h | h | h | h <;> subst h <;> rfl

theorem Shift8.ext_of_last {sh sh' : Shift8} (h : sh.last 8 = sh'.last 8) : sh = sh' := by
  cases sh; cases sh'; simp_all [Shift8.last]

/-- Two projections that differ at most in bits of the register older than the byte in progress. -/
def Decoder.Same (d d' : Decoder) : Prop := d.lv = d'.lv ∧ d.nb = d'.nb ∧ d.sh.last d.nb = d'.sh.last d.nb

theorem Decoder.Same.step {d d' : Decoder} (h : d.Same d') (e : BusEvent) :
    d.out e = d'.out e ∧ (d.next e).Same (d'.next e) := by
  obtain ⟨lv, sh, nb⟩ := d
  obtain ⟨lv', sh', nb'⟩ := d'
  obtain ⟨h1, h2, h3⟩ := h
  simp only at h1 h2 h3
  subst h1; subst h2
  have hstep : ∀ bit, ((sh.shiftIn bit).last (nb + 1) = (sh'.shiftIn bit).last (nb + 1)) := fun bit => by
    rw [Shift8.last_shiftIn _ _ _ nb.isLt, Shift8.last_shiftIn _ _ _ nb.isLt, h3]
  rcases e with ⟨_ | _ | _ | _ | _, _ | _⟩ | _ | _ <;>
    simp only [Decoder.out, Decoder.next, Decoder.Same, Decoder.edge] <;>
    (try exact ⟨trivial, trivial, trivial, h3⟩)
  · refine ⟨trivial, trivial, trivial, ?_⟩
    split
    · exact h3
    · simp [Shift8.last]
  · by_cases he : lv.sck = .low ∧ lv.cs = .low
    · simp only [he.1, he.2, decide_true, Bool.and_true, Bool.true_and, decide_eq_true_eq, if_true]
      by_cases h7 : nb = 7
      · subst h7
        have := Shift8.ext_of_last (hstep lv.sdo)
        rw [this]; simp
      · simp only [h7, if_false]
        refine ⟨trivial, trivial, trivial, ?_⟩
        have hv : ((nb + 1 : Fin 8) : Nat) = nb + 1 := by
          have : (nb : Nat) ≠ 7 := fun e => h7 (Fin.ext e)
          have := nb.isLt
          rw [Fin.val_add]; simp; omega
        rw [hv]; exact hstep _
    · have hf : (decide (lv.sck = .low) && decide (lv.cs = .low)) = false := by
        simp only [Bool.and_eq_false_iff, decide_eq_false_iff_not]; tauto
      simp only [hf, Bool.false_and, Bool.false_eq_true, if_false]
      exact ⟨trivial, trivial, trivial, h3⟩

theorem Decoder.Same.run {d d' : Decoder} (h : d.Same d') (es : List BusEvent) :
    d.run es = d'.run es := by
  induction es generalizing d d' with
  | nil => rfl
  | cons e es ih => simp only [Decoder.run_cons, (h.step e).1, ih (h.step e).2]

theorem Decoder.Same.afterAll {d d' : Decoder} (h : d.Same d') (es : List BusEvent) :
    (d.afterAll es).Same (d'.afterAll es) := by
  induction es generalizing d d' with
  | nil => exact h
  | cons e es ih => exact ih (h.step e).2

/-- With no bit of a byte pending, a run's frames do not depend on the register. -/
theorem Decoder.run_eq_projFrom (d : Decoder) (h : d.nb = 0) (es : List BusEvent) :
    d.run es = projFrom d.lv es :=
  Decoder.Same.run (d := d) (d' := ⟨d.lv, Shift8.zero, 0⟩) ⟨rfl, h, by rw [h]; rfl⟩ es

end Sys2Proof.Machine
end

