-- ==== Sys2Proof/Laws/Receiver.lean ====
section
/-! SUPPORT. The laws of the receiver: an undefined receiver stays as it is, one that becomes undefined keeps
nothing, the serial register takes no part in a reaction, and every event keeps the invariant. -/

namespace Sys2Proof.Machine

open Sys2Proof

/-! ### Undefined is sticky (46_receiver.md R242) -/

@[simp] theorem Rx.undefined_undef (r : UndefReason) : (Rx.undefined r).undef = some r := rfl

theorem Rx.receive_of_undef {rx : Rx} (c : Config) (e : FrameEvent) (h : rx.undef.isSome = true) :
    rx.receive c e = rx := by
  simp [Rx.receive, h]

theorem Rx.receive_cmd_eq (c : Config) (rx : Rx) (b : Byte) :
    rx.receive c (.cmd b) = rx.command c (c.opcodes.command b) := by
  unfold Rx.receive
  split
  · rename_i h; simp [Rx.command, Rx.guarded, h]
  · rfl

theorem Rx.receive_dat_eq (c : Config) (rx : Rx) (d : Byte) : rx.receive c (.dat d) = rx.data c d := by
  unfold Rx.receive
  split
  · rename_i h; simp [Rx.data, Rx.guarded, h]
  · rfl

@[simp] theorem Rx.receiveAll_nil (c : Config) (rx : Rx) : rx.receiveAll c [] = rx := rfl

@[simp] theorem Rx.receiveAll_cons (c : Config) (rx : Rx) (e : FrameEvent) (es : List FrameEvent) :
    rx.receiveAll c (e :: es) = (rx.receive c e).receiveAll c es := rfl

theorem Rx.receiveAll_append (c : Config) (rx : Rx) (es fs : List FrameEvent) :
    rx.receiveAll c (es ++ fs) = (rx.receiveAll c es).receiveAll c fs := List.foldl_append

theorem Rx.receiveAll_of_undef {rx : Rx} (c : Config) (es : List FrameEvent)
    (h : rx.undef.isSome = true) : rx.receiveAll c es = rx := by
  induction es with
  | nil => rfl
  | cons e es ih => rw [Rx.receiveAll_cons, Rx.receive_of_undef c e h, ih]

/-! ### A reaction: defined, or nothing kept -/

/-- The receiver with other contents of the serial register. -/
def Rx.withSerial (rx : Rx) (sh : Shift8) (nb : Option (Fin 8)) : Rx := { rx with shift := sh, nbits := nb }

/-- What a reaction may be: it makes the receiver undefined, or resets it and clears the serial register, or leaves
it defined and sets the bit count to 0, or leaves it defined and the serial register as it was; and which of these
does not depend on that register. -/
inductive Rx.Reaction (f : Rx → Rx) (rx : Rx) : Prop
  | lost (r : UndefReason) (h : ∀ sh nb, f (rx.withSerial sh nb) = .undefined r)
  | cleared (hu : (f rx).undef = none) (hn : (f rx).nbits = none) (h : ∀ sh nb, f (rx.withSerial sh nb) = f rx)
  | risen (hu : (f rx).undef = none) (h : ∀ sh nb, f (rx.withSerial sh nb) = (f rx).withSerial sh (some 0))
  | kept (hu : (f rx).undef = none) (h : ∀ sh nb, f (rx.withSerial sh nb) = (f rx).withSerial sh nb)

theorem Rx.receive_reaction (c : Config) (e : FrameEvent) {rx : Rx} (h : rx.undef = none) :
    Rx.Reaction (fun rx => rx.receive c e) rx := by
  rcases rx with ⟨sh, nb, mode, pbuf, xs, xe, ys, ye, colmod, sleep, disp, pc, pr, hi, fb, rst, settle, undef⟩
  simp only at h
  subst h
  cases e with
  | csFall => exact .kept rfl fun _ _ => rfl
  | csRise => exact .risen rfl fun _ _ => rfl
  | rstLow => exact .kept rfl fun _ _ => rfl
  | rstHigh =>
    rcases rst with _ | _ | (_ | _)
    · exact .kept rfl fun _ _ => rfl
    · exact .kept rfl fun _ _ => rfl
    · exact .lost .shortReset fun _ _ => rfl
    · exact .cleared rfl rfl fun _ _ => rfl
  | wait t => exact .kept rfl fun _ _ => rfl
  | partialByte => exact .lost .partialByte fun _ _ => rfl
  | unknownByte => exact .lost .unknownLevel fun _ _ => rfl
  | cmd b =>
    rw [show (fun rx : Rx => rx.receive c (.cmd b)) = Rx.command c (c.opcodes.command b) from funext fun rx => Rx.receive_cmd_eq c rx _]
    generalize c.opcodes.command b = cmd
    rcases rst with _ | _ | ok
    case low => exact .lost .byteInReset fun _ _ => rfl
    all_goals
      rcases mode with _ | _ | p | _
      · by_cases hc : cmd = .swreset
        · subst hc; exact .cleared rfl rfl fun _ _ => rfl
        · exact .lost .notReset (fun _ _ => by simp [Rx.withSerial, Rx.command, Rx.guarded, hc])
      all_goals
        by_cases hs : settle = .clear
        case neg => exact .lost .settle (fun _ _ => by simp [Rx.withSerial, Rx.command, Rx.guarded, hs])
        subst hs
        first
        | exact .lost .partialParams fun _ _ => rfl
        | by_cases hh : hi = .empty
          case neg =>
            exact .lost .halfPixel (fun _ _ => by simp [Rx.withSerial, Rx.command, Rx.guarded, Rx.commandReady, hh])
          subst hh
          cases cmd with
          | swreset => exact .cleared rfl rfl fun _ _ => rfl
          | slpout => exact .kept rfl fun _ _ => rfl
          | colmod => exact .kept rfl fun _ _ => rfl
          | dispon => exact .kept rfl fun _ _ => rfl
          | caset => exact .kept rfl fun _ _ => rfl
          | raset => exact .kept rfl fun _ _ => rfl
          | unsupported b => exact .lost .unsupportedCmd fun _ _ => rfl
          | ramwr =>
            rcases xs with _ | xs
            · exact .lost .noWindow fun _ _ => rfl
            rcases xe with _ | xe
            · exact .lost .noWindow fun _ _ => rfl
            rcases ys with _ | ys
            · exact .lost .noWindow fun _ _ => rfl
            rcases ye with _ | ye
            · exact .lost .noWindow fun _ _ => rfl
            by_cases hb : badWindow c xs xe ys ye = true
            · exact .lost .badWindow (fun _ _ => by
                simp [Rx.withSerial, Rx.command, Rx.guarded, Rx.commandReady, Rx.dispatch, Rx.memoryWrite, hb])
            · by_cases hf : colmod = some c.colmod16bpp
              · refine .kept ?_ fun _ _ => ?_ <;>
                  simp [Rx.withSerial, Rx.command, Rx.guarded, Rx.commandReady, Rx.dispatch, Rx.memoryWrite, hb, hf]
              · exact .lost .pixelFormat (fun _ _ => by
                  simp [Rx.withSerial, Rx.command, Rx.guarded, Rx.commandReady, Rx.dispatch, Rx.memoryWrite, hb, hf])
  | dat d =>
    rw [show (fun rx : Rx => rx.receive c (.dat d)) = Rx.data c d from funext fun rx => Rx.receive_dat_eq c rx _]
    rcases rst with _ | _ | ok
    case low => exact .lost .byteInReset fun _ _ => rfl
    all_goals
      rcases mode with _ | _ | (k | k | _) | _
      · exact .lost .notReset fun _ _ => rfl
      all_goals
        by_cases hs : settle = .clear
        case neg => exact .lost .settle (fun _ _ => by simp [Rx.withSerial, Rx.data, Rx.guarded, hs])
        subst hs
      · exact .lost .strayData fun _ _ => rfl
      · by_cases hk : k = 3 <;> refine .kept ?_ fun _ _ => ?_ <;>
          simp [Rx.withSerial, Rx.data, Rx.guarded, Rx.dataReady, Rx.casetByte, hk]
      · by_cases hk : k = 3 <;> refine .kept ?_ fun _ _ => ?_ <;>
          simp [Rx.withSerial, Rx.data, Rx.guarded, Rx.dataReady, Rx.rasetByte, hk]
      · exact .kept rfl fun _ _ => rfl
      · rcases hi with _ | _ | h
        · exact .lost .unknownLevel fun _ _ => rfl
        · exact .kept rfl fun _ _ => rfl
        · rcases pc with _ | pc
          · exact .lost .noWindow fun _ _ => rfl
          rcases pr with _ | pr
          · exact .lost .noWindow fun _ _ => rfl
          by_cases ha : pc.toNat < c.ramCols ∧ pr.toNat < c.ramRows
          case neg =>
            exact .lost .badWindow (fun _ _ => by
              simp only [Rx.withSerial, Rx.data, Rx.guarded, Rx.dataReady, Rx.pixelByte, Rx.pixel, if_neg ha]; rfl)
          refine .kept ?_ fun _ _ => ?_ <;>
            simp only [Rx.withSerial, Rx.data, Rx.guarded, Rx.dataReady, Rx.pixelByte, Rx.pixel, if_pos ha,
              Option.isSome_none, Bool.false_eq_true, if_false, if_true, Rx.advance] <;>
            rcases xs with _ | xs <;> rcases xe with _ | xe <;> rcases ys with _ | ys <;>
            rcases ye with _ | ye <;> (try rfl) <;> (by_cases hp : pc < xe <;> simp [hp])

/-! ### What follows of every reaction -/

/-- A receiver that becomes undefined keeps nothing but the reason (R242). -/
theorem Rx.receive_undef_blank (c : Config) (e : FrameEvent) {rx : Rx} {r : UndefReason}
    (h : rx.undef = none) (hr : (rx.receive c e).undef = some r) : rx.receive c e = .undefined r := by
  rcases Rx.receive_reaction c e h with ⟨r', h'⟩ | ⟨h', -⟩ | ⟨h', -⟩ | ⟨h', -⟩
  · have h0 : rx.receive c e = _ := h' rx.shift rx.nbits
    rw [h0] at hr ⊢
    cases hr; rfl
  all_goals rw [h'] at hr; cases hr

/-- Reactions do not look at the serial register: two receivers that differ in it alone react alike. -/
theorem Rx.receive_congr (c : Config) (e : FrameEvent) {rx rx' : Rx} (h : rx.sansSerial = rx'.sansSerial) :
    (rx.receive c e).sansSerial = (rx'.receive c e).sansSerial := by
  have key : ∀ r : Rx, (r.sansSerial.receive c e).sansSerial = (r.receive c e).sansSerial := by
    intro r
    cases hu : r.undef with
    | some u =>
      have hs : r.undef.isSome = true := by simp [hu]
      rw [Rx.receive_of_undef c e hs, Rx.receive_of_undef (rx := r.sansSerial) c e hs]; rfl
    | none =>
      rcases Rx.receive_reaction c e hu with ⟨u, h'⟩ | ⟨-, -, h'⟩ | ⟨-, h'⟩ | ⟨-, h'⟩
      · exact congrArg Rx.sansSerial ((h' .unknown none).trans (h' r.shift r.nbits).symm)
      · exact congrArg Rx.sansSerial ((h' .unknown none).trans (h' r.shift r.nbits).symm)
      all_goals
        have h0 := congrArg Rx.sansSerial (h' .unknown none)
        exact h0
  rw [← key rx, h, key rx']

theorem Rx.receiveAll_congr (c : Config) (es : List FrameEvent) {rx rx' : Rx}
    (h : rx.sansSerial = rx'.sansSerial) :
    (rx.receiveAll c es).sansSerial = (rx'.receiveAll c es).sansSerial := by
  induction es generalizing rx rx' with
  | nil => exact h
  | cons e es ih => exact ih (Rx.receive_congr c e h)

/-- A frame event leaves no bit of a byte pending where none was. -/
theorem Rx.receive_aligned (c : Config) {rx : Rx} (e : FrameEvent) (h : rx.nbits.getD 0 = 0) :
    (rx.receive c e).nbits.getD 0 = 0 := by
  cases hu : rx.undef with
  | some r => rw [Rx.receive_of_undef c e (by simp [hu])]; exact h
  | none =>
    rcases Rx.receive_reaction c e hu with ⟨r, h'⟩ | ⟨-, hn, h'⟩ | ⟨-, h'⟩ | ⟨-, h'⟩
    · have h0 : rx.receive c e = _ := h' rx.shift rx.nbits
      rw [h0]; rfl
    · rw [hn]; rfl
    · have h0 : rx.receive c e = _ := h' rx.shift rx.nbits
      rw [h0]; rfl
    · have h0 : rx.receive c e = _ := h' rx.shift rx.nbits
      rw [h0]; exact h

theorem Rx.receiveAll_undef_blank (c : Config) (es : List FrameEvent) {rx : Rx} {r : UndefReason}
    (h : rx.undef = none) (hr : (rx.receiveAll c es).undef = some r) :
    rx.receiveAll c es = .undefined r := by
  induction es generalizing rx with
  | nil => rw [Rx.receiveAll_nil, h] at hr; cases hr
  | cons e es ih =>
    rw [Rx.receiveAll_cons] at hr ⊢
    cases h' : (rx.receive c e).undef with
    | none => exact ih h' hr
    | some r' =>
      rw [Rx.receiveAll_of_undef c es (by simp [h'])] at hr ⊢
      exact Rx.receive_undef_blank c e h hr

@[simp] theorem Rx.withSerial_undef (rx : Rx) (sh : Shift8) (nb : Option (Fin 8)) :
    (rx.withSerial sh nb).undef = rx.undef := rfl

@[simp] theorem Rx.withSerial_withSerial (rx : Rx) (sh sh' : Shift8) (nb nb' : Option (Fin 8)) :
    (rx.withSerial sh nb).withSerial sh' nb' = rx.withSerial sh' nb' := rfl

/-- The serial register replaced, unless the receiver is undefined. -/
def Rx.keepSerial (rx : Rx) (sh : Shift8) (nb : Option (Fin 8)) : Rx :=
  if rx.undef.isSome then rx else rx.withSerial sh nb

theorem Rx.sansSerial_withSerial (rx : Rx) (sh : Shift8) (nb : Option (Fin 8)) :
    (rx.withSerial sh nb).sansSerial = rx.sansSerial := rfl

/-- The serial register that events find takes no part in what they leave, once it is replaced. -/
theorem Rx.receiveAll_withSerial (c : Config) (es : List FrameEvent) {rx : Rx} (sh sh' : Shift8)
    (nb nb' : Option (Fin 8)) (h : rx.undef = none) :
    ((rx.withSerial sh nb).receiveAll c es).keepSerial sh' nb' = (rx.receiveAll c es).keepSerial sh' nb' := by
  have key := Rx.receiveAll_congr c es (Rx.sansSerial_withSerial rx sh nb)
  cases hr : (rx.receiveAll c es).undef with
  | none =>
    have hr' : ((rx.withSerial sh nb).receiveAll c es).undef = none := (congrArg Rx.undef key).trans hr
    simp only [Rx.keepSerial, hr, hr']
    have h0 := congrArg (fun r : Rx => r.withSerial sh' nb') key
    exact h0
  | some u =>
    have hr' : ((rx.withSerial sh nb).receiveAll c es).undef = some u := (congrArg Rx.undef key).trans hr
    rw [Rx.receiveAll_undef_blank c es h hr, Rx.receiveAll_undef_blank c es (rx := rx.withSerial sh nb) h hr']

/-- Hearing a run of bus events is receiving its frames; the serial register follows the projection
(R240, R241). -/
theorem Rx.hear_eq (c : Config) (lv : Lines) (e : BusEvent) (rx : Rx) :
    rx.hear c lv e = (rx.receiveAll c ((rx.decoder lv).out e)).keepSerial ((rx.decoder lv).next e).sh
      (some ((rx.decoder lv).next e).nb) := rfl

@[simp] theorem Rx.sansSerial_undef (rx : Rx) : rx.sansSerial.undef = rx.undef := rfl

@[simp] theorem Rx.sansSerial_undefined (r : UndefReason) : (Rx.undefined r).sansSerial = .undefined r := rfl

/-! ### Every event keeps the invariant -/

theorem Rx.inv_undefined (c : Config) (r : UndefReason) : (Rx.undefined r).Inv c where
  memory := ⟨rfl, rfl⟩
  undefined := fun r' h => by cases h; rfl
  pixels := fun h => by cases h
  half := ⟨fun b h => (by cases h), fun h => (h rfl).elim⟩
  settled := fun h => (h rfl).elim

theorem Rx.Inv.withSerial {c : Config} {rx : Rx} (h : rx.Inv c) (hu : rx.undef = none) (sh : Shift8)
    (nb : Option (Fin 8)) : (rx.withSerial sh nb).Inv c where
  memory := h.memory
  undefined := fun r hr => by rw [Rx.withSerial_undef, hu] at hr; cases hr
  pixels := h.pixels
  half := h.half
  settled := h.settled

theorem Rx.Inv.keepSerial {c : Config} {rx : Rx} (h : rx.Inv c) (sh : Shift8) (nb : Option (Fin 8)) :
    (rx.keepSerial sh nb).Inv c := by
  unfold Rx.keepSerial
  split
  · exact h
  · rename_i hu; exact h.withSerial (by simpa using hu) sh nb

/-- The invariant of a defined receiver whose mode is not `Pixels` and which holds no half pixel. -/
theorem Rx.inv_of_fields {c : Config} {rx : Rx} (hm : Memory.wf rx.fb = true ∧ Memory.inArea c rx.fb = true)
    (hu : rx.undef = none) (hp : rx.mode ≠ .pixels) (hh : ∀ b, rx.hi ≠ .byte b)
    (hk : rx.mode ≠ .unknown → rx.hi ≠ .unknown) (hs : rx.mode ≠ .unknown → rx.settle ≠ .unknown) :
    rx.Inv c where
  memory := hm
  undefined := fun r hr => by rw [hu] at hr; cases hr
  pixels := fun h => (hp h).elim
  half := ⟨fun b h => (hh b h).elim, hk⟩
  settled := hs

theorem Rx.Inv.reset {c : Config} {rx : Rx} (h : rx.undef = none) (rst : RstView) :
    ({ rx.reset c with rst := rst } : Rx).Inv c :=
  Rx.inv_of_fields ⟨rfl, rfl⟩ h (by simp [Rx.reset]) (by simp [Rx.reset]) (by simp [Rx.reset])
    (by simp [Rx.reset])

theorem Rx.Inv.memoryWrite {c : Config} {rx : Rx} (h : rx.Inv c) (hu : rx.undef = none)
    (hs : rx.settle = .clear) : (rx.memoryWrite c).Inv c := by
  unfold Rx.memoryWrite
  split
  · split
    · exact Rx.inv_undefined c _
    · split
      · rename_i xs xe ys ye h1 h2 h3 h4 hb hf
        have hb' : badWindow c xs xe ys ye = false := by simpa using hb
        have hle : xs ≤ xe ∧ ys ≤ ye := by
          simp only [badWindow, Bool.or_eq_false_iff, decide_eq_false_iff_not, BitVec.not_lt] at hb'
          exact ⟨hb'.1.1.1, hb'.1.1.2⟩
        exact {
          memory := h.memory
          undefined := fun r hr => by simp only at hr; rw [hu] at hr; cases hr
          pixels := fun _ => ⟨xs, xe, ys, ye, xs, ys, h1, h2, h3, h4, rfl, rfl, hb', BitVec.le_refl _, hle.1,
            BitVec.le_refl _, hle.2, hf⟩
          half := ⟨(by simp), (by simp)⟩
          settled := (by simp [hs]) }
      · exact Rx.inv_undefined c _
  · exact Rx.inv_undefined c _

theorem Rx.Inv.commandReady {c : Config} {rx : Rx} (h : rx.Inv c) (cmd : Command) (hu : rx.undef = none)
    (hs : rx.settle = .clear) : (rx.commandReady c cmd).Inv c := by
  unfold Rx.commandReady
  split
  · exact Rx.inv_undefined c _
  all_goals
    split
    case isFalse => exact Rx.inv_undefined c _
    rename_i hh
    cases cmd with
    | swreset => exact Rx.Inv.reset hu rx.rst
    | ramwr => exact h.memoryWrite hu hs
    | unsupported b => exact Rx.inv_undefined c _
    | slpout | colmod | dispon | caset | raset =>
      refine Rx.inv_of_fields h.memory hu ?_ ?_ ?_ ?_ <;>
        simp [Rx.dispatch, Rx.sleepOut, Rx.colmodCmd, Rx.displayOn, Rx.casetCmd, Rx.rasetCmd, hh, hs]

theorem Rx.Inv.guarded {c : Config} {rx unreset ready : Rx} (h : rx.Inv c)
    (h1 : rx.undef = none → unreset.Inv c)
    (h2 : rx.undef = none → rx.mode ≠ .unknown → rx.settle = .clear → ready.Inv c) :
    (rx.guarded unreset ready).Inv c := by
  unfold Rx.guarded
  split
  · exact h
  · rename_i hu
    have hu : rx.undef = none := by simpa using hu
    split
    · exact Rx.inv_undefined c _
    all_goals
      split
      · exact h1 hu
      all_goals
        rename_i hm
        split
        · rename_i hs; exact h2 hu (by simp [hm]) hs
        · exact Rx.inv_undefined c _

theorem Rx.Inv.command {c : Config} {rx : Rx} (h : rx.Inv c) (cmd : Command) : (rx.command c cmd).Inv c := by
  refine h.guarded (fun hu => ?_) (fun hu _ hs => h.commandReady cmd hu hs)
  split
  · exact Rx.Inv.reset hu rx.rst
  · exact Rx.inv_undefined c _

/-- `advance()` keeps the pointer in the window (R255). -/
theorem Rx.Inv.pixel {c : Config} {rx : Rx} (h : rx.Inv c) (v : Colour) (hu : rx.undef = none)
    (hm : rx.mode = .pixels) (hs : rx.settle ≠ .unknown) : (rx.pixel c v).Inv c := by
  obtain ⟨xs, xe, ys, ye, pc, pr, h1, h2, h3, h4, h5, h6, hb, hx1, hx2, hy1, hy2, hf⟩ := h.pixels hm
  unfold Rx.pixel
  simp only [h5, h6]
  split
  case isFalse => exact Rx.inv_undefined c _
  rename_i ha
  have hmem : Memory.wf (Memory.write rx.fb pr.toNat pc.toNat v) = true ∧
      Memory.inArea c (Memory.write rx.fb pr.toNat pc.toNat v) = true :=
    ⟨Memory.write_wf _ _ _ h.memory.1,
      Memory.write_inArea v h.memory.2 ha.2 ha.1 (by have := pc.isLt; omega)⟩
  have hle : xs ≤ xe ∧ ys ≤ ye := by
    simp only [badWindow, Bool.or_eq_false_iff, decide_eq_false_iff_not, BitVec.not_lt] at hb
    exact ⟨hb.1.1.1, hb.1.1.2⟩
  unfold Rx.advance
  simp only [h1, h2, h3, h4]
  split
  · rename_i hlt
    exact {
      memory := hmem
      undefined := fun r hr => by simp only at hr; rw [hu] at hr; cases hr
      pixels := fun _ => ⟨xs, xe, ys, ye, pc + 1, pr, rfl, rfl, rfl, rfl, rfl, rfl, hb, by bv_omega, by bv_omega,
        hy1, hy2, hf⟩
      half := ⟨(by simp), (by simp)⟩
      settled := fun _ => hs }
  · refine {
      memory := hmem
      undefined := fun r hr => by simp only at hr; rw [hu] at hr; cases hr
      pixels := fun _ => ⟨xs, xe, ys, ye, xs, _, rfl, rfl, rfl, rfl, rfl, rfl, hb, BitVec.le_refl _, hle.1, ?_, ?_,
        hf⟩
      half := ⟨(by simp), (by simp)⟩
      settled := fun _ => hs } <;>
    split <;> bv_omega

theorem Rx.Inv.dataReady {c : Config} {rx : Rx} (h : rx.Inv c) (d : Byte) (hu : rx.undef = none)
    (hs : rx.settle = .clear) : (rx.dataReady c d).Inv c := by
  have hne : rx.mode ≠ .pixels → ∀ b, rx.hi ≠ .byte b := fun hp b hb => hp (h.half.1 b hb)
  unfold Rx.dataReady
  split
  · exact Rx.inv_undefined c _
  · exact Rx.inv_undefined c _
  · rename_i k hm
    have hk := h.half.2 (by simp [hm])
    unfold Rx.casetByte
    simp only
    split <;> exact Rx.inv_of_fields h.memory hu (by simp) (hne (by simp [hm])) (fun _ => hk)
      (fun _ => by simp [hs])
  · rename_i k hm
    have hk := h.half.2 (by simp [hm])
    unfold Rx.rasetByte
    simp only
    split <;> exact Rx.inv_of_fields h.memory hu (by simp) (hne (by simp [hm])) (fun _ => hk)
      (fun _ => by simp [hs])
  · rename_i hm
    have hk := h.half.2 (by simp [hm])
    exact Rx.inv_of_fields h.memory hu (by simp [Rx.colmodByte]) (hne (by simp [hm])) (fun _ => hk)
      (fun _ => by simp [Rx.colmodByte, hs])
  · rename_i hm
    unfold Rx.pixelByte
    split
    · exact {
        memory := h.memory
        undefined := fun r hr => by simp only at hr; rw [hu] at hr; cases hr
        pixels := h.pixels
        half := ⟨fun _ _ => hm, fun _ => by simp⟩
        settled := h.settled }
    · exact h.pixel _ hu hm (by simp [hs])
    · exact Rx.inv_undefined c _

theorem Rx.Inv.data {c : Config} {rx : Rx} (h : rx.Inv c) (d : Byte) : (rx.data c d).Inv c :=
  h.guarded (fun _ => Rx.inv_undefined c _) (fun hu _ hs => h.dataReady d hu hs)

/-- Every frame event keeps the receiver's invariant. -/
theorem Rx.Inv.receive {c : Config} {rx : Rx} (h : rx.Inv c) (e : FrameEvent) : (rx.receive c e).Inv c := by
  unfold Rx.receive
  split
  · exact h
  rename_i hu
  have hu : rx.undef = none := by simpa using hu
  have same : ∀ r : RstView, ({ rx with rst := r } : Rx).Inv c := fun r =>
    { memory := h.memory
      undefined := fun r hr => by simp only at hr; rw [hu] at hr; cases hr
      pixels := h.pixels
      half := h.half
      settled := h.settled }
  cases e with
  | csFall => exact h
  | csRise => exact h.withSerial hu rx.shift (some 0)
  | rstLow => exact same _
  | rstHigh =>
    simp only [Rx.resetRise]
    split
    · exact Rx.inv_undefined c _
    · exact Rx.Inv.reset hu .high
    · exact same _
    · exact same _
  | cmd b => exact h.command _
  | dat d => exact h.data d
  | wait t =>
    exact {
      memory := h.memory
      undefined := fun r hr => by simp only [Rx.wait] at hr; rw [hu] at hr; cases hr
      pixels := h.pixels
      half := h.half
      settled := fun hm => by
        have := h.settled hm
        simp only [Rx.wait]
        split
        · split <;> simp
        · exact absurd ‹_› this
        · simp }
  | partialByte | unknownByte => exact Rx.inv_undefined c _

theorem Rx.Inv.receiveAll {c : Config} {rx : Rx} (h : rx.Inv c) (es : List FrameEvent) :
    (rx.receiveAll c es).Inv c := by
  induction es generalizing rx with
  | nil => exact h
  | cons e es ih => exact ih (h.receive e)

theorem Rx.Inv.hear {c : Config} {rx : Rx} (h : rx.Inv c) (lv : Lines) (e : BusEvent) :
    (rx.hear c lv e).Inv c := by
  rw [Rx.hear_eq]; exact (h.receiveAll _).keepSerial _ _

end Sys2Proof.Machine
end

