-- ==== Sys2Proof/Laws/Protocol.lean ====
section
/-! SUPPORT. What the block's frames do to the receiver, whatever optional bit waits stand between them
(40_transport.md R106): window programming, pixel streams and the bring-up. -/

namespace Sys2Proof.Machine

open Sys2Proof

/-! ### Frames with bit waits between them -/

/-- A property of receivers that an optional bit wait keeps. -/
def Rx.WaitStable (c : Config) (P : Rx → Prop) : Prop := ∀ rx, P rx → P (rx.receive c (.wait .bit))

/-- Every projection whose frames are `fs`, bit waits aside, leads from `P` to `Q`, the serial register aside. -/
def Leads (c : Config) (P : Rx → Prop) (fs : List FrameEvent) (Q : Rx → Prop) : Prop :=
  ∀ es, dropBitWaits es = fs → ∀ rx, P rx → ∃ r, Q r ∧ (rx.receiveAll c es).sansSerial = r.sansSerial

/-- From a receiver that differs in the serial register alone. -/
theorem Leads.modSerial {c : Config} {P Q : Rx → Prop} {fs es : List FrameEvent} (h : Leads c P fs Q)
    (he : dropBitWaits es = fs) {rx rx' : Rx} (hr : P rx) (hs : rx'.sansSerial = rx.sansSerial) :
    ∃ r, Q r ∧ (rx'.receiveAll c es).sansSerial = r.sansSerial := by
  obtain ⟨r, hq, hx⟩ := h es he rx hr
  exact ⟨r, hq, (Rx.receiveAll_congr c es hs).trans hx⟩

theorem Leads.nil {c : Config} {P : Rx → Prop} (h : Rx.WaitStable c P) : Leads c P [] P := by
  intro es
  induction es with
  | nil => exact fun _ rx hr => ⟨rx, hr, rfl⟩
  | cons e es ih =>
    intro he rx hr
    by_cases hb : e = .wait .bit
    · subst hb
      rw [Rx.receiveAll_cons]
      exact ih (by simpa [dropBitWaits] using he) _ (h rx hr)
    · rw [dropBitWaits, List.filter_cons_of_pos (by simp [hb])] at he
      cases he

/-- One event more, its effect given but for the serial register. -/
theorem Leads.consSerial {c : Config} {P Q R : Rx → Prop} {f : FrameEvent} {fs : List FrameEvent}
    (h : Rx.WaitStable c P) (hf : ∀ rx, P rx → ∃ r, Q r ∧ (rx.receive c f).sansSerial = r.sansSerial)
    (g : Leads c Q fs R) : Leads c P (f :: fs) R := by
  intro es
  induction es with
  | nil => intro he; cases he
  | cons e es ih =>
    intro he rx hr
    rw [Rx.receiveAll_cons]
    by_cases hb : e = .wait .bit
    · subst hb
      exact ih (by simpa [dropBitWaits] using he) _ (h rx hr)
    · rw [dropBitWaits, List.filter_cons_of_pos (by simp [hb])] at he
      injection he with he1 he2
      subst he1
      obtain ⟨r, hq, hs⟩ := hf rx hr
      exact g.modSerial he2 hq hs

theorem Leads.cons {c : Config} {P Q R : Rx → Prop} {f : FrameEvent} {fs : List FrameEvent}
    (h : Rx.WaitStable c P) (hf : ∀ rx, P rx → Q (rx.receive c f)) (g : Leads c Q fs R) :
    Leads c P (f :: fs) R := .consSerial h (fun rx hr => ⟨_, hf rx hr, rfl⟩) g

theorem Leads.append {c : Config} {P Q R : Rx → Prop} {fs gs : List FrameEvent} (h : Leads c P fs Q)
    (g : Leads c Q gs R) : Leads c P (fs ++ gs) R := by
  intro es he rx hr
  obtain ⟨a, b, rfl, h1, h2⟩ := List.filter_eq_append_iff.1 he
  rw [Rx.receiveAll_append]
  obtain ⟨r, hq, hs⟩ := h a h1 rx hr
  exact g.modSerial h2 hq hs

theorem Leads.mono {c : Config} {P P' Q Q' : Rx → Prop} {fs : List FrameEvent} (h : Leads c P fs Q)
    (hp : ∀ rx, P' rx → P rx) (hq : ∀ rx, Q rx → Q' rx) : Leads c P' fs Q' :=
  fun es he rx hr => (h es he rx (hp rx hr)).imp fun r hr => ⟨hq r hr.1, hr.2⟩

/-! ### Opcodes -/

theorem opcodes_nodup (c : Config) : c.opcodes.all.Nodup := by
  have h := c.lawful
  unfold Params.laws at h
  simp only [Bool.and_eq_true, decide_eq_true_eq] at h
  exact h.1.2

theorem opcodes_command (o : Opcodes) (h : o.all.Nodup) :
    o.command o.swreset = .swreset ∧ o.command o.slpout = .slpout ∧ o.command o.colmod = .colmod ∧
      o.command o.dispon = .dispon ∧ o.command o.caset = .caset ∧ o.command o.raset = .raset ∧
      o.command o.ramwr = .ramwr := by
  simp only [Opcodes.all, List.nodup_cons, List.mem_cons, not_or, List.not_mem_nil, not_false_eq_true,
    List.nodup_nil, and_true] at h
  obtain ⟨⟨h12, h13, h14, h15, h16, h17⟩, ⟨h23, h24, h25, h26, h27⟩, ⟨h34, h35, h36, h37⟩, ⟨h45, h46, h47⟩,
    ⟨h56, h57⟩, h67⟩ := h
  unfold Opcodes.command
  simp [Ne.symm h12, Ne.symm h13, Ne.symm h14, Ne.symm h15, Ne.symm h16, Ne.symm h17, Ne.symm h23, Ne.symm h24,
    Ne.symm h25, Ne.symm h26, Ne.symm h27, Ne.symm h34, Ne.symm h35, Ne.symm h36, Ne.symm h37, Ne.symm h45,
    Ne.symm h46, Ne.symm h47, Ne.symm h56, Ne.symm h57, Ne.symm h67]

/-! ### Single events -/

theorem Rx.receive_csFall (c : Config) (rx : Rx) : rx.receive c .csFall = rx := by
  unfold Rx.receive; split <;> rfl

/-- A rise of `CS` between bytes changes nothing but the bit count (R257). -/
theorem Rx.receive_csRise (c : Config) (rx : Rx) : (rx.receive c .csRise).sansSerial = rx.sansSerial := by
  unfold Rx.receive; split <;> rfl

theorem Leads.fall {c : Config} {P Q : Rx → Prop} {fs : List FrameEvent} (h : Rx.WaitStable c P)
    (g : Leads c P fs Q) : Leads c P (.csFall :: fs) Q :=
  .cons h (fun rx hr => by rw [Rx.receive_csFall]; exact hr) g

theorem Leads.rise {c : Config} {P Q : Rx → Prop} {fs : List FrameEvent} (h : Rx.WaitStable c P)
    (g : Leads c P fs Q) : Leads c P (.csRise :: fs) Q :=
  .consSerial h (fun rx hr => ⟨rx, hr, Rx.receive_csRise c rx⟩) g

/-- A receiver that takes bytes ignores waits. -/
theorem Rx.Awake.wait {rx : Rx} (h : rx.Awake) (c : Config) (t : DelayName) :
    rx.receive c (.wait t) = rx := by
  rcases rx with ⟨sh, nb, mode, pbuf, xs, xe, ys, ye, colmod, sleep, disp, pc, pr, hi, fb, rst, settle, undef⟩
  obtain ⟨h1, h2, h3⟩ := h
  simp only at h1 h2 h3
  subst h1; subst h3
  rcases rst with _ | _ | ok
  · rfl
  · rfl
  · exact (h2 ok rfl).elim

theorem Rx.receive_cmd (c : Config) {rx : Rx} (h : rx.Awake) (hm : rx.mode ≠ .unknown) (b : Byte) :
    rx.receive c (.cmd b) = rx.commandReady c (c.opcodes.command b) := by
  obtain ⟨h1, h2, h3⟩ := h
  simp only [Rx.receive, h1, Option.isSome_none, Bool.false_eq_true, if_false, Rx.command, Rx.guarded, h3, if_true]
  cases hr : rx.rst with
  | low ok => exact (h2 ok hr).elim
  | unknown | high =>
    cases hm' : rx.mode with
    | unknown => exact (hm hm').elim
    | idle | param | pixels => rfl

theorem Rx.receive_dat (c : Config) {rx : Rx} (h : rx.Awake) (hm : rx.mode ≠ .unknown) (d : Byte) :
    rx.receive c (.dat d) = rx.dataReady c d := by
  obtain ⟨h1, h2, h3⟩ := h
  simp only [Rx.receive, h1, Option.isSome_none, Bool.false_eq_true, if_false, Rx.data, Rx.guarded, h3, if_true]
  cases hr : rx.rst with
  | low ok => exact (h2 ok hr).elim
  | unknown | high =>
    cases hm' : rx.mode with
    | unknown => exact (hm hm').elim
    | idle | param | pixels => rfl

theorem Rx.commandReady_listening (c : Config) {rx : Rx} (h : rx.Listening) (cmd : Command) :
    rx.commandReady c cmd = rx.dispatch c cmd := by
  obtain ⟨-, h2, h3⟩ := h
  unfold Rx.commandReady
  rw [h3]
  rcases h2 with h2 | h2 <;> rw [h2] <;> simp

/-! ### Exact steps: the receiver is `a` -/

theorem Rx.Awake.stable {a : Rx} (h : a.Awake) (c : Config) : Rx.WaitStable c (· = a) := by
  rintro _ rfl
  exact h.wait c .bit

theorem Leads.here {c : Config} {a : Rx} (h : a.Awake) : Leads c (· = a) [] (· = a) := .nil (h.stable c)

/-- A framed command in an awake receiver. -/
theorem Leads.command {c : Config} {a b : Rx} (o : Byte) (ha : a.Awake) (hb : b.Awake)
    (h : a.receive c (.cmd o) = b) : Leads c (· = a) (commandFrame o) (· = b) :=
  .fall (ha.stable c) (.cons (ha.stable c) (by rintro _ rfl; exact h) (.rise (hb.stable c) (.here hb)))

/-- A framed data byte in an awake receiver. -/
theorem Leads.data {c : Config} {a b : Rx} (d : Byte) (ha : a.Awake) (hb : b.Awake)
    (h : a.receive c (.dat d) = b) : Leads c (· = a) (dataFrame d) (· = b) :=
  .fall (ha.stable c) (.cons (ha.stable c) (by rintro _ rfl; exact h) (.rise (hb.stable c) (.here hb)))

/-! ### Window programming (42_window.md R143) -/

theorem addrOf_zero (b : Byte) : addrOf (some 0) (some b) = some (b.setWidth 16) := by
  have h : ∀ b : Byte, addrOf (some 0) (some b) = some (b.setWidth 16) := by decide +kernel
  exact h b

/-- The column registers programmed. -/
def Rx.withColumns (rx : Rx) (a b : Byte) : Rx :=
  { rx with mode := .idle, pbuf := ⟨some 0, some a, some 0, some b⟩, xs := some (a.setWidth 16),
            xe := some (b.setWidth 16) }

/-- The row registers programmed. -/
def Rx.withRows (rx : Rx) (a b : Byte) : Rx :=
  { rx with mode := .idle, pbuf := ⟨some 0, some a, some 0, some b⟩, ys := some (a.setWidth 16),
            ye := some (b.setWidth 16) }

/-- The four parameter bytes of a column command. -/
theorem Leads.columns {c : Config} {a : Rx} (x1 x2 : Byte) (ha : a.Awake) (hm : a.mode = .param (.caset 0)) :
    Leads c (· = a) (dataFrame 0 ++ dataFrame x1 ++ dataFrame 0 ++ dataFrame x2)
      (· = a.withColumns x1 x2) := by
  have step : ∀ (k : Fin 4) (p : ParamBuf) (d : Byte),
      ({ a with mode := .param (.caset k), pbuf := p } : Rx).receive c (.dat d) =
        ({ a with mode := .param (.caset k), pbuf := p } : Rx).casetByte k d := by
    intro k p d
    rw [Rx.receive_dat c (by exact ha) (by simp)]
    rfl
  have e0 : a = ({ a with mode := .param (.caset 0), pbuf := a.pbuf } : Rx) := by rw [← hm]
  refine ((Leads.append (Q := (· = { a with
      mode := .param (.caset 1), pbuf := ⟨some 0, a.pbuf.p1, a.pbuf.p2, a.pbuf.p3⟩ })) ?_
    (Leads.data x1 (b := { a with mode := .param (.caset 2), pbuf := ⟨some 0, some x1, a.pbuf.p2, a.pbuf.p3⟩ })
      ?_ ?_ ?_)).append
    (Leads.data 0 (b := { a with mode := .param (.caset 3), pbuf := ⟨some 0, some x1, some 0, a.pbuf.p3⟩ })
      ?_ ?_ ?_)).append (Leads.data x2 ?_ ?_ ?_)
  · refine Leads.data 0 ha ha ?_
    rw [e0, step]; rfl
  · exact ha
  · exact ha
  · rw [step]; rfl
  · exact ha
  · exact ha
  · rw [step]; rfl
  · exact ha
  · exact ha
  · rw [step]
    simp only [Rx.casetByte, if_true, ParamBuf.set, addrOf_zero]
    rfl

/-- The four parameter bytes of a row command. -/
theorem Leads.rows {c : Config} {a : Rx} (y1 y2 : Byte) (ha : a.Awake) (hm : a.mode = .param (.raset 0)) :
    Leads c (· = a) (dataFrame 0 ++ dataFrame y1 ++ dataFrame 0 ++ dataFrame y2)
      (· = a.withRows y1 y2) := by
  have step : ∀ (k : Fin 4) (p : ParamBuf) (d : Byte),
      ({ a with mode := .param (.raset k), pbuf := p } : Rx).receive c (.dat d) =
        ({ a with mode := .param (.raset k), pbuf := p } : Rx).rasetByte k d := by
    intro k p d
    rw [Rx.receive_dat c (by exact ha) (by simp)]
    rfl
  have e0 : a = ({ a with mode := .param (.raset 0), pbuf := a.pbuf } : Rx) := by rw [← hm]
  refine ((Leads.append (Q := (· = { a with
      mode := .param (.raset 1), pbuf := ⟨some 0, a.pbuf.p1, a.pbuf.p2, a.pbuf.p3⟩ })) ?_
    (Leads.data y1 (b := { a with mode := .param (.raset 2), pbuf := ⟨some 0, some y1, a.pbuf.p2, a.pbuf.p3⟩ })
      ?_ ?_ ?_)).append
    (Leads.data 0 (b := { a with mode := .param (.raset 3), pbuf := ⟨some 0, some y1, some 0, a.pbuf.p3⟩ })
      ?_ ?_ ?_)).append (Leads.data y2 ?_ ?_ ?_)
  · refine Leads.data 0 ha ha ?_
    rw [e0, step]; rfl
  · exact ha
  · exact ha
  · rw [step]; rfl
  · exact ha
  · exact ha
  · rw [step]; rfl
  · exact ha
  · exact ha
  · rw [step]
    simp only [Rx.rasetByte, if_true, ParamBuf.set, addrOf_zero]
    rfl

/-- The receiver in `Pixels` mode at the top-left corner of a window. -/
def Rx.opened (rx : Rx) (x1 y1 x2 y2 : Byte) : Rx :=
  { rx with
    mode := .pixels
    pbuf := ⟨some 0, some y1, some 0, some y2⟩
    xs := some (x1.setWidth 16), xe := some (x2.setWidth 16)
    ys := some (y1.setWidth 16), ye := some (y2.setWidth 16)
    pc := some (x1.setWidth 16), pr := some (y1.setWidth 16)
    hi := .empty }

/-- What a window command leaves of a receiver that takes it (R253). -/
def Rx.windowed (c : Config) (rx : Rx) (x1 y1 x2 y2 : Byte) : Rx :=
  if badWindow c (x1.setWidth 16) (x2.setWidth 16) (y1.setWidth 16) (y2.setWidth 16) then .undefined .badWindow
  else if rx.colmod = some c.colmod16bpp then rx.opened x1 y1 x2 y2
  else .undefined .pixelFormat

theorem Rx.undefined_stable (c : Config) (r : UndefReason) : Rx.WaitStable c (· = .undefined r) := by
  rintro _ rfl; rfl

theorem Rx.windowed_stable (c : Config) {a : Rx} (ha : a.Awake) (x1 y1 x2 y2 : Byte) :
    Rx.WaitStable c (· = a.windowed c x1 y1 x2 y2) := by
  unfold Rx.windowed
  split
  · exact Rx.undefined_stable c _
  · split
    · exact Rx.Awake.stable (a := a.opened x1 y1 x2 y2) ha c
    · exact Rx.undefined_stable c _

/-- From just after the column command to the open window. -/
theorem Leads.windowRest {c : Config} {a : Rx} (x1 y1 x2 y2 : Byte) (ha : a.Listening) :
    Leads c (· = { a with mode := .param (.caset 0) })
      (([.csRise] ++ (dataFrame 0 ++ dataFrame x1 ++ dataFrame 0 ++ dataFrame x2)) ++
        commandFrame c.opcodes.raset ++ (dataFrame 0 ++ dataFrame y1 ++ dataFrame 0 ++ dataFrame y2) ++
        commandFrame c.opcodes.ramwr)
      (· = a.windowed c x1 y1 x2 y2) := by
  obtain ⟨haw, -, hhi⟩ := ha
  obtain ⟨-, -, -, -, -, hraset, hramwr⟩ := opcodes_command c.opcodes (opcodes_nodup c)
  have l1 : ({ a with mode := .param (.caset 0) } : Rx).withColumns x1 x2 |>.Listening :=
    ⟨haw, .inl rfl, hhi⟩
  refine (((Leads.append (.rise (Rx.Awake.stable (by exact haw) c) (.here (by exact haw)))
      (Leads.columns x1 x2 (a := { a with mode := .param (.caset 0) }) haw rfl)).append
    (Leads.command (b := { a.withColumns x1 x2 with mode := .param (.raset 0) }) c.opcodes.raset haw haw
      ?_)).append (Leads.rows y1 y2 (by exact haw) rfl)).append ?_
  · rw [Rx.receive_cmd c l1.1 (by simp [Rx.withColumns]), Rx.commandReady_listening c l1, hraset]
    rfl
  · have l2 : (({ a.withColumns x1 x2 with mode := .param (.raset 0) } : Rx).withRows y1 y2).Listening :=
      ⟨haw, .inl rfl, hhi⟩
    have hst := Rx.windowed_stable c haw x1 y1 x2 y2
    refine .fall (l2.1.stable c) (.cons (l2.1.stable c) ?_ (.rise hst (.nil hst)))
    rintro _ rfl
    rw [Rx.receive_cmd c l2.1 (by simp [Rx.withRows]), Rx.commandReady_listening c l2, hramwr]
    rfl

/-- The frames of `set_window` in a receiver that listens (R143, R253). -/
theorem Leads.window {c : Config} {a : Rx} (x1 y1 x2 y2 : Byte) (ha : a.Listening) :
    Leads c (· = a) (windowFrames c.opcodes x1 y1 x2 y2) (· = a.windowed c x1 y1 x2 y2) := by
  have hcaset := (opcodes_command c.opcodes (opcodes_nodup c)).2.2.2.2.1
  have hm : a.mode ≠ .unknown := by rcases ha.2.1 with h | h <;> simp [h]
  have h := Leads.fall (ha.1.stable c) (Leads.cons (f := .cmd c.opcodes.caset) (ha.1.stable c) (by
      rintro _ rfl
      rw [Rx.receive_cmd c ha.1 hm, Rx.commandReady_listening c ha, hcaset]
      rfl) (Leads.windowRest (c := c) x1 y1 x2 y2 ha))
  simpa [windowFrames, commandFrame] using h

end Sys2Proof.Machine
end

