-- ==== Sys2Proof/Laws/Strokes.lean ====
section
/-! SUPPORT. Pixel streams at the receiver: which cells a stream paints and where it leaves the write pointer
(46_receiver.md R254, R255, R262), and that a receiver stays between operations (R261). -/

namespace Sys2Proof.Machine

open Sys2Proof

/-! ### The pointer after `k` pixels -/

theorem colour_bytes (c : Colour) : colourHi c ++ colourLo c = c := by
  unfold colourHi colourLo
  apply BitVec.eq_of_getLsbD_eq
  intro i hi
  simp only [BitVec.getLsbD_append, BitVec.getLsbD_setWidth, BitVec.getLsbD_and, BitVec.getLsbD_ushiftRight]
  by_cases h : i < 8
  · have : (0xFF : Colour).getLsbD i = true := by
      have : ∀ j : Fin 8, (0xFF : Colour).getLsbD j = true := by decide
      exact this ⟨i, h⟩
    simp only [decide_eq_true h, Bool.true_and]
    rw [if_pos h]
    exact (congrArg (c.getLsbD i && ·) this).trans (Bool.and_true _)
  · have h8 : 8 + (i - 8) = i := by omega
    simp [h, h8]
    omega

theorem divMod_succ {w k : Nat} (hw : 0 < w) :
    (k % w + 1 < w ∧ (k + 1) % w = k % w + 1 ∧ (k + 1) / w = k / w) ∨
      (k % w + 1 = w ∧ (k + 1) % w = 0 ∧ (k + 1) / w = k / w + 1) := by
  have h1 := Nat.div_add_mod k w
  have h2 := Nat.mod_lt k hw
  rcases Nat.lt_or_ge (k % w + 1) w with h | h
  · left
    have e : k + 1 = (k % w + 1) + w * (k / w) := by omega
    refine ⟨h, ?_, ?_⟩
    · rw [e, Nat.add_mul_mod_self_left, Nat.mod_eq_of_lt h]
    · rw [e, Nat.add_mul_div_left _ _ hw, Nat.div_eq_of_lt h, Nat.zero_add]
  · right
    have e : k + 1 = w * (k / w + 1) := by rw [Nat.mul_add]; omega
    refine ⟨by omega, ?_, ?_⟩
    · rw [e, Nat.mul_mod_right]
    · rw [e, Nat.mul_div_cancel_left _ hw]

/-- After `k` pixels of colour `v` from the open window of `a`: the pointer stands at the `k`-th cell in
row-major order, wrapping, and the cells passed hold `v`. -/
def Rx.Stroke (a : Rx) (x1 y1 x2 y2 : Byte) (v : Colour) (k : Nat) (rx : Rx) : Prop :=
  ∃ fb pc pr, rx = { a.opened x1 y1 x2 y2 with fb := fb, pc := some pc, pr := some pr } ∧
    pc.toNat = x1.toNat + k % (x2.toNat - x1.toNat + 1) ∧
    pr.toNat = y1.toNat + k / (x2.toNat - x1.toNat + 1) % (y2.toNat - y1.toNat + 1) ∧
    ∀ r q, q < 65536 → Memory.read fb r q =
      if ∃ m, m < k ∧ r = y1.toNat + m / (x2.toNat - x1.toNat + 1) % (y2.toNat - y1.toNat + 1) ∧
          q = x1.toNat + m % (x2.toNat - x1.toNat + 1) then some v
      else Memory.read a.fb r q

theorem Rx.Stroke.zero (a : Rx) (x1 y1 x2 y2 : Byte) (v : Colour) :
    a.Stroke x1 y1 x2 y2 v 0 (a.opened x1 y1 x2 y2) := by
  refine ⟨a.fb, x1.setWidth 16, y1.setWidth 16, rfl, ?_, ?_, ?_⟩
  · simp only [BitVec.toNat_setWidth, Nat.zero_mod, Nat.add_zero]; have := x1.isLt; omega
  · simp only [BitVec.toNat_setWidth, Nat.zero_mod, Nat.zero_div, Nat.add_zero]; have := y1.isLt; omega
  · intro r q _
    rw [if_neg]
    rintro ⟨m, hm, -⟩
    omega

theorem Rx.Stroke.awake {a rx : Rx} {x1 y1 x2 y2 : Byte} {v : Colour} {k : Nat} (ha : a.Awake)
    (h : a.Stroke x1 y1 x2 y2 v k rx) : rx.Awake := by
  obtain ⟨fb, pc, pr, rfl, -⟩ := h; exact ha

/-- One pixel more. -/
theorem Rx.Stroke.pixel {c : Config} {a rx : Rx} {x1 y1 x2 y2 : Byte} {v : Colour} {k : Nat}
    (hw : WindowInArea c x1 y1 x2 y2) (h : a.Stroke x1 y1 x2 y2 v k rx) :
    a.Stroke x1 y1 x2 y2 v (k + 1) (({ rx with hi := .byte (colourHi v) } : Rx).pixel c v) := by
  obtain ⟨fb, pc, pr, rfl, hc, hr, hread⟩ := h
  obtain ⟨wx, wy, wc, wr⟩ := hw
  have wx' : x1.toNat ≤ x2.toNat := wx
  have wy' : y1.toNat ≤ y2.toNat := wy
  have bx := x2.isLt
  have by' := y2.isLt
  have hW : 0 < x2.toNat - x1.toNat + 1 := by omega
  have hH : 0 < y2.toNat - y1.toNat + 1 := by omega
  have m1 := Nat.mod_lt k hW
  have m2 := Nat.mod_lt (k / (x2.toNat - x1.toNat + 1)) hH
  have hin : pc.toNat < c.ramCols ∧ pr.toNat < c.ramRows := by omega
  unfold Rx.pixel
  simp only [hin, and_self, if_true]
  have hread' : ∀ r q, q < 65536 → Memory.read (Memory.write fb pr.toNat pc.toNat v) r q =
      if ∃ m, m < k + 1 ∧ r = y1.toNat + m / (x2.toNat - x1.toNat + 1) % (y2.toNat - y1.toNat + 1) ∧
          q = x1.toNat + m % (x2.toNat - x1.toNat + 1) then some v
      else Memory.read a.fb r q := by
    intro r q hq
    by_cases he : r = pr.toNat ∧ q = pc.toNat
    · rw [he.1, he.2, Memory.read_write_same, if_pos ⟨k, by omega, hr, hc⟩]
    · rw [Memory.read_write_other _ _ pc.isLt hq he, hread r q hq]
      congr 1
      apply propext
      constructor
      · rintro ⟨m, h1, h2⟩; exact ⟨m, by omega, h2⟩
      · rintro ⟨m, h1, h2, h3⟩
        refine ⟨m, ?_, h2, h3⟩
        rcases Nat.lt_or_ge m k with h | h
        · exact h
        · have : m = k := by omega
          subst this
          exact absurd ⟨by rw [h2, hr], by rw [h3, hc]⟩ he
  have e1 : (x1.setWidth 16 : Addr).toNat = x1.toNat := by
    rw [BitVec.toNat_setWidth]; have := x1.isLt; omega
  have e2 : (x2.setWidth 16 : Addr).toNat = x2.toNat := by rw [BitVec.toNat_setWidth]; omega
  have e3 : (y1.setWidth 16 : Addr).toNat = y1.toNat := by
    rw [BitVec.toNat_setWidth]; have := y1.isLt; omega
  have e4 : (y2.setWidth 16 : Addr).toNat = y2.toNat := by rw [BitVec.toNat_setWidth]; omega
  simp only [Rx.advance, Rx.opened]
  rcases divMod_succ (k := k) hW with ⟨d1, d2, d3⟩ | ⟨d1, d2, d3⟩
  · have hlt : pc < x2.setWidth 16 := by rw [BitVec.lt_def, e2]; omega
    rw [if_pos hlt]
    refine ⟨_, _, _, rfl, ?_, ?_, hread'⟩
    · rw [d2, BitVec.toNat_add]; simp; omega
    · rw [d3]; exact hr
  · have hge : ¬pc < x2.setWidth 16 := by rw [BitVec.lt_def, e2]; omega
    rw [if_neg hge]
    refine ⟨_, _, _, rfl, ?_, ?_, hread'⟩
    · rw [d2, e1]; rfl
    · rw [d3]
      rcases divMod_succ (k := k / (x2.toNat - x1.toNat + 1)) hH with ⟨f1, f2, f3⟩ | ⟨f1, f2, f3⟩
      · have hlt : pr < y2.setWidth 16 := by rw [BitVec.lt_def, e4]; omega
        rw [if_pos hlt, f2, BitVec.toNat_add]; simp; omega
      · have hge : ¬pr < y2.setWidth 16 := by rw [BitVec.lt_def, e4]; omega
        rw [if_neg hge, f2, e3]; rfl

theorem Rx.Stroke.stable {a : Rx} (ha : a.Awake) (c : Config) (x1 y1 x2 y2 : Byte) (v : Colour) (k : Nat) :
    Rx.WaitStable c (a.Stroke x1 y1 x2 y2 v k) := fun rx h => by
  rw [(h.awake ha).wait]; exact h

/-- The receiver with the first byte of a pixel pending. -/
def Rx.HalfStroke (a : Rx) (x1 y1 x2 y2 : Byte) (v : Colour) (k : Nat) (rx : Rx) : Prop :=
  ∃ r, a.Stroke x1 y1 x2 y2 v k r ∧ rx = { r with hi := .byte (colourHi v) }

theorem Rx.HalfStroke.stable {a : Rx} (ha : a.Awake) (c : Config) (x1 y1 x2 y2 : Byte) (v : Colour) (k : Nat) :
    Rx.WaitStable c (a.HalfStroke x1 y1 x2 y2 v k) := by
  rintro _ ⟨r, h, rfl⟩
  have : ({ r with hi := .byte (colourHi v) } : Rx).Awake := (show r.Awake from h.awake ha)
  rw [this.wait]; exact ⟨r, h, rfl⟩

theorem Rx.Stroke.high {c : Config} {a rx : Rx} {x1 y1 x2 y2 : Byte} {v : Colour} {k : Nat} (ha : a.Awake)
    (h : a.Stroke x1 y1 x2 y2 v k rx) :
    a.HalfStroke x1 y1 x2 y2 v k (rx.receive c (.dat (colourHi v))) := by
  refine ⟨rx, h, ?_⟩
  have haw := h.awake ha
  obtain ⟨fb, pc, pr, rfl, -⟩ := h
  rw [Rx.receive_dat c haw (by simp [Rx.opened])]
  rfl

theorem Rx.HalfStroke.low {c : Config} {a rx : Rx} {x1 y1 x2 y2 : Byte} {v : Colour} {k : Nat} (ha : a.Awake)
    (hw : WindowInArea c x1 y1 x2 y2) (h : a.HalfStroke x1 y1 x2 y2 v k rx) :
    a.Stroke x1 y1 x2 y2 v (k + 1) (rx.receive c (.dat (colourLo v))) := by
  obtain ⟨r, hr, rfl⟩ := h
  have haw : ({ r with hi := .byte (colourHi v) } : Rx).Awake := (show r.Awake from hr.awake ha)
  have hp := hr.pixel hw
  obtain ⟨fb, pc, pr, rfl, -⟩ := hr
  rw [Rx.receive_dat c haw (by simp [Rx.opened])]
  simp only [Rx.dataReady, Rx.opened, Rx.pixelByte, colour_bytes]
  exact hp

/-- A stream of `n` pixels (43_pixel.md R161). -/
theorem Leads.stream {c : Config} {a : Rx} {x1 y1 x2 y2 : Byte} (v : Colour) (ha : a.Awake)
    (hw : WindowInArea c x1 y1 x2 y2) (k n : Nat) :
    Leads c (a.Stroke x1 y1 x2 y2 v k)
      (List.replicate n [FrameEvent.dat (colourHi v), .dat (colourLo v)]).flatten
      (a.Stroke x1 y1 x2 y2 v (k + n)) := by
  induction n generalizing k with
  | zero => exact .nil (Rx.Stroke.stable ha c _ _ _ _ _ _)
  | succ n ih =>
    rw [List.replicate_succ, List.flatten_cons]
    have e : k + (n + 1) = (k + 1) + n := by omega
    rw [e]
    exact .cons (Rx.Stroke.stable ha c _ _ _ _ _ _) (fun _ h => h.high ha)
      (.cons (Rx.HalfStroke.stable ha c _ _ _ _ _ _) (fun _ h => h.low ha hw) (ih (k + 1)))

/-- The stream frame of `write_pixels` (R161). -/
theorem Leads.streamFrame {c : Config} {a : Rx} {x1 y1 x2 y2 : Byte} (v : Colour) (ha : a.Awake)
    (hw : WindowInArea c x1 y1 x2 y2) (k n : Nat) :
    Leads c (a.Stroke x1 y1 x2 y2 v k) (Sys2Proof.Machine.streamFrame v n) (a.Stroke x1 y1 x2 y2 v (k + n)) :=
  have st := fun m => Rx.Stroke.stable ha c x1 y1 x2 y2 v m
  (Leads.fall (st k) (Leads.stream v ha hw k n)).append (.rise (st _) (.nil (st _)))

/-- The two data frames of `draw_pixel` (R164). -/
theorem Leads.pixelFrames {c : Config} {a : Rx} {x1 y1 x2 y2 : Byte} (v : Colour) (ha : a.Awake)
    (hw : WindowInArea c x1 y1 x2 y2) (k : Nat) :
    Leads c (a.Stroke x1 y1 x2 y2 v k) (dataFrame (colourHi v) ++ dataFrame (colourLo v))
      (a.Stroke x1 y1 x2 y2 v (k + 1)) := by
  have s0 := Rx.Stroke.stable ha c x1 y1 x2 y2 v k
  have s1 := Rx.HalfStroke.stable ha c x1 y1 x2 y2 v k
  have s2 := Rx.Stroke.stable ha c x1 y1 x2 y2 v (k + 1)
  exact .append (.fall s0 (.cons s0 (fun _ h => h.high ha) (.rise s1 (.nil s1))))
    (.fall s1 (.cons s1 (fun _ h => h.low ha hw) (.rise s2 (.nil s2))))

/-- A window the area holds opens. -/
theorem Rx.windowed_opened {c : Config} {a : Rx} {x1 y1 x2 y2 : Byte} (hw : WindowInArea c x1 y1 x2 y2)
    (hf : a.colmod = some c.colmod16bpp) : a.windowed c x1 y1 x2 y2 = a.opened x1 y1 x2 y2 := by
  obtain ⟨wx, wy, wc, wr⟩ := hw
  have wx' : x1.toNat ≤ x2.toNat := wx
  have wy' : y1.toNat ≤ y2.toNat := wy
  have e : ∀ b : Byte, (b.setWidth 16 : Addr).toNat = b.toNat := fun b => by
    rw [BitVec.toNat_setWidth]; have := b.isLt; omega
  unfold Rx.windowed badWindow
  rw [if_neg, if_pos hf]
  simp only [Bool.or_eq_true, decide_eq_true_eq, BitVec.lt_def, e]
  omega

/-- A window the area does not hold, or that is inverted, does not open (R253). -/
theorem badWindow_iff (c : Config) (x1 y1 x2 y2 : Byte) :
    badWindow c (x1.setWidth 16) (x2.setWidth 16) (y1.setWidth 16) (y2.setWidth 16) = false ↔
      WindowInArea c x1 y1 x2 y2 := by
  have e : ∀ b : Byte, (b.setWidth 16 : Addr).toNat = b.toNat := fun b => by
    rw [BitVec.toNat_setWidth]; have := b.isLt; omega
  unfold badWindow WindowInArea
  simp only [Bool.or_eq_false_iff, decide_eq_false_iff_not, BitVec.lt_def, BitVec.le_def, e]
  omega

end Sys2Proof.Machine
end

