-- ==== Sys2Proof/Laws/Between.lean ====
section
/-! SUPPORT. What the frames of whole operations leave of a receiver that is between operations
(46_receiver.md R261, R262), and what those of `init` do (45_init.md R225). -/

namespace Sys2Proof.Machine

open Sys2Proof

/-! ### A receiver the block has lost -/

/-- The receiver is undefined, for a reason the block's own traces can cause (R261). -/
def Rx.Lost (rx : Rx) : Prop := ∃ r, rx.undef = some r ∧ r.fromBlock = true

theorem Rx.lost_undefined {r : UndefReason} (h : r.fromBlock = true) : (Rx.undefined r).Lost := ⟨r, rfl, h⟩

theorem Rx.Lost.receive {rx : Rx} (h : rx.Lost) (c : Config) (e : FrameEvent) : (rx.receive c e).Lost := by
  obtain ⟨r, hr, hb⟩ := h
  rw [Rx.receive_of_undef c e (by simp [hr])]
  exact ⟨r, hr, hb⟩

theorem Rx.Lost.receiveAll {rx : Rx} (h : rx.Lost) (c : Config) (es : List FrameEvent) :
    (rx.receiveAll c es).Lost := by
  obtain ⟨r, hr, hb⟩ := h
  rw [Rx.receiveAll_of_undef c es (by simp [hr])]
  exact ⟨r, hr, hb⟩

/-- `P`, or the block has lost the receiver. -/
def Rx.OrLost (P : Rx → Prop) (rx : Rx) : Prop := rx.Lost ∨ P rx

theorem Leads.orLost {c : Config} {P Q : Rx → Prop} {fs : List FrameEvent} (h : Leads c P fs Q) :
    Leads c (Rx.OrLost P) fs (Rx.OrLost Q) := by
  rintro es he rx (hu | hp)
  · exact ⟨_, .inl (hu.receiveAll c es), rfl⟩
  · exact (h es he rx hp).imp fun r hr => ⟨.inr hr.1, hr.2⟩

theorem Leads.lost (c : Config) (fs : List FrameEvent) (Q : Rx → Prop) : Leads c Rx.Lost fs (Rx.OrLost Q) :=
  fun es _ _ h => ⟨_, .inl (h.receiveAll c es), rfl⟩

theorem Rx.Lost.between {rx : Rx} (h : rx.Lost) : rx.BetweenOps := by
  obtain ⟨r, hr, hb⟩ := h
  unfold Rx.BetweenOps
  rw [hr]; exact hb

theorem Rx.BetweenOps.cases {rx : Rx} (h : rx.BetweenOps) : rx.Lost ∨
    rx.undef = none ∧ (∀ p, rx.mode ≠ .param p) ∧ (∀ b, rx.hi ≠ .byte b) ∧ (∀ ok, rx.rst ≠ .low ok) ∧
      (rx.mode ≠ .unknown → rx.hi = .empty) := by
  unfold Rx.BetweenOps at h
  cases hr : rx.undef with
  | some r => rw [hr] at h; exact .inl ⟨r, hr, h⟩
  | none => rw [hr] at h; exact .inr ⟨rfl, h⟩

/-! ### The first command of an operation -/

/-- The receiver with nothing left to settle. -/
def Rx.settled (rx : Rx) : Rx := { rx with settle := .clear }

/-- A receiver that is not held in reset, but for settle waits that may have been met. -/
theorem Rx.wait_unless_low {c : Config} {rx : Rx} (h : rx.undef = none) (hr : ∀ ok, rx.rst ≠ .low ok)
    (t : DelayName) : rx.receive c (.wait t) = rx ∨ rx.receive c (.wait t) = rx.settled := by
  rcases rx with ⟨sh, nb, mode, pbuf, xs, xe, ys, ye, colmod, sleep, disp, pc, pr, hi, fb, rst, settle, undef⟩
  simp only at h hr
  subst h
  rcases rst with _ | _ | ok
  case low => exact (hr ok rfl).elim
  all_goals
    rcases settle with _ | _ | m
    · exact .inl rfl
    · exact .inl rfl
    · by_cases hm : m ≤ c.time t
      · right; simp [Rx.receive, Rx.wait, Rx.settled, hm]
      · left; simp [Rx.receive, Rx.wait, hm]

/-- A window command's frames, whatever the receiver: it opens the window, or the block loses it. -/
theorem Leads.windowBetween {c : Config} {a : Rx} (ha : a.BetweenOps) (x1 y1 x2 y2 : Byte) :
    Leads c (· = a) (windowFrames c.opcodes x1 y1 x2 y2)
      (Rx.OrLost fun rx => a.settled.Listening ∧ WindowInArea c x1 y1 x2 y2 ∧
        a.colmod = some c.colmod16bpp ∧ rx = a.settled.opened x1 y1 x2 y2) := by
  rcases ha.cases with hl | ⟨hu, hm, hb, hr, hh⟩
  · rintro es _ _ rfl
    exact ⟨_, .inl (hl.receiveAll c es), rfl⟩
  have hcaset := (opcodes_command c.opcodes (opcodes_nodup c)).2.2.2.2.1
  have hne : c.opcodes.caset ≠ c.opcodes.swreset := by
    have h := opcodes_nodup c
    simp only [Opcodes.all, List.nodup_cons, List.mem_cons, not_or] at h
    exact fun e => h.1.2.2.2.1 e.symm
  -- the receiver before the first byte
  have hs : Rx.WaitStable c (fun rx => rx = a ∨ rx = a.settled) := by
    rintro _ (rfl | rfl)
    · exact Rx.wait_unless_low hu hr .bit
    · right
      rcases Rx.wait_unless_low (rx := a.settled) (c := c) hu hr .bit with h | h <;> rw [h]; rfl
  have hlost : Rx.WaitStable c Rx.Lost := fun rx h => h.receive c _
  by_cases hlis : a.settled.Listening
  · -- it may take the command
    have first : ∀ rx, (rx = a ∨ rx = a.settled) →
        Rx.OrLost (· = { a.settled with mode := .param (.caset 0) }) (rx.receive c (.cmd c.opcodes.caset)) := by
      rintro rx hrx
      have main : a.settled.receive c (.cmd c.opcodes.caset) = { a.settled with mode := .param (.caset 0) } := by
        have hmu : a.settled.mode ≠ .unknown := by rcases hlis.2.1 with h | h <;> simp [h]
        rw [Rx.receive_cmd c hlis.1 hmu, Rx.commandReady_listening c hlis, hcaset]
        rfl
      rcases hrx with rfl | rfl
      · by_cases hst : rx.settle = .clear
        · right
          have : rx = rx.settled := by unfold Rx.settled; rw [← hst]
          rw [this] at main ⊢
          exact main
        · left
          refine ⟨.settle, ?_, rfl⟩
          have hmu : rx.mode ≠ .unknown := by rcases hlis.2.1 with h | h <;> (rw [show rx.mode = _ from h]; simp)
          simp only [Rx.receive, hu, Option.isSome_none, Bool.false_eq_true, if_false, Rx.command, Rx.guarded]
          cases hrr : rx.rst with
          | low ok => exact (hr ok hrr).elim
          | unknown | high =>
            cases hmm : rx.mode with
            | unknown => exact (hmu hmm).elim
            | idle | param | pixels => simp [hst]
      · exact .inr main
    have rest := (Leads.windowRest (c := c) x1 y1 x2 y2 hlis).orLost
    have hs2 : Rx.WaitStable c (Rx.OrLost (· = { a.settled with mode := .param (.caset 0) })) := by
      rintro rx (h | rfl)
      · exact .inl (hlost rx h)
      · right; exact Rx.Awake.wait (by exact hlis.1) c .bit
    have h := Leads.fall hs (Leads.cons (f := .cmd c.opcodes.caset) hs first rest)
    refine Leads.mono (P := fun rx => rx = a ∨ rx = a.settled) (by simpa [windowFrames, commandFrame] using h)
      (fun rx h => .inl h) ?_
    rintro rx (h | rfl)
    · exact .inl h
    · unfold Rx.windowed
      cases hbw : badWindow c (x1.setWidth 16) (x2.setWidth 16) (y1.setWidth 16) (y2.setWidth 16) with
      | true => exact .inl (Rx.lost_undefined rfl)
      | false =>
        by_cases hf : a.settled.colmod = some c.colmod16bpp
        · right
          refine ⟨hlis, (badWindow_iff c _ _ _ _).1 hbw, hf, ?_⟩
          simp [hf]
        · left
          simp only [hf, Bool.false_eq_true, if_false]
          exact Rx.lost_undefined rfl
  · -- it has not been reset
    have hmu : a.mode = .unknown := by
      by_contra hmu
      refine hlis ⟨⟨hu, hr, rfl⟩, ?_, hh hmu⟩
      cases hmm : a.mode with
      | unknown => exact (hmu hmm).elim
      | param p => exact (hm p hmm).elim
      | idle => exact .inl hmm
      | pixels => exact .inr hmm
    have first : ∀ rx, (rx = a ∨ rx = a.settled) → (rx.receive c (.cmd c.opcodes.caset)).Lost := by
      rintro rx hrx
      refine ⟨.notReset, ?_, rfl⟩
      have h1 : rx.undef = none := by rcases hrx with rfl | rfl <;> exact hu
      have h2 : rx.rst = a.rst := by rcases hrx with rfl | rfl <;> rfl
      have h3 : rx.mode = .unknown := by rcases hrx with rfl | rfl <;> exact hmu
      simp only [Rx.receive, h1, Option.isSome_none, Bool.false_eq_true, if_false, Rx.command, Rx.guarded, h2, h3,
        hcaset]
      cases hrr : a.rst with
      | low ok => exact (hr ok hrr).elim
      | unknown | high => simp
    have h := Leads.fall hs (Leads.cons (f := .cmd c.opcodes.caset) hs first (Leads.lost c
        (([.csRise] ++ (dataFrame 0 ++ dataFrame x1 ++ dataFrame 0 ++ dataFrame x2)) ++
        commandFrame c.opcodes.raset ++ (dataFrame 0 ++ dataFrame y1 ++ dataFrame 0 ++ dataFrame y2) ++
        commandFrame c.opcodes.ramwr) (fun _ => False)))
    exact Leads.mono (P := fun rx => rx = a ∨ rx = a.settled) (Q := Rx.OrLost fun _ => False)
      (by simpa [windowFrames, commandFrame] using h)
      (fun rx h => .inl h) (fun rx h => .inl (Or.resolve_right h id))

/-! ### Whole drawing operations -/

/-- What a drawing operation leaves of a receiver between operations: `k` pixels painted from the open
window, or the block has lost it. -/
def Rx.Painted (c : Config) (a : Rx) (x1 y1 x2 y2 : Byte) (v : Colour) (k : Nat) : Rx → Prop :=
  Rx.OrLost fun rx => a.settled.Listening ∧ WindowInArea c x1 y1 x2 y2 ∧ a.colmod = some c.colmod16bpp ∧
    a.settled.Stroke x1 y1 x2 y2 v k rx

theorem Leads.afterWindow {c : Config} {a : Rx} {x1 y1 x2 y2 : Byte} {v : Colour} {k : Nat}
    {fs : List FrameEvent} (h : a.settled.Listening → WindowInArea c x1 y1 x2 y2 →
      Leads c (a.settled.Stroke x1 y1 x2 y2 v 0) fs (a.settled.Stroke x1 y1 x2 y2 v k)) :
    Leads c (Rx.OrLost fun rx => a.settled.Listening ∧ WindowInArea c x1 y1 x2 y2 ∧
        a.colmod = some c.colmod16bpp ∧ rx = a.settled.opened x1 y1 x2 y2) fs
      (Rx.Painted c a x1 y1 x2 y2 v k) := by
  rintro es he rx (hl | ⟨h1, h2, h3, rfl⟩)
  · exact ⟨_, .inl (hl.receiveAll c es), rfl⟩
  · exact (h h1 h2 es he _ (Rx.Stroke.zero _ _ _ _ _ _)).imp fun r hr => ⟨.inr ⟨h1, h2, h3, hr.1⟩, hr.2⟩

/-- `fill_rectangle` (43_pixel.md R162). -/
theorem Leads.fillBetween {c : Config} {a : Rx} (ha : a.BetweenOps) (x1 y1 x2 y2 : Byte) (v : Colour) :
    Leads c (· = a) (fillFrames c.opcodes x1 y1 x2 y2 v)
      (Rx.Painted c a x1 y1 x2 y2 v ((x2.toNat - x1.toNat + 1) * (y2.toNat - y1.toNat + 1))) := by
  refine (Leads.windowBetween ha x1 y1 x2 y2).append (Leads.afterWindow fun h1 h2 => ?_)
  have := Leads.streamFrame v h1.1 h2 0 ((x2.toNat - x1.toNat + 1) * (y2.toNat - y1.toNat + 1))
  rwa [Nat.zero_add] at this

/-- `draw_pixel` (R164). -/
theorem Leads.pixelBetween {c : Config} {a : Rx} (ha : a.BetweenOps) (x y : Byte) (v : Colour) :
    Leads c (· = a) (Sys2Proof.Machine.pixelFrames c.opcodes x y v)
      (Rx.Painted c a x y (x + 1) (y + 1) v 1) := by
  unfold Sys2Proof.Machine.pixelFrames
  rw [List.append_assoc]
  exact (Leads.windowBetween ha x y (x + 1) (y + 1)).append
    (Leads.afterWindow fun h1 h2 => Leads.pixelFrames v h1.1 h2 0)

theorem Rx.Stroke.between {a rx : Rx} {x1 y1 x2 y2 : Byte} {v : Colour} {k : Nat} (ha : a.Awake)
    (h : a.Stroke x1 y1 x2 y2 v k rx) : rx.BetweenOps := by
  have haw := h.awake ha
  obtain ⟨fb, pc, pr, rfl, -⟩ := h
  have hu : a.undef = none := ha.1
  simp only [Rx.BetweenOps, Rx.opened, hu]
  exact ⟨by simp, by simp, haw.2.1, by simp⟩

theorem Rx.Painted.between {c : Config} {a rx : Rx} {x1 y1 x2 y2 : Byte} {v : Colour} {k : Nat}
    (h : Rx.Painted c a x1 y1 x2 y2 v k rx) : rx.BetweenOps := by
  rcases h with h | ⟨h1, -, -, h4⟩
  · exact h.between
  · exact h4.between h1.1

/-- The frames of a part of an operation keep a receiver between operations. -/
def KeepsBetween (c : Config) (fs : List FrameEvent) : Prop :=
  Leads c Rx.BetweenOps fs Rx.BetweenOps

theorem Rx.BetweenOps.stable (c : Config) : Rx.WaitStable c Rx.BetweenOps := by
  intro rx h
  rcases h.cases with hl | ⟨hu, hm, hb, hr, hh⟩
  · exact Rx.Lost.between (hl.receive c _)
  · rcases Rx.wait_unless_low (c := c) hu hr .bit with e | e <;> rw [e]
    · exact h
    · simp only [Rx.BetweenOps, Rx.settled, hu]
      exact ⟨hm, hb, hr, hh⟩

theorem KeepsBetween.nil (c : Config) : KeepsBetween c [] := Leads.nil (Rx.BetweenOps.stable c)

theorem KeepsBetween.append {c : Config} {fs gs : List FrameEvent} (h : KeepsBetween c fs)
    (g : KeepsBetween c gs) : KeepsBetween c (fs ++ gs) := Leads.append h g

theorem KeepsBetween.window (c : Config) (x1 y1 x2 y2 : Byte) :
    KeepsBetween c (windowFrames c.opcodes x1 y1 x2 y2) := fun es he rx h => by
  obtain ⟨r, hr, hs⟩ := Leads.windowBetween h x1 y1 x2 y2 es he rx rfl
  refine ⟨r, ?_, hs⟩
  rcases hr with hl | ⟨h1, -, -, rfl⟩
  · exact hl.between
  · exact (Rx.Stroke.zero rx.settled x1 y1 x2 y2 0).between h1.1

theorem KeepsBetween.fill (c : Config) (x1 y1 x2 y2 : Byte) (v : Colour) :
    KeepsBetween c (fillFrames c.opcodes x1 y1 x2 y2 v) :=
  fun es he rx h => (Leads.fillBetween h x1 y1 x2 y2 v es he rx rfl).imp fun _ hr => ⟨hr.1.between, hr.2⟩

theorem KeepsBetween.pixel (c : Config) (x y : Byte) (v : Colour) :
    KeepsBetween c (Sys2Proof.Machine.pixelFrames c.opcodes x y v) :=
  fun es he rx h => (Leads.pixelBetween h x y v es he rx rfl).imp fun _ hr => ⟨hr.1.between, hr.2⟩

/-! ### `init` (45_init.md R225) -/

/-- The receiver after a completed bring-up. -/
def Rx.upFrom (c : Config) (rx : Rx) : Rx :=
  { rx with
    shift := .unknown, nbits := none, pbuf := ⟨none, none, none, none⟩
    xs := none, xe := none, ys := none, ye := none, pc := none, pr := none
    colmod := some c.colmod16bpp, fb := [], sleep := .awake, disp := .on, mode := .idle, hi := .empty
    rst := .high, settle := .clear }

/-- A wait that meets a settle requirement. -/
theorem Leads.settle {c : Config} {a : Rx} (t : DelayName) {m : Nat} (hu : a.undef = none)
    (hr : ∀ ok, a.rst ≠ .low ok) (hs : a.settle = .need m) (ht : m ≤ c.time t) :
    Leads c (fun rx => rx = a ∨ rx = a.settled) [.wait t] (· = a.settled) := by
  have haw : a.settled.Awake := ⟨hu, hr, rfl⟩
  have hst : Rx.WaitStable c (fun rx => rx = a ∨ rx = a.settled) := by
    rintro _ (rfl | rfl)
    · exact Rx.wait_unless_low hu hr .bit
    · exact .inr (haw.wait c .bit)
  refine .cons hst ?_ (.here haw)
  rintro _ (rfl | rfl)
  · rename_i rx
    rcases rx with ⟨sh, nb, mode, pbuf, xs, xe, ys, ye, colmod, sleep, disp, pc, pr, hi, fb, rst, settle, undef⟩
    simp only at hu hs hr
    subst hu; subst hs
    rcases rst with _ | _ | ok
    case low => exact (hr ok rfl).elim
    all_goals simp [Rx.receive, Rx.wait, Rx.settled, ht]
  · exact haw.wait c t

/-- A framed command that leaves something to settle. -/
theorem Leads.commandNeed {c : Config} {a b : Rx} (o : Byte) (ha : a.Awake) (hu : b.undef = none)
    (hr : ∀ ok, b.rst ≠ .low ok) (h : a.receive c (.cmd o) = b) :
    Leads c (· = a) (commandFrame o) (fun rx => rx = b ∨ rx = b.settled) := by
  have haw : b.settled.Awake := ⟨hu, hr, rfl⟩
  have hst : Rx.WaitStable c (fun rx => rx = b ∨ rx = b.settled) := by
    rintro _ (rfl | rfl)
    · exact Rx.wait_unless_low hu hr .bit
    · exact .inr (haw.wait c .bit)
  exact .fall (ha.stable c) (.cons (ha.stable c) (by rintro _ rfl; exact .inl h) (.rise hst (.nil hst)))

/-- The frames of `init` bring up a receiver that is defined (R225). -/
theorem Leads.init {c : Config} {a : Rx} (hu : a.undef = none) (hd : DelaysMeet c) :
    Leads c (· = a) (initFrames c) (· = a.upFrom c) := by
  obtain ⟨d1, d2, d3, d4⟩ := hd
  obtain ⟨osw, oslp, ocol, odis, -, -, -⟩ := opcodes_command c.opcodes (opcodes_nodup c)
  -- the reset pulse
  let low (ok : Bool) (rx : Rx) : Prop := ∃ st ok', rx = { a with settle := st, rst := .low ok' } ∧ (ok = true → ok' = true)
  have waits : ∀ st ok t, ∃ st', ({ a with settle := st, rst := .low ok } : Rx).receive c (.wait t) =
      { a with settle := st', rst := .low (ok || decide (c.rxRstwMin ≤ c.time t)) } := by
    intro st ok t
    simp only [Rx.receive, hu, Option.isSome_none, Bool.false_eq_true, if_false, Rx.wait]
    exact ⟨_, rfl⟩
  have slow : ∀ ok, Rx.WaitStable c (low ok) := by
    rintro ok _ ⟨st, ok', rfl, h⟩
    obtain ⟨st', he⟩ := waits st ok' .bit
    exact ⟨st', _, he, fun ho => by simp [h ho]⟩
  have p0 : Rx.WaitStable c (fun rx => ∃ st r, rx = ({ a with settle := st, rst := r } : Rx)) := by
    rintro _ ⟨st, r, rfl⟩
    simp only [Rx.receive, hu, Option.isSome_none, Bool.false_eq_true, if_false, Rx.wait]
    exact ⟨_, _, rfl⟩
  -- the states on the way
  let r1 : Rx := { (a.reset c) with rst := .high }
  have hr1 : ∀ ok, r1.rst ≠ .low ok := fun ok => by simp [r1]
  have hu1 : r1.undef = none := hu
  have l1 : r1.settled.Listening := ⟨⟨hu, hr1, rfl⟩, .inl rfl, rfl⟩
  have s1 : Rx.WaitStable c (fun rx => rx = r1 ∨ rx = r1.settled) := by
    rintro _ (rfl | rfl)
    · exact Rx.wait_unless_low hu1 hr1 .bit
    · exact .inr (l1.1.wait c .bit)
  have pulse : Leads c (· = a) [.rstLow, .wait .rstPulse, .rstHigh] (fun rx => rx = r1 ∨ rx = r1.settled) := by
    refine Leads.mono (P := fun rx => ∃ st r, rx = ({ a with settle := st, rst := r } : Rx)) (.cons p0 (Q := low false) ?_
      (.cons (slow false) (Q := low true) ?_ (.cons (slow true) ?_ (.nil s1)))) (fun rx h => ⟨a.settle, a.rst, h⟩)
      (fun rx h => h)
    · rintro _ ⟨st, r, rfl⟩
      refine ⟨st, false, ?_, fun h => by cases h⟩
      simp only [Rx.receive, hu, Option.isSome_none, Bool.false_eq_true, if_false]
    · rintro _ ⟨st, ok, rfl, -⟩
      obtain ⟨st', he⟩ := waits st ok .rstPulse
      have : c.rxRstwMin ≤ c.time .rstPulse := d1
      exact ⟨st', _, he, fun _ => by simp [this]⟩
    · rintro _ ⟨st, ok, rfl, h⟩
      left
      have hok := h rfl
      subst hok
      simp only [Rx.receive, hu, Option.isSome_none, Bool.false_eq_true, if_false, Rx.resetRise,
        r1, Rx.reset]
  have set1 : Leads c (fun rx => rx = r1 ∨ rx = r1.settled) [.wait .rstSettle] (· = r1.settled) :=
    Leads.settle .rstSettle hu1 hr1 (m := c.rxResetMin) rfl d2
  -- software reset
  let r2 : Rx := r1.settled.reset c
  have hr2 : ∀ ok, r2.rst ≠ .low ok := hr1
  have sw : Leads c (· = r1.settled) (commandFrame c.opcodes.swreset) (fun rx => rx = r2 ∨ rx = r2.settled) := by
    refine Leads.commandNeed _ l1.1 hu hr2 ?_
    rw [Rx.receive_cmd c l1.1 (by simp [r1, Rx.settled, Rx.reset]), Rx.commandReady_listening c l1, osw]
    rfl
  have set2 : Leads c (fun rx => rx = r2 ∨ rx = r2.settled) [.wait .swresetSettle] (· = r2.settled) :=
    Leads.settle .swresetSettle hu hr2 (m := c.rxResetMin) rfl d3
  have l2 : r2.settled.Listening := ⟨⟨hu, hr2, rfl⟩, .inl rfl, rfl⟩
  -- sleep out
  let r3 : Rx := r2.settled.sleepOut c
  have slp : Leads c (· = r2.settled) (commandFrame c.opcodes.slpout) (fun rx => rx = r3 ∨ rx = r3.settled) := by
    refine Leads.commandNeed _ l2.1 hu hr2 ?_
    rw [Rx.receive_cmd c l2.1 (by simp [r2, Rx.settled, Rx.reset]), Rx.commandReady_listening c l2, oslp]
    rfl
  have set3 : Leads c (fun rx => rx = r3 ∨ rx = r3.settled) [.wait .slpoutSettle] (· = r3.settled) :=
    Leads.settle .slpoutSettle hu hr2 (m := c.rxSlpoutMin) rfl d4
  have l3 : r3.settled.Listening := ⟨⟨hu, hr2, rfl⟩, .inl rfl, rfl⟩
  -- pixel format and display on
  let r4 : Rx := r3.settled.colmodCmd
  have col : Leads c (· = r3.settled) (commandFrame c.opcodes.colmod) (· = r4) := by
    refine Leads.command _ l3.1 ⟨hu, hr2, rfl⟩ ?_
    rw [Rx.receive_cmd c l3.1 (by simp [r3, Rx.settled, Rx.sleepOut]), Rx.commandReady_listening c l3, ocol]
    rfl
  let r5 : Rx := r4.colmodByte c.colmod16bpp
  have fmt : Leads c (· = r4) (dataFrame c.colmod16bpp) (· = r5) := by
    refine Leads.data _ ⟨hu, hr2, rfl⟩ ⟨hu, hr2, rfl⟩ ?_
    have l4 : r4.Awake := ⟨hu, hr2, rfl⟩
    have m4 : r4.mode ≠ .unknown := fun h => by cases h
    rw [Rx.receive_dat c l4 m4]
    rfl
  have l5 : r5.Listening := ⟨⟨hu, hr2, rfl⟩, .inl rfl, rfl⟩
  have dis : Leads c (· = r5) (commandFrame c.opcodes.dispon) (· = a.upFrom c) := by
    refine Leads.command _ l5.1 ⟨hu, fun ok => by simp [Rx.upFrom], rfl⟩ ?_
    rw [Rx.receive_cmd c l5.1 (by simp [r5, Rx.colmodByte]), Rx.commandReady_listening c l5, odis]
    rfl
  have all := ((((((((pulse.append set1).append sw).append set2).append slp).append set3).append col).append
    fmt).append dis)
  simpa [initFrames] using all

/-! ### `init`, whatever its delays (46_receiver.md R261) -/

theorem Leads.ofLost {c : Config} {P Q : Rx → Prop} {fs : List FrameEvent} 
    (h : Leads c P fs (Rx.OrLost Q)) : Leads c (Rx.OrLost P) fs (Rx.OrLost Q) := by
  rintro es he rx (hu | hp)
  · exact ⟨_, .inl (hu.receiveAll c es), rfl⟩
  · exact h es he rx hp

/-- The receiver `a`, its settle requirement met or not. -/
def Rx.Pend (a rx : Rx) : Prop := rx = a ∨ rx = a.settled

theorem Rx.Pend.stable (c : Config) {a : Rx} (hu : a.undef = none) (hr : ∀ ok, a.rst ≠ .low ok) :
    Rx.WaitStable c (Rx.Pend a) := by
  have haw : a.settled.Awake := ⟨hu, hr, rfl⟩
  rintro _ (rfl | rfl)
  · exact Rx.wait_unless_low hu hr .bit
  · exact .inr (haw.wait c .bit)

theorem Leads.pendWait {c : Config} {a : Rx} (hu : a.undef = none) (hr : ∀ ok, a.rst ≠ .low ok)
    (t : DelayName) : Leads c (Rx.Pend a) [.wait t] (Rx.Pend a) := by
  have haw : a.settled.Awake := ⟨hu, hr, rfl⟩
  refine .cons (Rx.Pend.stable c hu hr) ?_ (.nil (Rx.Pend.stable c hu hr))
  rintro _ (rfl | rfl)
  · exact Rx.wait_unless_low hu hr t
  · exact .inr (haw.wait c t)

theorem Rx.OrLost.stable {c : Config} {P : Rx → Prop} (h : Rx.WaitStable c P) :
    Rx.WaitStable c (Rx.OrLost P) := by
  rintro rx (hl | hp)
  · exact .inl (hl.receive c _)
  · exact .inr (h rx hp)

/-- A framed command in a receiver that may still have to settle: it is taken, or the block loses the receiver. -/
theorem Leads.pendCommand {c : Config} {a b : Rx} (o : Byte) (hu : a.undef = none)
    (hr : ∀ ok, a.rst ≠ .low ok) (hm : a.mode = .idle)
    (hbu : b.undef = none) (hbr : ∀ ok, b.rst ≠ .low ok) (h : a.settled.receive c (.cmd o) = b) :
    Leads c (Rx.Pend a) (commandFrame o) (Rx.OrLost (Rx.Pend b)) := by
  have sa := Rx.Pend.stable c hu hr
  have sb := Rx.OrLost.stable (Rx.Pend.stable c hbu hbr)
  refine .fall sa (.cons sa ?_ (.rise sb (.nil sb)))
  rintro rx (rfl | rfl)
  · by_cases hs : rx.settle = .clear
    · have : rx = rx.settled := by unfold Rx.settled; rw [← hs]
      rw [this, h]; exact .inr (.inl rfl)
    · left
      refine ⟨.settle, ?_, rfl⟩
      simp only [Rx.receive, hu, Option.isSome_none, Bool.false_eq_true, if_false, Rx.command, Rx.guarded]
      cases hrr : rx.rst with
      | low ok => exact (hr ok hrr).elim
      | unknown | high => simp [hm, hs]
  · rw [h]; exact .inr (.inl rfl)

theorem Leads.pend {c : Config} {a b : Rx} {fs : List FrameEvent} (h : Leads c (· = a) fs (· = b))
    (hs : a = a.settled) : Leads c (Rx.Pend a) fs (Rx.Pend b) :=
  h.mono (fun _ hr => hr.elim id fun h => by rw [h, ← hs]) (fun _ h => .inl h)

/-- The frames of `init` keep a receiver between operations, whatever the delays: too short ones lose it. -/
theorem KeepsBetween.init (c : Config) : KeepsBetween c (initFrames c) := by
  intro es he a ha
  rcases ha.cases with hl | ⟨hu, -, -, -, -⟩
  · exact ⟨_, (hl.receiveAll c es).between, rfl⟩
  obtain ⟨osw, oslp, ocol, odis, -, -, -⟩ := opcodes_command c.opcodes (opcodes_nodup c)
  let low (rx : Rx) : Prop := ∃ st ok, rx = ({ a with settle := st, rst := .low ok } : Rx)
  let p0 (rx : Rx) : Prop := ∃ st r, rx = ({ a with settle := st, rst := r } : Rx)
  have sl : ∀ t rx, low rx → low (rx.receive c (.wait t)) := by
    rintro t _ ⟨st, ok, rfl⟩
    simp only [Rx.receive, hu, Option.isSome_none, Bool.false_eq_true, if_false, Rx.wait]
    exact ⟨_, _, by rw [hu]⟩
  have s0 : Rx.WaitStable c p0 := by
    rintro _ ⟨st, r, rfl⟩
    simp only [Rx.receive, hu, Option.isSome_none, Bool.false_eq_true, if_false, Rx.wait]
    exact ⟨_, _, by rw [hu]⟩
  let r1 : Rx := { (a.reset c) with rst := .high }
  have hr1 : ∀ ok, r1.rst ≠ .low ok := fun ok => by simp [r1]
  have pulse : Leads c p0 [.rstLow, .wait .rstPulse, .rstHigh] (Rx.OrLost (Rx.Pend r1)) := by
    refine .cons s0 (Q := low) ?_ (.cons (sl .bit) (Q := low) (sl .rstPulse) (.cons (sl .bit) ?_
      (.nil (Rx.OrLost.stable (Rx.Pend.stable c hu hr1)))))
    · rintro _ ⟨st, r, rfl⟩
      exact ⟨st, false, by simp only [Rx.receive, hu, Option.isSome_none, Bool.false_eq_true, if_false]⟩
    · rintro _ ⟨st, ok, rfl⟩
      cases ok with
      | false =>
        left
        refine ⟨.shortReset, ?_, rfl⟩
        simp only [Rx.receive, hu, Option.isSome_none, Bool.false_eq_true, if_false, Rx.resetRise]
        rfl
      | true =>
        right; left
        simp only [Rx.receive, hu, Option.isSome_none, Bool.false_eq_true, if_false, Rx.resetRise, r1, Rx.reset]
  let r2 : Rx := r1.settled.reset c
  let r3 : Rx := r2.settled.sleepOut c
  let r4 : Rx := r3.settled.colmodCmd
  let r5 : Rx := r4.colmodByte c.colmod16bpp
  have l1 : r1.settled.Listening := ⟨⟨hu, hr1, rfl⟩, .inl rfl, rfl⟩
  have l2 : r2.settled.Listening := ⟨⟨hu, hr1, rfl⟩, .inl rfl, rfl⟩
  have l3 : r3.settled.Listening := ⟨⟨hu, hr1, rfl⟩, .inl rfl, rfl⟩
  have l5 : r5.Listening := ⟨⟨hu, hr1, rfl⟩, .inl rfl, rfl⟩
  have w1 := (Leads.pendWait (c := c) (a := r1) hu hr1 .rstSettle).orLost
  have w2 := (Leads.pendWait (c := c) (a := r2) hu hr1 .swresetSettle).orLost
  have w3 := (Leads.pendWait (c := c) (a := r3) hu hr1 .slpoutSettle).orLost
  have sw := Leads.ofLost (Leads.pendCommand (a := r1) (b := r2) c.opcodes.swreset hu hr1 rfl hu hr1 (by
    rw [Rx.receive_cmd c l1.1 (by simp [r1, Rx.settled, Rx.reset]), Rx.commandReady_listening c l1, osw]; rfl))
  have slp := Leads.ofLost (Leads.pendCommand (a := r2) (b := r3) c.opcodes.slpout hu hr1 rfl hu hr1 (by
    rw [Rx.receive_cmd c l2.1 (by simp [r2, Rx.settled, Rx.reset]), Rx.commandReady_listening c l2, oslp]; rfl))
  have col := Leads.ofLost (Leads.pendCommand (a := r3) (b := r4) c.opcodes.colmod hu hr1 rfl hu hr1 (by
    rw [Rx.receive_cmd c l3.1 (by simp [r3, Rx.settled, Rx.sleepOut]), Rx.commandReady_listening c l3, ocol]; rfl))
  have l4 : r4.Awake := ⟨hu, hr1, rfl⟩
  have m4 : r4.mode ≠ .unknown := fun h => by cases h
  have fmt := (Leads.pend (Leads.data (c := c) (a := r4) (b := r5) c.colmod16bpp l4 ⟨hu, hr1, rfl⟩ (by
    rw [Rx.receive_dat c l4 m4]; rfl)) rfl).orLost
  have dis := (Leads.pend (Leads.command (c := c) (a := r5) (b := a.upFrom c) c.opcodes.dispon l5.1
    ⟨hu, fun ok => by simp [Rx.upFrom], rfl⟩ (by
    rw [Rx.receive_cmd c l5.1 (by simp [r5, Rx.colmodByte]), Rx.commandReady_listening c l5, odis]; rfl)) rfl).orLost
  have all := ((((((((pulse.append w1).append sw).append w2).append slp).append w3).append col).append
    fmt).append dis)
  have all' : Leads c p0 (initFrames c) (Rx.OrLost (Rx.Pend (a.upFrom c))) := by
    simpa [initFrames] using all
  obtain ⟨r, hr, hs⟩ := all' es he a ⟨a.settle, a.rst, rfl⟩
  refine ⟨r, ?_, hs⟩
  rcases hr with hl | h
  · exact hl.between
  · have e : r = a.upFrom c := h.elim id id
    rw [e]
    simp only [Rx.BetweenOps, Rx.upFrom, hu]
    exact ⟨by simp, by simp, by simp, by simp⟩

end Sys2Proof.Machine
end

