-- ==== Sys2Proof/Laws/State.lean ====
section
/-! SUPPORT. One lemma for each field and each update of State, so that no later proof unfolds one. -/

namespace Sys2Proof.Machine

open Sys2Proof

/-! ### `State.emit` -/

@[simp] theorem State.emit_cfg (e : BusEvent) (s : State) : (s.emit e).cfg = s.cfg := rfl
@[simp] theorem State.emit_lines (e : BusEvent) (s : State) : (s.emit e).lines = s.lines.after e := rfl
@[simp] theorem State.emit_trace (e : BusEvent) (s : State) : (s.emit e).trace = s.trace ++ [e] := rfl
@[simp] theorem State.emit_op (e : BusEvent) (s : State) : (s.emit e).op = s.op := rfl
@[simp] theorem State.emit_pc (e : BusEvent) (s : State) : (s.emit e).pc = s.pc := rfl
@[simp] theorem State.emit_locals (e : BusEvent) (s : State) : (s.emit e).locals = s.locals := rfl
@[simp] theorem State.emit_fault (e : BusEvent) (s : State) : (s.emit e).fault = s.fault := rfl
@[simp] theorem State.emit_spi (e : BusEvent) (s : State) : (s.emit e).spi = s.spi := rfl
@[simp] theorem State.emit_rx (e : BusEvent) (s : State) : (s.emit e).rx = s.rx.hear s.cfg s.lines e := rfl
@[simp] theorem State.emit_inbox (e : BusEvent) (s : State) : (s.emit e).inbox = s.inbox := rfl
@[simp] theorem State.emit_freeCtr (e : BusEvent) (s : State) : (s.emit e).freeCtr = s.freeCtr := rfl

/-! ### `State.advancePc` -/

@[simp] theorem State.advancePc_cfg (n : Nat) (s : State) : (s.advancePc n).cfg = s.cfg := rfl
@[simp] theorem State.advancePc_lines (n : Nat) (s : State) : (s.advancePc n).lines = s.lines := rfl
@[simp] theorem State.advancePc_trace (n : Nat) (s : State) : (s.advancePc n).trace = s.trace := rfl
@[simp] theorem State.advancePc_op (n : Nat) (s : State) : (s.advancePc n).op = s.op := rfl
@[simp] theorem State.advancePc_pc (n : Nat) (s : State) : (s.advancePc n).pc = s.pc + n := rfl
@[simp] theorem State.advancePc_locals (n : Nat) (s : State) : (s.advancePc n).locals = s.locals := rfl
@[simp] theorem State.advancePc_fault (n : Nat) (s : State) : (s.advancePc n).fault = s.fault := rfl
@[simp] theorem State.advancePc_spi (n : Nat) (s : State) : (s.advancePc n).spi = s.spi := rfl
@[simp] theorem State.advancePc_rx (n : Nat) (s : State) : (s.advancePc n).rx = s.rx := rfl
@[simp] theorem State.advancePc_inbox (n : Nat) (s : State) : (s.advancePc n).inbox = s.inbox := rfl
@[simp] theorem State.advancePc_freeCtr (n : Nat) (s : State) : (s.advancePc n).freeCtr = s.freeCtr := rfl

/-! ### `State.raise` -/

@[simp] theorem State.raise_cfg (c : FaultCode) (s : State) : (s.raise c).cfg = s.cfg := rfl
@[simp] theorem State.raise_lines (c : FaultCode) (s : State) : (s.raise c).lines = s.lines := rfl
@[simp] theorem State.raise_trace (c : FaultCode) (s : State) : (s.raise c).trace = s.trace := rfl
@[simp] theorem State.raise_op (c : FaultCode) (s : State) : (s.raise c).op = s.op := rfl
@[simp] theorem State.raise_pc (c : FaultCode) (s : State) : (s.raise c).pc = s.pc := rfl
@[simp] theorem State.raise_locals (c : FaultCode) (s : State) : (s.raise c).locals = s.locals := rfl
@[simp] theorem State.raise_fault (c : FaultCode) (s : State) : (s.raise c).fault = some ⟨c, s.op, s.pc⟩ := rfl
@[simp] theorem State.raise_spi (c : FaultCode) (s : State) : (s.raise c).spi = s.spi := rfl
@[simp] theorem State.raise_rx (c : FaultCode) (s : State) : (s.raise c).rx = s.rx := rfl
@[simp] theorem State.raise_inbox (c : FaultCode) (s : State) : (s.raise c).inbox = s.inbox := rfl
@[simp] theorem State.raise_freeCtr (c : FaultCode) (s : State) : (s.raise c).freeCtr = s.freeCtr := rfl

/-! ### `State.assign` -/

@[simp] theorem State.assign_cfg (a : Assign) (s : State) : (s.assign a).cfg = s.cfg := rfl
@[simp] theorem State.assign_lines (a : Assign) (s : State) : (s.assign a).lines = s.lines := rfl
@[simp] theorem State.assign_trace (a : Assign) (s : State) : (s.assign a).trace = s.trace := rfl
@[simp] theorem State.assign_op (a : Assign) (s : State) : (s.assign a).op = s.op := rfl
@[simp] theorem State.assign_pc (a : Assign) (s : State) : (s.assign a).pc = s.pc := rfl
@[simp] theorem State.assign_locals (a : Assign) (s : State) : (s.assign a).locals = s.locals.assign a := rfl
@[simp] theorem State.assign_fault (a : Assign) (s : State) : (s.assign a).fault = s.fault := rfl
@[simp] theorem State.assign_spi (a : Assign) (s : State) : (s.assign a).spi = s.spi := rfl
@[simp] theorem State.assign_rx (a : Assign) (s : State) : (s.assign a).rx = s.rx := rfl
@[simp] theorem State.assign_inbox (a : Assign) (s : State) : (s.assign a).inbox = s.inbox := rfl
@[simp] theorem State.assign_freeCtr (a : Assign) (s : State) : (s.assign a).freeCtr = s.freeCtr := rfl

/-! ### `State.start` -/

@[simp] theorem State.start_cfg (i : Instr) (s : State) : (s.start i).cfg = s.cfg := rfl
@[simp] theorem State.start_lines (i : Instr) (s : State) : (s.start i).lines = s.lines := rfl
@[simp] theorem State.start_trace (i : Instr) (s : State) : (s.start i).trace = s.trace := rfl
@[simp] theorem State.start_op (i : Instr) (s : State) : (s.start i).op = .busy i := rfl
@[simp] theorem State.start_pc (i : Instr) (s : State) : (s.start i).pc = 0 := rfl
@[simp] theorem State.start_locals (i : Instr) (s : State) : (s.start i).locals = Locals.none := rfl
@[simp] theorem State.start_fault (i : Instr) (s : State) : (s.start i).fault = s.fault := rfl
@[simp] theorem State.start_spi (i : Instr) (s : State) : (s.start i).spi = s.spi := rfl
@[simp] theorem State.start_rx (i : Instr) (s : State) : (s.start i).rx = s.rx := rfl
@[simp] theorem State.start_inbox (i : Instr) (s : State) : (s.start i).inbox = s.inbox := rfl
@[simp] theorem State.start_freeCtr (i : Instr) (s : State) : (s.start i).freeCtr = s.freeCtr := rfl

/-! ### `State.writeTxbuf` -/

@[simp] theorem State.writeTxbuf_cfg (b : Byte) (s : State) : (s.writeTxbuf b).cfg = s.cfg := rfl
@[simp] theorem State.writeTxbuf_lines (b : Byte) (s : State) : (s.writeTxbuf b).lines = s.lines.after (.txByte b) := rfl
@[simp] theorem State.writeTxbuf_trace (b : Byte) (s : State) : (s.writeTxbuf b).trace = s.trace ++ [.txByte b] := rfl
@[simp] theorem State.writeTxbuf_op (b : Byte) (s : State) : (s.writeTxbuf b).op = s.op := rfl
@[simp] theorem State.writeTxbuf_pc (b : Byte) (s : State) : (s.writeTxbuf b).pc = s.pc := rfl
@[simp] theorem State.writeTxbuf_locals (b : Byte) (s : State) : (s.writeTxbuf b).locals = s.locals := rfl
@[simp] theorem State.writeTxbuf_fault (b : Byte) (s : State) : (s.writeTxbuf b).fault = s.fault := rfl
@[simp] theorem State.writeTxbuf_spi (b : Byte) (s : State) : (s.writeTxbuf b).spi = s.spi.start b := rfl
@[simp] theorem State.writeTxbuf_rx (b : Byte) (s : State) : (s.writeTxbuf b).rx = s.rx.hear s.cfg s.lines (.txByte b) := rfl
@[simp] theorem State.writeTxbuf_inbox (b : Byte) (s : State) : (s.writeTxbuf b).inbox = s.inbox := rfl
@[simp] theorem State.writeTxbuf_freeCtr (b : Byte) (s : State) : (s.writeTxbuf b).freeCtr = s.freeCtr := rfl

/-! ### `State.taken` -/

@[simp] theorem State.taken_cfg (s : State) : (s.taken).cfg = s.cfg := rfl
@[simp] theorem State.taken_lines (s : State) : (s.taken).lines = s.lines := rfl
@[simp] theorem State.taken_trace (s : State) : (s.taken).trace = s.trace := rfl
@[simp] theorem State.taken_op (s : State) : (s.taken).op = s.op := rfl
@[simp] theorem State.taken_pc (s : State) : (s.taken).pc = s.pc := rfl
@[simp] theorem State.taken_locals (s : State) : (s.taken).locals = s.locals := rfl
@[simp] theorem State.taken_fault (s : State) : (s.taken).fault = s.fault := rfl
@[simp] theorem State.taken_spi (s : State) : (s.taken).spi = s.spi := rfl
@[simp] theorem State.taken_rx (s : State) : (s.taken).rx = s.rx := rfl
@[simp] theorem State.taken_inbox (s : State) : (s.taken).inbox = s.inbox.tail := rfl
@[simp] theorem State.taken_freeCtr (s : State) : (s.taken).freeCtr = s.freeCtr := rfl

/-! ### `State.withInstr` -/

@[simp] theorem State.withInstr_cfg (bs : List Byte) (s : State) : (s.withInstr bs).cfg = s.cfg := rfl
@[simp] theorem State.withInstr_lines (bs : List Byte) (s : State) : (s.withInstr bs).lines = s.lines := rfl
@[simp] theorem State.withInstr_trace (bs : List Byte) (s : State) : (s.withInstr bs).trace = s.trace := rfl
@[simp] theorem State.withInstr_op (bs : List Byte) (s : State) : (s.withInstr bs).op = s.op := rfl
@[simp] theorem State.withInstr_pc (bs : List Byte) (s : State) : (s.withInstr bs).pc = s.pc := rfl
@[simp] theorem State.withInstr_locals (bs : List Byte) (s : State) : (s.withInstr bs).locals = s.locals := rfl
@[simp] theorem State.withInstr_fault (bs : List Byte) (s : State) : (s.withInstr bs).fault = s.fault := rfl
@[simp] theorem State.withInstr_spi (bs : List Byte) (s : State) : (s.withInstr bs).spi = s.spi := rfl
@[simp] theorem State.withInstr_rx (bs : List Byte) (s : State) : (s.withInstr bs).rx = s.rx := rfl
@[simp] theorem State.withInstr_inbox (bs : List Byte) (s : State) : (s.withInstr bs).inbox = .instr bs :: s.inbox := rfl
@[simp] theorem State.withInstr_freeCtr (bs : List Byte) (s : State) : (s.withInstr bs).freeCtr = s.freeCtr := rfl

/-! ### `State.receiveCommand` -/

@[simp] theorem State.receiveCommand_cfg (c : Command) (s : State) : (s.receiveCommand c).cfg = s.cfg := rfl
@[simp] theorem State.receiveCommand_lines (c : Command) (s : State) : (s.receiveCommand c).lines = s.lines := rfl
@[simp] theorem State.receiveCommand_trace (c : Command) (s : State) : (s.receiveCommand c).trace = s.trace := rfl
@[simp] theorem State.receiveCommand_op (c : Command) (s : State) : (s.receiveCommand c).op = s.op := rfl
@[simp] theorem State.receiveCommand_pc (c : Command) (s : State) : (s.receiveCommand c).pc = s.pc := rfl
@[simp] theorem State.receiveCommand_locals (c : Command) (s : State) : (s.receiveCommand c).locals = s.locals := rfl
@[simp] theorem State.receiveCommand_fault (c : Command) (s : State) : (s.receiveCommand c).fault = s.fault := rfl
@[simp] theorem State.receiveCommand_spi (c : Command) (s : State) : (s.receiveCommand c).spi = s.spi := rfl
@[simp] theorem State.receiveCommand_rx (c : Command) (s : State) : (s.receiveCommand c).rx = s.rx.command s.cfg c := rfl
@[simp] theorem State.receiveCommand_inbox (c : Command) (s : State) : (s.receiveCommand c).inbox = s.inbox := rfl
@[simp] theorem State.receiveCommand_freeCtr (c : Command) (s : State) : (s.receiveCommand c).freeCtr = s.freeCtr := rfl

/-! ### `State.wireEvent` -/

@[simp] theorem State.wireEvent_cfg (e : FrameEvent) (s : State) : (s.wireEvent e).cfg = s.cfg := rfl
@[simp] theorem State.wireEvent_lines (e : FrameEvent) (s : State) : (s.wireEvent e).lines = s.lines := rfl
@[simp] theorem State.wireEvent_trace (e : FrameEvent) (s : State) : (s.wireEvent e).trace = s.trace := rfl
@[simp] theorem State.wireEvent_op (e : FrameEvent) (s : State) : (s.wireEvent e).op = s.op := rfl
@[simp] theorem State.wireEvent_pc (e : FrameEvent) (s : State) : (s.wireEvent e).pc = s.pc := rfl
@[simp] theorem State.wireEvent_locals (e : FrameEvent) (s : State) : (s.wireEvent e).locals = s.locals := rfl
@[simp] theorem State.wireEvent_fault (e : FrameEvent) (s : State) : (s.wireEvent e).fault = s.fault := rfl
@[simp] theorem State.wireEvent_spi (e : FrameEvent) (s : State) : (s.wireEvent e).spi = s.spi := rfl
@[simp] theorem State.wireEvent_rx (e : FrameEvent) (s : State) : (s.wireEvent e).rx = s.rx.receive s.cfg e := rfl
@[simp] theorem State.wireEvent_inbox (e : FrameEvent) (s : State) : (s.wireEvent e).inbox = s.inbox := rfl
@[simp] theorem State.wireEvent_freeCtr (e : FrameEvent) (s : State) : (s.wireEvent e).freeCtr = s.freeCtr := rfl

/-! ### Updates that look at the fault or the schedule -/

@[simp] theorem State.finish_of_fault {s : State} (h : s.fault.isSome = true) : s.finish = s := by
  simp [State.finish, h]

@[simp] theorem State.finish_of_no_fault {s : State} (h : s.fault = none) :
    s.finish = { s with op := .idle, pc := 0 } := by
  simp [State.finish, h]

@[simp] theorem State.dropLocals_of_fault {s : State} (h : s.fault.isSome = true) : s.dropLocals = s := by
  simp [State.dropLocals, h]

@[simp] theorem State.dropLocals_of_no_fault {s : State} (h : s.fault = none) :
    s.dropLocals = { s with locals := Locals.none } := by
  simp [State.dropLocals, h]

@[simp] theorem State.finish_fault (s : State) : s.finish.fault = s.fault := by
  unfold State.finish; split <;> rfl

@[simp] theorem State.dropLocals_fault (s : State) : s.dropLocals.fault = s.fault := by
  unfold State.dropLocals; split <;> rfl

/-- Using a schedule choice changes the schedule or the free counter and nothing else. -/
theorem State.useZeros_frame (s : State) :
    ∃ sched n, s.useZeros = { s with spi := { s.spi with sched := sched }, freeCtr := n } := by
  unfold State.useZeros
  split
  · exact ⟨_, s.freeCtr, rfl⟩
  · exact ⟨s.spi.sched, _, rfl⟩

@[simp] theorem State.useZeros_cfg (s : State) : s.useZeros.cfg = s.cfg := by
  unfold State.useZeros; split <;> rfl
@[simp] theorem State.useZeros_lines (s : State) : s.useZeros.lines = s.lines := by
  unfold State.useZeros; split <;> rfl
@[simp] theorem State.useZeros_trace (s : State) : s.useZeros.trace = s.trace := by
  unfold State.useZeros; split <;> rfl
@[simp] theorem State.useZeros_op (s : State) : s.useZeros.op = s.op := by
  unfold State.useZeros; split <;> rfl
@[simp] theorem State.useZeros_pc (s : State) : s.useZeros.pc = s.pc := by
  unfold State.useZeros; split <;> rfl
@[simp] theorem State.useZeros_locals (s : State) : s.useZeros.locals = s.locals := by
  unfold State.useZeros; split <;> rfl
@[simp] theorem State.useZeros_fault (s : State) : s.useZeros.fault = s.fault := by
  unfold State.useZeros; split <;> rfl
@[simp] theorem State.useZeros_rx (s : State) : s.useZeros.rx = s.rx := by
  unfold State.useZeros; split <;> rfl
@[simp] theorem State.useZeros_inbox (s : State) : s.useZeros.inbox = s.inbox := by
  unfold State.useZeros; split <;> rfl
@[simp] theorem State.useZeros_spi_txbuf (s : State) : s.useZeros.spi.txbuf = s.spi.txbuf := by
  unfold State.useZeros; split <;> rfl
@[simp] theorem State.useZeros_spi_txdone (s : State) : s.useZeros.spi.txdone = s.spi.txdone := by
  unfold State.useZeros; split <;> rfl
@[simp] theorem State.useZeros_spi_inFlight (s : State) : s.useZeros.spi.inFlight = s.spi.inFlight := by
  unfold State.useZeros; split <;> rfl

end Sys2Proof.Machine
end

