-- ==== Sys2Proof/Laws/Ops.lean ====
section
/-! SUPPORT. The shared operations of the sequencer: what emitting a run of events does, what `transmit` does
in either transport, and how step lists compose. -/

namespace Sys2Proof.Machine

open Sys2Proof

/-! ### Emitting a run of events -/

@[simp] theorem State.emitAll_nil (s : State) : s.emitAll [] = s := rfl

@[simp] theorem State.emitAll_cons (e : BusEvent) (es : List BusEvent) (s : State) :
    s.emitAll (e :: es) = (s.emit e).emitAll es := rfl

/-- The receiver after hearing a run of events. -/
def Rx.hearAll (c : Config) : Lines → List BusEvent → Rx → Rx
  | _, [], rx => rx
  | lv, e :: es, rx => (rx.hear c lv e).hearAll c (lv.after e) es

/-- Emitting touches the trace, the lines and the receiver, and nothing else. -/
theorem State.emitAll_eq (es : List BusEvent) (s : State) :
    s.emitAll es = { s with
      trace := s.trace ++ es
      lines := s.lines.afterAll es
      rx := s.rx.hearAll s.cfg s.lines es } := by
  induction es generalizing s with
  | nil => simp [Rx.hearAll]
  | cons e es ih => rw [State.emitAll_cons, ih]; simp [State.emit, Rx.hearAll]

theorem Rx.decoder_keepSerial (rx : Rx) (lv : Lines) (sh : Shift8) (nb : Fin 8) (h : rx.undef = none) :
    (rx.keepSerial sh (some nb)).decoder lv = ⟨lv, sh, nb⟩ := by
  simp [Rx.keepSerial, h, Rx.withSerial, Rx.decoder]

/-- Hearing a run of events is receiving its frames; the serial register follows the projection, unless the
receiver is undefined (R240 to R242). -/
theorem Rx.hearAll_eq (c : Config) (lv : Lines) (es : List BusEvent) (rx : Rx) :
    ∃ nb, nb.getD 0 = ((rx.decoder lv).afterAll es).nb ∧
      rx.hearAll c lv es =
        (rx.receiveAll c ((rx.decoder lv).run es)).keepSerial ((rx.decoder lv).afterAll es).sh nb := by
  induction es generalizing rx lv with
  | nil =>
    refine ⟨rx.nbits, rfl, ?_⟩
    have h : rx.withSerial (rx.decoder lv).sh rx.nbits = rx := rfl
    rw [Rx.hearAll, Decoder.run_nil, Rx.receiveAll_nil, Rx.keepSerial, Decoder.afterAll_nil, h, ite_self]
  | cons e es ih =>
    by_cases hu : rx.undef.isSome = true
    · have hh : ∀ lv' es', rx.hearAll c lv' es' = rx := by
        intro lv' es'
        induction es' generalizing lv' with
        | nil => rfl
        | cons e' es' ih' =>
          rw [Rx.hearAll, Rx.hear_eq, Rx.receiveAll_of_undef c _ hu]
          simp [Rx.keepSerial, hu, ih']
      refine ⟨some ((rx.decoder lv).afterAll (e :: es)).nb, rfl, ?_⟩
      rw [hh, Rx.receiveAll_of_undef c _ hu]
      simp [Rx.keepSerial, hu]
    · have hu : rx.undef = none := by simpa using hu
      obtain ⟨nb, h1, h2⟩ := ih (lv.after e) (rx.hear c lv e)
      rw [Rx.hearAll, Decoder.run_cons, Decoder.afterAll_cons, Rx.receiveAll_append]
      cases hr : (rx.receiveAll c ((rx.decoder lv).out e)).undef with
      | some r =>
        have hb : rx.hear c lv e = rx.receiveAll c ((rx.decoder lv).out e) := by
          rw [Rx.hear_eq]; simp [Rx.keepSerial, hr]
        refine ⟨some (((rx.decoder lv).next e).afterAll es).nb, rfl, ?_⟩
        have h3 : ∀ X, (rx.receiveAll c ((rx.decoder lv).out e)).receiveAll c X =
            rx.receiveAll c ((rx.decoder lv).out e) := fun X => Rx.receiveAll_of_undef c X (by simp [hr])
        rw [h2, hb, h3, h3]
        simp [Rx.keepSerial, hr]
      | none =>
        have hd : (rx.hear c lv e).decoder (lv.after e) = (rx.decoder lv).next e := by
          rw [Rx.hear_eq, Rx.decoder_keepSerial _ _ _ _ hr]
          have : ((rx.decoder lv).next e).lv = lv.after e := by simp [Rx.decoder]
          rw [← this]
        rw [hd] at h1 h2
        refine ⟨nb, h1, ?_⟩
        rw [h2, Rx.hear_eq]
        have hk : (rx.receiveAll c ((rx.decoder lv).out e)).keepSerial ((rx.decoder lv).next e).sh
            (some ((rx.decoder lv).next e).nb) =
            (rx.receiveAll c ((rx.decoder lv).out e)).withSerial ((rx.decoder lv).next e).sh
            (some ((rx.decoder lv).next e).nb) := by simp [Rx.keepSerial, hr]
        rw [hk, Rx.receiveAll_withSerial c _ _ _ _ _ hr]

/-- The receiver after a run of events that begins and ends between bytes. -/
theorem Rx.hearAll_sansSerial (c : Config) (lv : Lines) (es : List BusEvent) (rx : Rx)
    (h : rx.nbits.getD 0 = 0) :
    (rx.hearAll c lv es).sansSerial = (rx.receiveAll c (projFrom lv es)).sansSerial := by
  obtain ⟨nb, -, h2⟩ := rx.hearAll_eq c lv es
  rw [h2, Decoder.run_eq_projFrom _ h]
  unfold Rx.keepSerial
  split <;> rfl

theorem Decoder.afterAll_nb (d : Decoder) (h : d.nb = 0) (es : List BusEvent) :
    (d.afterAll es).nb = (Decoder.afterAll ⟨d.lv, Shift8.zero, 0⟩ es).nb :=
  (Decoder.Same.afterAll (d := d) (d' := ⟨d.lv, Shift8.zero, 0⟩) ⟨rfl, h, by rw [h]; rfl⟩ es).2.1

theorem Rx.hearAll_aligned (c : Config) (lv : Lines) (es : List BusEvent) (rx : Rx)
    (h : rx.nbits.getD 0 = 0) (he : (Decoder.afterAll ⟨lv, Shift8.zero, 0⟩ es).nb = 0) :
    (rx.hearAll c lv es).nbits.getD 0 = 0 := by
  obtain ⟨nb, h1, h2⟩ := rx.hearAll_eq c lv es
  rw [Decoder.afterAll_nb _ h] at h1
  have h1' : nb.getD 0 = 0 := h1.trans he
  rw [h2]
  unfold Rx.keepSerial
  split
  · rename_i hu
    cases hr : rx.undef with
    | some r => rw [Rx.receiveAll_of_undef c _ (by simp [hr])]; exact h
    | none =>
      obtain ⟨r, hr'⟩ := Option.isSome_iff_exists.1 hu
      rw [Rx.receiveAll_undef_blank c _ hr hr']; rfl
  · exact h1'

/-! ### Step lists -/

@[simp] theorem State.runSteps_nil (s : State) : s.runSteps [] = s := rfl

theorem State.runSteps_cons (p : Prim) (ps : List Prim) (s : State) :
    s.runSteps (p :: ps) = if (s.prim p).fault.isSome then s.prim p else (s.prim p).runSteps ps := rfl

/-- A list run after another, unless the first ended in a fault. -/
theorem State.runSteps_append (ps qs : List Prim) (s : State) :
    s.fault = none → s.runSteps (ps ++ qs) =
      if (s.runSteps ps).fault.isSome then s.runSteps ps else (s.runSteps ps).runSteps qs := by
  induction ps generalizing s with
  | nil => intro h; simp [h]
  | cons p ps ih =>
    intro _
    rw [List.cons_append, State.runSteps_cons, State.runSteps_cons]
    by_cases h : (s.prim p).fault.isSome = true
    · simp [h]
    · simp only [h, Bool.false_eq_true, if_false]
      exact ih _ (by simpa using h)

/-! ### `transmit` (40_transport.md) -/

/-- What is transmitted reaches the bus as these events (R101, R102). -/
def byteEvents (c : Config) (b : Byte) : List BusEvent :=
  match c.transport with
  | .bitbang => bitbangEvents c.tBit b
  | .hw => [.txByte b]

/-- Everything `transmit` can do: the byte's events go out; the peripheral, the free counter, the transport's local
and `pc` may change; in HW a fault may be raised, `TX_TIMEOUT` of that byte. -/
theorem State.transmit_spec (b : Byte) (s : State) :
    ∃ spi ctr locals pc fault, s.transmit b =
        { s.emitAll (byteEvents s.cfg b) with
          spi := spi, freeCtr := ctr, locals := locals, pc := pc, fault := fault } ∧
      (s.cfg.transport = .bitbang → spi = s.spi ∧ ctr = s.freeCtr ∧ locals = { s.locals with bit := some 0 } ∧
        fault = s.fault ∧ pc = s.pc + (bitbangEvents s.cfg.tBit b).length) ∧
      (s.cfg.transport = .hw → (∃ n, locals = { s.locals with polls := some n }) ∧ spi.txbuf = some b ∧
        (fault = s.fault ∧ spi.txdone = some true ∧ spi.inFlight = none ∨
          fault = some ⟨.txTimeout b, s.op, pc⟩ ∧ spi.txdone = some false ∧ s.cfg.txWaitBound ≠ none)) := by
  unfold State.transmit byteEvents
  cases ht : s.cfg.transport with
  | bitbang =>
    refine ⟨s.spi, s.freeCtr, { s.locals with bit := some 0 }, s.pc + (bitbangEvents s.cfg.tBit b).length, s.fault, ?_,
      fun _ => ⟨rfl, rfl, rfl, rfl, rfl⟩, fun h => by cases h⟩
    simp only [State.transmitBitbang, State.advancePc, State.emitAll_eq]
  | hw =>
    simp only [State.transmitHw]
    obtain ⟨sched, n, hz⟩ := ((s.writeTxbuf b).advancePc 1).useZeros_frame
    rw [hz]
    split
    · rename_i hto
      refine ⟨_, _, _, _, _, by rfl, (fun h => ?_), (fun _ => ⟨⟨_, rfl⟩, rfl, .inr ⟨rfl, rfl, ?_⟩⟩)⟩
      · cases h
      · intro hn
        rw [hn] at hto
        cases hto
    · refine ⟨_, _, _, _, _, by rfl, (fun h => ?_), (fun _ => ⟨⟨_, rfl⟩, rfl, .inl ⟨rfl, rfl, rfl⟩⟩)⟩
      cases h

/-- A transfer that cannot time out raises no fault. -/
theorem State.transmit_fault {b : Byte} {s : State} (h : s.Untimed) :
    (s.transmit b).fault = s.fault := by
  obtain ⟨spi, ctr, locals, pc, fault, he, hb, hw⟩ := s.transmit_spec b
  rw [he]
  cases ht : s.cfg.transport with
  | bitbang => exact (hb ht).2.2.2.1
  | hw =>
    rcases (hw ht).2.2 with h' | ⟨-, -, h'⟩
    · exact h'.1
    · rcases h with h | h
      · rw [ht] at h; cases h
      · exact (h' h).elim

end Sys2Proof.Machine
end

