-- ==== Sys2Proof/Laws/Run.lean ====
section
/-! SUPPORT. What a flattened step list does: the frames it puts on the bus, the control lines it leaves and
the fault it ends in, read off the list without any state. -/

namespace Sys2Proof.Machine

open Sys2Proof

/-! ### A stretch of a run -/

/-- A stretch of a run that carried `es`: whole bytes only, the receiver heard it, and nothing else but
`pc`, the locals, the fault and in HW the peripheral moved. -/
structure State.Went (s t : State) (es : List BusEvent) : Prop where
  carried : State.Carried s t es
  whole : (Decoder.afterAll ⟨s.lines, Shift8.zero, 0⟩ es).nb = 0
  heard : State.Heard s t es
  kept : State.Kept s t
  op : t.op = s.op

theorem projFrom_append {lv : Lines} {es : List BusEvent} (fs : List BusEvent)
    (h : (Decoder.afterAll ⟨lv, Shift8.zero, 0⟩ es).nb = 0) :
    projFrom lv (es ++ fs) = projFrom lv es ++ projFrom (lv.afterAll es) fs := by
  unfold projFrom
  rw [Decoder.run_append, Decoder.run_eq_projFrom _ h]
  simp [projFrom]

theorem State.Went.refl {s : State} (h : s.Aligned) : State.Went s s [] where
  carried := ⟨by simp, rfl⟩
  whole := rfl
  heard := ⟨h, rfl⟩
  kept := ⟨rfl, rfl, fun _ => ⟨rfl, rfl⟩⟩
  op := rfl

theorem State.Kept.trans {s u t : State} (h : State.Kept s u) (g : State.Kept u t) : State.Kept s t := by
  obtain ⟨h1, h2, h3⟩ := h
  obtain ⟨g1, g2, g3⟩ := g
  refine ⟨g1.trans h1, g2.trans h2, fun hb => ?_⟩
  have hb' := g3 (by rw [h1]; exact hb)
  have hb := h3 hb
  exact ⟨hb'.1.trans hb.1, hb'.2.trans hb.2⟩

theorem State.Went.trans {s u t : State} {es fs : List BusEvent} (h : State.Went s u es)
    (g : State.Went u t fs) : State.Went s t (es ++ fs) := by
  have hl : u.lines = s.lines.afterAll es := h.carried.2
  refine ⟨⟨?_, ?_⟩, ?_, ⟨g.heard.1, ?_⟩, h.kept.trans g.kept, g.op.trans h.op⟩
  · rw [g.carried.1, h.carried.1, List.append_assoc]
  · rw [g.carried.2, hl, Lines.afterAll_append]
  · rw [Decoder.afterAll_append, Decoder.afterAll_nb _ h.whole]
    have := g.whole
    rw [hl] at this
    simpa using this
  · rw [g.heard.2, projFrom_append _ h.whole, Rx.receiveAll_append, h.kept.1, hl]
    exact Rx.receiveAll_congr _ _ h.heard.2

/-- Two states that agree on what a stretch is about. -/
theorem State.Went.of_eq {s t u : State} {es : List BusEvent} (h : State.Went s t es)
    (h1 : u.trace = t.trace) (h2 : u.lines = t.lines) (h3 : u.rx = t.rx) (h4 : State.Kept t u)
    (h5 : u.op = t.op) : State.Went s u es where
  carried := ⟨h1.trans h.carried.1, h2.trans h.carried.2⟩
  whole := h.whole
  heard := ⟨by unfold State.Aligned; rw [h3]; exact h.heard.1, by rw [h3]; exact h.heard.2⟩
  kept := h.kept.trans h4
  op := h5.trans h.op

/-- Whole bytes emitted. -/
theorem State.went_emitAll {s : State} (ha : s.Aligned) {es : List BusEvent}
    (h : (Decoder.afterAll ⟨s.lines, Shift8.zero, 0⟩ es).nb = 0) : State.Went s (s.emitAll es) es := by
  rw [State.emitAll_eq]
  exact ⟨⟨rfl, rfl⟩, h, ⟨Rx.hearAll_aligned _ _ _ _ ha h, Rx.hearAll_sansSerial _ _ _ _ ha⟩,
    ⟨rfl, rfl, fun _ => ⟨rfl, rfl⟩⟩, rfl⟩

/-! ### The control lines -/

/-- The levels of `CS`, `DC` and `RST`. -/
structure Ctl where
  cs : Level
  dc : Level
  rst : Level
  deriving DecidableEq, Repr

/-- The control lines of five lines. -/
def Lines.ctl (lv : Lines) : Ctl := ⟨lv.cs, lv.dc, lv.rst⟩

/-- The idle levels. -/
def Ctl.rest : Ctl := ⟨.high, .high, .high⟩

theorem Lines.idle_iff (lv : Lines) : lv.idle = true ↔ lv.ctl = Ctl.rest := by
  simp [Lines.idle, Lines.ctl, Ctl.rest, and_assoc]

/-- A control line driven; the serial lines are none. -/
def Ctl.drive (k : Ctl) (l : Line) (v : Bool) : Ctl :=
  match l with
  | .cs => { k with cs := .ofBool v }
  | .dc => { k with dc := .ofBool v }
  | .rst => { k with rst := .ofBool v }
  | .sck | .sdo => k

/-- A step that leaves the serial lines to the transport (10_state.md R22). -/
def Prim.ordinary : Prim → Bool
  | .drive .sck _ | .drive .sdo _ => false
  | .drive .cs _ | .drive .dc _ | .drive .rst _ => true
  | .delay _ | .transmit _ | .checkIdle | .raise _ | .assign _ => true

/-- The frames of a step, the bit waits aside. -/
def Prim.frames (k : Ctl) : Prim → List FrameEvent
  | .drive .cs true => if k.cs = .high then [] else [.csRise]
  | .drive .cs false => if k.cs = .low then [] else [.csFall]
  | .drive .rst true => if k.rst = .high then [] else [.rstHigh]
  | .drive .rst false => if k.rst = .low then [] else [.rstLow]
  | .drive .dc _ | .drive .sck _ | .drive .sdo _ => []
  | .delay t => if t = .bit then [] else [.wait t]
  | .transmit b => if k.cs = .low then [byteEvent k.dc (some b)] else []
  | .checkIdle | .raise _ | .assign _ => []

/-- The control lines after a step. -/
def Prim.ctl (k : Ctl) : Prim → Ctl
  | .drive l v => k.drive l v
  | .delay _ | .transmit _ | .checkIdle | .raise _ | .assign _ => k

/-- The fault a step raises, timeouts aside. -/
def Prim.fault (k : Ctl) : Prim → Option FaultCode
  | .checkIdle => if k = Ctl.rest then none else some (.linesNotIdle k.cs k.dc k.rst)
  | .raise code => some code
  | .drive _ _ | .delay _ | .transmit _ | .assign _ => none

/-- What a step list does. -/
structure Ran where
  frames : List FrameEvent
  ctl : Ctl
  fault : Option FaultCode
  deriving DecidableEq, Repr

/-- What a step list does from control lines at `k`. -/
def Ctl.run : Ctl → List Prim → Ran
  | k, [] => ⟨[], k, none⟩
  | k, p :: ps =>
    match p.fault k with
    | some code => ⟨[], k, some code⟩
    | none => ⟨p.frames k ++ ((p.ctl k).run ps).frames, ((p.ctl k).run ps).ctl, ((p.ctl k).run ps).fault⟩

/-- One list after another. -/
def Ran.next (r : Ran) (qs : List Prim) : Ran :=
  match r.fault with
  | some _ => r
  | none => ⟨r.frames ++ (r.ctl.run qs).frames, (r.ctl.run qs).ctl, (r.ctl.run qs).fault⟩

theorem Ctl.run_append (k : Ctl) (ps qs : List Prim) : k.run (ps ++ qs) = (k.run ps).next qs := by
  induction ps generalizing k with
  | nil => simp [Ctl.run, Ran.next]
  | cons p ps ih =>
    rw [List.cons_append, Ctl.run, Ctl.run]
    cases p.fault k with
    | some c => rfl
    | none =>
      simp only [ih, Ran.next]
      cases h : ((p.ctl k).run ps).fault <;> simp [h]

/-! ### One step -/

/-- The steps of a stretch raise no other fault than their own or a timeout. -/
def State.TimedOut (s t : State) : Prop :=
  s.cfg.transport = .hw ∧ s.cfg.txWaitBound ≠ none ∧ ∃ b, t.fault.map FaultRecord.code = some (.txTimeout b)

/-- What a fault raised in a stretch records (60_exceptions.md R284). -/
def State.Recorded (t : State) : Prop := ∀ r, t.fault = some r → r.op = t.op ∧ r.pc = t.pc

theorem Decoder.bitbang_whole (lv : Lines) (tBit : Nat) (b : Byte) :
    (Decoder.afterAll ⟨lv, Shift8.zero, 0⟩ (bitbangEvents tBit b)).nb = 0 := by
  by_cases h : lv.cs = .low
  · rw [Decoder.afterAll_bitbang _ _ _ h rfl]
  · rw [(Decoder.bitbang_idle _ _ _ h).1]

/-- The bus carries a byte as one byte event in either transport (40_transport.md R106). -/
theorem byteEvents_spec (c : Config) (lv : Lines) (b : Byte) :
    (Decoder.afterAll ⟨lv, Shift8.zero, 0⟩ (byteEvents c b)).nb = 0 ∧
      dropBitWaits (projFrom lv (byteEvents c b)) = (Prim.transmit b).frames lv.ctl ∧
      (lv.afterAll (byteEvents c b)).ctl = lv.ctl := by
  unfold byteEvents
  cases c.transport with
  | bitbang =>
    refine ⟨Decoder.bitbang_whole _ _ _, ?_, by simp [Lines.afterAll_bitbang, Lines.ctl]⟩
    by_cases h : lv.cs = .low
    · rw [projFrom, Decoder.run_bitbang _ _ _ h rfl]
      have : dropBitWaits [byteEvent lv.dc (some b)] = [byteEvent lv.dc (some b)] := by
        cases lv.dc <;> rfl
      rw [dropBitWaits_append, dropBitWaits_append, dropBitWaits_byteWaits, dropBitWaits_byteWaits, this]
      simp [Prim.frames, Lines.ctl, h]
    · rw [projFrom, (Decoder.bitbang_idle _ _ _ h).2]
      simp [Prim.frames, Lines.ctl, h]
  | hw =>
    refine ⟨rfl, ?_, rfl⟩
    rcases lv with ⟨cs, dc, rst, sck, sdo⟩
    by_cases h : cs = .low
    · subst h
      cases dc <;> rfl
    · simp [projFrom, Decoder.out, Prim.frames, Lines.ctl, h, dropBitWaits]

/-- Everything one step can do. -/
theorem State.prim_spec {p : Prim} (hp : p.ordinary = true) {s : State} (h : s.fault = none)
    (ha : s.Aligned) :
    ∃ es, State.Went s (s.prim p) es ∧ (s.prim p).Recorded ∧
      (dropBitWaits (projFrom s.lines es) = p.frames s.lines.ctl) ∧
      (s.prim p).lines.ctl = p.ctl s.lines.ctl ∧
      ((s.prim p).fault.map FaultRecord.code = p.fault s.lines.ctl ∨ State.TimedOut s (s.prim p)) := by
  have noRec : ∀ {t : State}, t.fault = none → t.Recorded := fun ht r hr => by rw [ht] at hr; cases hr
  have one : ∀ e : BusEvent, (Decoder.afterAll ⟨s.lines, Shift8.zero, 0⟩ [e]).nb = 0 →
      State.Went s ((s.emit e).advancePc 1) [e] := fun e he =>
    (State.went_emitAll ha he).of_eq rfl rfl rfl ⟨rfl, rfl, fun _ => ⟨rfl, rfl⟩⟩ rfl
  cases p with
  | drive l v =>
    refine ⟨[.drive l v], one _ ?_, noRec h, ?_, ?_, .inl ?_⟩
    · rcases l with _ | _ | _ | _ | _ <;> rcases v with _ | _ <;> simp [Prim.ordinary] at hp <;>
        simp [Decoder.next]
    · rcases l with _ | _ | _ | _ | _ <;> rcases v with _ | _ <;> simp [Prim.ordinary] at hp <;>
        simp only [projFrom, Decoder.run_cons, Decoder.run_nil, List.append_nil, Decoder.out, Prim.frames,
          Lines.ctl, if_true, List.nil_append] <;> (try rfl) <;> (split <;> simp_all [dropBitWaits])
    · rcases l with _ | _ | _ | _ | _ <;> rfl
    · simp [State.prim, h, Prim.fault]
  | delay t =>
    refine ⟨[.delay t], one _ rfl, noRec h, ?_, rfl, .inl ?_⟩
    · cases t <;> rfl
    · simp [State.prim, h, Prim.fault]
  | transmit b =>
    obtain ⟨w, hf, hc⟩ := byteEvents_spec s.cfg s.lines b
    obtain ⟨spi, ctr, locals, pc, fault, he, hb, hw⟩ := s.transmit_spec b
    have hprim : s.prim (.transmit b) = s.transmit b := rfl
    rw [hprim, he]
    refine ⟨byteEvents s.cfg b, (State.went_emitAll ha w).of_eq rfl rfl rfl ?_ rfl, ?_, hf, ?_, ?_⟩
    · rw [State.emitAll_eq]
      exact ⟨rfl, rfl, fun hm => ⟨(hb hm).1, (hb hm).2.1⟩⟩
    · intro r hr
      rw [State.emitAll_eq]
      simp only at hr ⊢
      cases hm : s.cfg.transport with
      | bitbang => rw [(hb hm).2.2.2.1, h] at hr; cases hr
      | hw =>
        rcases (hw hm).2.2 with h' | ⟨h', -⟩
        · rw [h'.1, h] at hr; cases hr
        · rw [h'] at hr; cases hr; exact ⟨rfl, rfl⟩
    · rw [State.emitAll_eq]; exact hc
    · cases hm : s.cfg.transport with
      | bitbang => left; simp only [(hb hm).2.2.2.1, h]; rfl
      | hw =>
        rcases (hw hm).2.2 with h' | ⟨h', -, h''⟩
        · left; simp only [h'.1, h]; rfl
        · right; exact ⟨hm, h'', b, by simp only [h']; rfl⟩
  | checkIdle =>
    by_cases hi : s.lines.idle = true
    · have : s.prim .checkIdle = s := by simp [State.prim, State.checkIdle, hi]
      rw [this]
      exact ⟨[], .refl ha, noRec h, rfl, rfl, .inl (by
        simp [Prim.fault, (Lines.idle_iff _).1 hi, h])⟩
    · have : s.prim .checkIdle = s.raise (.linesNotIdle s.lines.cs s.lines.dc s.lines.rst) := by
        simp [State.prim, State.checkIdle, hi]
      rw [this]
      refine ⟨[], (State.Went.refl ha).of_eq rfl rfl rfl ⟨rfl, rfl, fun _ => ⟨rfl, rfl⟩⟩ rfl, ?_, rfl, rfl,
        .inl ?_⟩
      · intro r hr; cases hr; exact ⟨rfl, rfl⟩
      · have hk : s.lines.ctl ≠ Ctl.rest := fun e => hi ((Lines.idle_iff _).2 e)
        simp only [Prim.fault, if_neg hk]; rfl
  | raise code =>
    refine ⟨[], (State.Went.refl ha).of_eq rfl rfl rfl ⟨rfl, rfl, fun _ => ⟨rfl, rfl⟩⟩ rfl, ?_, rfl, rfl,
      .inl rfl⟩
    intro r hr; cases hr; exact ⟨rfl, rfl⟩
  | assign a =>
    exact ⟨[], (State.Went.refl ha).of_eq rfl rfl rfl ⟨rfl, rfl, fun _ => ⟨rfl, rfl⟩⟩ rfl, noRec h, rfl, rfl,
      .inl (by simp [State.prim, h, Prim.fault])⟩

/-! ### A step list -/

/-- Everything a step list can do: what the list says (`Ctl.run`), or a transfer that timed out on the way. -/
theorem State.runSteps_spec {ps : List Prim} (hp : ∀ p ∈ ps, p.ordinary = true) {s : State}
    (h : s.fault = none) (ha : s.Aligned) :
    ∃ es, State.Went s (s.runSteps ps) es ∧ (s.runSteps ps).Recorded ∧
      (dropBitWaits (projFrom s.lines es) = (s.lines.ctl.run ps).frames ∧
        (s.runSteps ps).lines.ctl = (s.lines.ctl.run ps).ctl ∧
        (s.runSteps ps).fault.map FaultRecord.code = (s.lines.ctl.run ps).fault ∨
      State.TimedOut s (s.runSteps ps) ∧
        dropBitWaits (projFrom s.lines es) <+: (s.lines.ctl.run ps).frames) := by
  induction ps generalizing s with
  | nil =>
    refine ⟨[], .refl ha, ?_, .inl ⟨rfl, rfl, by simp [h, Ctl.run]⟩⟩
    intro r hr
    rw [State.runSteps_nil, h] at hr
    cases hr
  | cons p ps ih =>
    obtain ⟨es, hw, hr, hf, hc, hx⟩ := State.prim_spec (hp p (by simp)) h ha
    rw [State.runSteps_cons]
    rcases hx with hx | hx
    · cases hq : p.fault s.lines.ctl with
      | some code =>
        rw [hq] at hx
        have hs : (s.prim p).fault.isSome = true := by
          cases hh : (s.prim p).fault with
          | none => rw [hh] at hx; cases hx
          | some _ => rfl
        rw [if_pos hs]
        refine ⟨es, hw, hr, .inl ⟨?_, ?_, ?_⟩⟩
        · rw [hf, Ctl.run, hq]
          cases p <;> simp [Prim.fault] at hq <;> rfl
        · rw [hc, Ctl.run, hq]
          cases p <;> simp [Prim.fault] at hq <;> rfl
        · rw [hx, Ctl.run, hq]
      | none =>
        rw [hq] at hx
        have hn : (s.prim p).fault = none := by
          cases hh : (s.prim p).fault with
          | none => rfl
          | some _ => rw [hh] at hx; cases hx
        rw [if_neg (by simp [hn])]
        obtain ⟨fs, gw, gr, gx⟩ := ih (fun q hq => hp q (by simp [hq])) hn hw.heard.1
        refine ⟨es ++ fs, hw.trans gw, gr, ?_⟩
        rcases gx with ⟨g1, g2, g3⟩ | ⟨⟨g1, g2, g3⟩, gp⟩
        · left
          rw [Ctl.run, hq]
          simp only
          rw [hc] at g1 g2 g3
          refine ⟨?_, g2, g3⟩
          rw [projFrom_append _ hw.whole, dropBitWaits_append, hf, ← hw.carried.2, g1]
        · right
          rw [hw.kept.1] at g1 g2
          refine ⟨⟨g1, g2, g3⟩, ?_⟩
          rw [projFrom_append _ hw.whole, dropBitWaits_append, hf, ← hw.carried.2, Ctl.run, hq]
          rw [hc] at gp
          exact List.prefix_append_right_inj _ |>.2 gp
    · have hs : (s.prim p).fault.isSome = true := by
        obtain ⟨-, -, b, hb⟩ := hx
        cases hh : (s.prim p).fault with
        | none => rw [hh] at hb; cases hb
        | some _ => rfl
      rw [if_pos hs]
      refine ⟨es, hw, hr, .inr ⟨hx, ?_⟩⟩
      rw [hf, Ctl.run]
      cases hq : p.fault s.lines.ctl with
      | none => exact List.prefix_append _ _
      | some code =>
        have : p.frames s.lines.ctl = [] := by cases p <;> simp [Prim.fault] at hq <;> rfl
        rw [this]

theorem State.not_timedOut {s t : State} (h : s.Untimed) : ¬State.TimedOut s t := by
  rintro ⟨h1, h2, -⟩
  rcases h with h | h
  · rw [h] at h1; cases h1
  · exact h2 h

/-! ### The serial side (40_transport.md R104, R101) -/

/-- The byte a step transmits. -/
def Prim.sent? : Prim → Option Byte
  | .transmit b => some b
  | .drive _ _ | .delay _ | .checkIdle | .raise _ | .assign _ => none

/-- The last byte a step list transmits before it ends. -/
def Ctl.lastSent : Ctl → List Prim → Option Byte
  | _, [] => none
  | k, p :: ps =>
    match p.fault k with
    | some _ => none
    | none => ((p.ctl k).lastSent ps).or p.sent?

/-- What a stretch that last sent `b` leaves of the serial lines and of the peripheral. -/
def State.SentLast (s t : State) : Option Byte → Prop
  | none => t.lines.sck = s.lines.sck ∧ t.lines.sdo = s.lines.sdo ∧ t.spi = s.spi
  | some b =>
    (s.cfg.transport = .bitbang →
      t.lines.sck = .high ∧ t.lines.sdo = .ofBool (b.getLsbD 0) ∧ t.spi = s.spi) ∧
    (s.cfg.transport = .hw → t.lines.sck = .unknown ∧ t.lines.sdo = .unknown ∧
      t.spi.txbuf = some b ∧ t.spi.txdone = some true ∧ t.spi.inFlight = none)

theorem State.SentLast.trans {s u t : State} {a b : Option Byte} (hc : u.cfg = s.cfg)
    (h : State.SentLast s u a) (g : State.SentLast u t b) : State.SentLast s t (b.or a) := by
  cases b with
  | some b =>
    refine ⟨fun hm => ?_, fun hm => ?_⟩
    · have g1 := g.1 (by rw [hc]; exact hm)
      refine ⟨g1.1, g1.2.1, g1.2.2.trans ?_⟩
      cases a with
      | none => exact h.2.2
      | some a => exact (h.1 hm).2.2
    · exact g.2 (by rw [hc]; exact hm)
  | none =>
    obtain ⟨g1, g2, g3⟩ := g
    cases a with
    | none => exact ⟨g1.trans h.1, g2.trans h.2.1, g3.trans h.2.2⟩
    | some a =>
      refine ⟨fun hm => ?_, fun hm => ?_⟩
      · have h1 := h.1 hm
        exact ⟨g1.trans h1.1, g2.trans h1.2.1, g3.trans h1.2.2⟩
      · have h1 := h.2 hm
        rw [SentLast, g1, g2, g3] at *
        exact h1

theorem State.prim_sentLast {p : Prim} (hp : p.ordinary = true) {s : State} (hu : s.Untimed) :
    State.SentLast s (s.prim p) p.sent? := by
  cases p with
  | drive l v => rcases l with _ | _ | _ | _ | _ <;> (try cases hp) <;> exact ⟨rfl, rfl, rfl⟩
  | delay t => exact ⟨rfl, rfl, rfl⟩
  | checkIdle =>
    have hs : s.prim .checkIdle = s ∨ ∃ c, s.prim .checkIdle = s.raise c := by
      by_cases hi : s.lines.idle = true
      · exact .inl (by simp [State.prim, State.checkIdle, hi])
      · exact .inr ⟨_, by simp only [State.prim, State.checkIdle, hi]; rfl⟩
    rcases hs with hs | ⟨c, hs⟩ <;> rw [hs] <;> exact ⟨rfl, rfl, rfl⟩
  | raise c => exact ⟨rfl, rfl, rfl⟩
  | assign a => exact ⟨rfl, rfl, rfl⟩
  | transmit b =>
    obtain ⟨spi, ctr, locals, pc, fault, he, hb, hw⟩ := s.transmit_spec b
    have hprim : s.prim (.transmit b) = s.transmit b := rfl
    rw [hprim, he]
    refine ⟨fun hm => ?_, fun hm => ?_⟩
    · rw [State.emitAll_eq]
      simp only [byteEvents, hm, Lines.afterAll_bitbang, (hb hm).1, and_self]
    · rw [State.emitAll_eq]
      have h1 := hw hm
      rcases h1.2.2 with h2 | ⟨-, -, h2⟩
      · simp only [byteEvents, hm, Lines.afterAll_cons, Lines.afterAll_nil, Lines.after]
        exact ⟨trivial, trivial, h1.2.1, h2.2.1, h2.2.2⟩
      · rcases hu with hu | hu
        · rw [hm] at hu; cases hu
        · exact (h2 hu).elim

/-- What a step list leaves of the serial side, when no transfer can time out. -/
theorem State.runSteps_sentLast {ps : List Prim} (hp : ∀ p ∈ ps, p.ordinary = true) {s : State}
    (h : s.fault = none) (ha : s.Aligned) (hu : s.Untimed)
    (hr : (s.lines.ctl.run ps).fault = none) :
    State.SentLast s (s.runSteps ps) (s.lines.ctl.lastSent ps) := by
  induction ps generalizing s with
  | nil => exact ⟨rfl, rfl, rfl⟩
  | cons p ps ih =>
    have hop := hp p (by simp)
    obtain ⟨es, hw, -, -, hc, hx⟩ := State.prim_spec hop h ha
    rw [State.runSteps_cons]
    have hx := hx.resolve_right (State.not_timedOut hu)
    rw [Ctl.run] at hr
    cases hq : p.fault s.lines.ctl with
    | some code => rw [hq] at hr; cases hr
    | none =>
      rw [hq] at hx hr
      have hn : (s.prim p).fault = none := by
        cases hh : (s.prim p).fault with
        | none => rfl
        | some _ => rw [hh] at hx; cases hx
      have hl : s.lines.ctl.lastSent (p :: ps) = ((p.ctl s.lines.ctl).lastSent ps).or p.sent? := by
        simp only [Ctl.lastSent, hq]
      rw [if_neg (by simp [hn]), hl]
      have hu' : (s.prim p).Untimed := by unfold State.Untimed; rw [hw.kept.1]; exact hu
      have g := ih (fun q hq => hp q (by simp [hq])) hn hw.heard.1 hu' (by rw [hc]; exact hr)
      rw [hc] at g
      exact (State.prim_sentLast hop hu).trans hw.kept.1 g

end Sys2Proof.Machine
end

