-- ==== Sys2Proof/Laws/Steps.lean ====
section
/-! SUPPORT. The step lists of the operations, read by `Ctl.run`, and what issuing and calling one does. -/

namespace Sys2Proof.Machine

open Sys2Proof

/-! ### Issuing -/

/-- An operation issued: it ends as its list says, or with a transfer that timed out. -/
theorem State.issue_spec {s : State} (hs : s.Free) (ha : s.Aligned) (hu : s.Untimed) (i : Instr)
    {ps : List Prim} (hp : ∀ p ∈ ps, p.ordinary = true) :
    ∃ t, s.issue i ps = .next t ∧ State.Kept s t ∧ State.Sent s t (s.lines.ctl.run ps).frames ∧
      t.lines.ctl = (s.lines.ctl.run ps).ctl ∧
      match (s.lines.ctl.run ps).fault with
      | none => t.fault = none ∧ t.op = .idle ∧ t.pc = 0
      | some code => t.fault = some ⟨code, .busy i, t.pc⟩ ∧ t.op = .busy i := by
  obtain ⟨hf, ho⟩ := hs
  have ha' : (s.start i).Aligned := ha
  obtain ⟨es, hw, hr, hx⟩ := State.runSteps_spec hp (s := s.start i) hf ha'
  have hx := hx.resolve_right fun ht => State.not_timedOut hu ht.1
  have hi : s.issue i ps = .next ((s.start i).runSteps ps).finish := by simp [State.issue, hf, ho]
  refine ⟨_, hi, ?_⟩
  obtain ⟨h1, h2, h3⟩ := hx
  rw [State.start_lines] at h1 h2 h3
  have hop := hw.op
  have hcar := hw.carried
  have hh := hw.heard
  have hk := hw.kept
  generalize (s.start i).runSteps ps = u at *
  cases hq : (s.lines.ctl.run ps).fault with
  | none =>
    rw [hq] at h3
    have hn : u.fault = none := by
      cases hh : u.fault with
      | none => rfl
      | some _ => rw [hh] at h3; cases h3
    rw [State.finish_of_no_fault hn]
    exact ⟨hk, ⟨es, hcar, hh, h1⟩, h2, hn, rfl, rfl⟩
  | some code =>
    rw [hq] at h3
    cases hh' : u.fault with
    | none => rw [hh'] at h3; cases h3
    | some r =>
      rw [hh'] at h3
      rw [State.finish_of_fault (by simp [hh'])]
      refine ⟨hk, ⟨es, hcar, hh, h1⟩, h2, ?_, hop⟩
      obtain ⟨h4, h5⟩ := hr r hh'
      rw [hh', ← h5]
      cases r
      simp only [Option.map_some, Option.some.injEq] at h3
      simp only at h4
      rw [h3, h4, hop]
      rfl

/-- A host operation called from idle lines. -/
theorem State.call_spec {s : State} (hs : s.Ready) (ha : s.Aligned) (hu : s.Untimed) {i : Instr}
    (hi : i.argsFit = true) {ps : List Prim} (hp : ∀ p ∈ ps, p.ordinary = true) :
    ∃ t, s.call i ps = .next t ∧ State.Kept s t ∧ State.Sent s t (Ctl.rest.run ps).frames ∧
      t.lines.ctl = (Ctl.rest.run ps).ctl ∧
      match (Ctl.rest.run ps).fault with
      | none => t.fault = none ∧ t.op = .idle ∧ t.pc = 0 ∧ t.locals = Locals.none
      | some code => t.fault = some ⟨code, .busy i, t.pc⟩ ∧ t.op = .busy i := by
  obtain ⟨t, h1, h2, h3, h4, h5⟩ := State.issue_spec hs.1 ha hu i hp
  rw [(Lines.idle_iff _).1 hs.2] at h3 h4 h5
  have hc : s.call i ps = .next t.dropLocals := by simp [State.call, hi, h1]
  refine ⟨_, hc, ?_⟩
  cases hq : (Ctl.rest.run ps).fault with
  | none =>
    rw [hq] at h5
    rw [State.dropLocals_of_no_fault h5.1]
    exact ⟨h2, h3, h4, h5.1, h5.2.1, h5.2.2, rfl⟩
  | some code =>
    rw [hq] at h5
    rw [State.dropLocals_of_fault (by simp [h5.1])]
    exact ⟨h2, h3, h4, h5⟩

/-- A host operation whose list raises no fault completes. -/
theorem State.call_completes {s : State} (hs : s.Ready) (ha : s.Aligned) (hu : s.Untimed) {i : Instr}
    (hi : i.argsFit = true) {ps : List Prim} (hp : ∀ p ∈ ps, p.ordinary = true) {fs : List FrameEvent}
    (hr : Ctl.rest.run ps = ⟨fs, Ctl.rest, none⟩) :
    ∃ t, s.call i ps = .next t ∧ State.Completed s t ∧ State.Sent s t fs := by
  obtain ⟨t, h1, h2, h3, h4, h5⟩ := State.call_spec hs ha hu hi hp
  rw [hr] at h3 h4 h5
  exact ⟨t, h1, ⟨⟨h5.1, h5.2.1, h5.2.2.1, h2⟩, (Lines.idle_iff _).2 h4, h5.2.2.2⟩, h3⟩

/-- A host operation whose list raises a fault stops there (60_exceptions.md R284). -/
theorem State.call_faults {s : State} (hs : s.Ready) (ha : s.Aligned) (hu : s.Untimed) {i : Instr}
    (hi : i.argsFit = true) {ps : List Prim} (hp : ∀ p ∈ ps, p.ordinary = true) {fs : List FrameEvent}
    {code : FaultCode} (hr : Ctl.rest.run ps = ⟨fs, Ctl.rest, some code⟩) :
    ∃ t, s.call i ps = .next t ∧ t.fault = some ⟨code, .busy i, t.pc⟩ ∧ t.op = .busy i ∧ State.Kept s t ∧
      t.lines.idle = true ∧ State.Sent s t fs := by
  obtain ⟨t, h1, h2, h3, h4, h5⟩ := State.call_spec hs ha hu hi hp
  rw [hr] at h3 h4 h5
  exact ⟨t, h1, h5.1, h5.2, h2, (Lines.idle_iff _).2 h4, h3⟩

/-! ### Lists that leave the serial lines to the transport (10_state.md R22) -/

/-- Every step of a list is ordinary. -/
def Ordinary (ps : List Prim) : Prop := ∀ p ∈ ps, p.ordinary = true

theorem Ordinary.append {ps qs : List Prim} (h : Ordinary ps) (g : Ordinary qs) : Ordinary (ps ++ qs) :=
  fun p hp => (List.mem_append.1 hp).elim (h p) (g p)

theorem Ordinary.flatMap {α : Type} {l : List α} {f : α → List Prim} (h : ∀ a, Ordinary (f a)) :
    Ordinary (l.flatMap f) := fun p hp => by
  obtain ⟨a, -, ha⟩ := List.mem_flatMap.1 hp
  exact h a p ha

theorem Ordinary.orRaise {α : Type} {v : Except FaultCode α} {f : α → List Prim} (h : ∀ a, Ordinary (f a)) :
    Ordinary (orRaise v f) := by
  cases v with
  | ok a => exact h a
  | error code => intro p hp; cases List.mem_singleton.1 hp; rfl

theorem Ordinary.check : Ordinary [.checkIdle] := fun p hp => by cases List.mem_singleton.1 hp; rfl

theorem Ordinary.raise (code : FaultCode) : Ordinary [.raise code] := fun p hp => by
  cases List.mem_singleton.1 hp; rfl

theorem Ordinary.assign (a : Assign) : Ordinary [.assign a] := fun p hp => by
  cases List.mem_singleton.1 hp; rfl

theorem Ordinary.assigns (as : List Assign) : Ordinary (as.map .assign) := fun p hp => by
  obtain ⟨a, -, rfl⟩ := List.mem_map.1 hp; rfl

theorem Ordinary.transmit (b : Byte) : Ordinary [.transmit b] := fun p hp => by
  cases List.mem_singleton.1 hp; rfl

theorem Ordinary.writeCommand (b : Byte) : Ordinary (writeCommandSteps b) := by
  simp [Ordinary, writeCommandSteps, Prim.ordinary]

theorem Ordinary.writeData (b : Byte) : Ordinary (writeDataSteps b) := by
  simp [Ordinary, writeDataSteps, Prim.ordinary]

theorem Ordinary.unpack (c : Colour) : Ordinary (unpackSteps c) := .assigns [.hi _, .lo _]

theorem Ordinary.pixel (c : Colour) : Ordinary (pixelSteps c) := by
  simp [Ordinary, pixelSteps, Prim.ordinary]

theorem Ordinary.stream {bytes : List Prim} (h : Ordinary bytes) : Ordinary (streamSteps bytes) := by
  have d : ∀ v, Ordinary [.drive .cs v] := fun v p hp => by cases List.mem_singleton.1 hp; rfl
  exact ((d false).append h).append (d true)

theorem Ordinary.writePixels (c : Colour) (n : Nat) : Ordinary (writePixelsSteps c n) := by
  refine (Ordinary.unpack c).append (.stream fun p hp => ?_)
  obtain ⟨l, hl, hp⟩ := List.mem_flatten.1 hp
  exact Ordinary.pixel c p ((List.mem_replicate.1 hl).2 ▸ hp)

theorem Ordinary.rectangle (x1 y1 x2 y2 : Byte) (c : Colour) : Ordinary (rectangleSteps x1 y1 x2 y2 c) :=
  .flatMap fun _ => (Ordinary.assign _).append (.flatMap fun _ => (Ordinary.assign _).append (.pixel c))

theorem Ordinary.address (cmd a b : Byte) : Ordinary (addressSteps cmd a b) :=
  ((((Ordinary.writeCommand cmd).append (.writeData 0)).append (.writeData a)).append (.writeData 0)).append
    (.writeData b)

theorem Ordinary.setWindow (c : Config) (x1 y1 x2 y2 : Byte) : Ordinary (setWindowSteps c x1 y1 x2 y2) :=
  ((Ordinary.check.append (.address _ _ _)).append (.address _ _ _)).append (.writeCommand _)

theorem Ordinary.fillRectangle (c : Config) (x1 y1 x2 y2 : Byte) (colour : Colour) :
    Ordinary (fillRectangleSteps c x1 y1 x2 y2 colour) := by
  unfold fillRectangleSteps
  refine Ordinary.check.append ?_
  split
  · exact .raise _
  · exact (Ordinary.setWindow _ _ _ _ _).append ((Ordinary.unpack _).append (.stream (.rectangle _ _ _ _ _)))

theorem Ordinary.drawPixel (c : Config) (x y : Byte) (colour : Colour) :
    Ordinary (drawPixelSteps c x y colour) :=
  Ordinary.check.append (.orRaise fun _ => (Ordinary.assign _).append (.orRaise fun _ =>
    (Ordinary.assign _).append ((Ordinary.setWindow _ _ _ _ _).append
      (((Ordinary.unpack _).append (.writeData _)).append (.writeData _)))))

theorem Ordinary.block (c : Config) (ox oy s : Int) (colour : Colour) :
    Ordinary (blockSteps c ox oy s colour) :=
  (Ordinary.assigns [.ox _, .oy _]).append (.orRaise fun _ => .fillRectangle _ _ _ _ _ _)

theorem Ordinary.drawBitmap (c : Config) (x y scale : Byte) (bitmap : List Colour) :
    Ordinary (drawBitmapSteps c x y scale bitmap) := by
  unfold drawBitmapSteps
  refine Ordinary.check.append ?_
  split
  · refine (Ordinary.assigns [.hdr _, .w _, .h _]).append (.flatMap fun i => (Ordinary.assign _).append
      (.flatMap fun j => (Ordinary.assign _).append ?_))
    unfold sourcePixelSteps
    split
    · exact (Ordinary.assign _).append (.block _ _ _ _ _)
    · exact .raise _
  · exact .raise _

theorem Ordinary.paint (c : Config) (x y size : Nat) (colour : Colour) (i j : Nat) :
    Ordinary (paintSteps c x y size colour i j) := by
  unfold paintSteps
  split
  · exact .orRaise fun _ => .orRaise fun _ => .drawPixel _ _ _ _
  · exact .block _ _ _ _ _

theorem Ordinary.nil : Ordinary [] := fun p hp => by cases hp

theorem Ordinary.glyphRow (c : Config) (x y size : Nat) (colour : Colour) (i : Nat) (b : Byte) (j : Nat) :
    Ordinary (glyphRowSteps c x y size colour i b j) := by
  refine ((Ordinary.assign _).append ?_).append (.assign _)
  split
  · exact .paint _ _ _ _ _ _ _
  · exact .nil

theorem Ordinary.drawChar (c : Config) (x y ch : Byte) (colour : Colour) (size : Byte) :
    Ordinary (drawCharSteps c x y ch colour size) :=
  Ordinary.check.append (.orRaise fun _ => (Ordinary.assign _).append
    (.flatMap fun _ => (Ordinary.assigns [.i _, .b _]).append (.flatMap fun _ => .glyphRow _ _ _ _ _ _ _ _)))

theorem Ordinary.text (c : Config) (x y : Byte) (colour : Colour) (size : Byte) (k : Nat) (text : List Byte) :
    Ordinary (textSteps c x y colour size k text) := by
  induction text generalizing k with
  | nil => exact .raise _
  | cons ch rest ih =>
    unfold textSteps
    refine (Ordinary.assign _).append ?_
    split
    · exact .nil
    · exact (Ordinary.orRaise fun _ => .drawChar _ _ _ _ _ _).append ((Ordinary.assign _).append (ih _))

theorem Ordinary.drawString (c : Config) (x y : Byte) (colour : Colour) (size : Byte) (text : List Byte) :
    Ordinary (drawStringSteps c x y colour size text) :=
  (Ordinary.check.append (.assign _)).append (.text _ _ _ _ _ _ _)

theorem Ordinary.init (c : Config) : Ordinary (initSteps c) := by
  simp [Ordinary, initSteps, writeCommandSteps, writeDataSteps, Prim.ordinary]

/-! ### What the lists do from the idle levels -/

/-- A list that puts `fs` out and comes back to the idle levels. -/
def Plays (ps : List Prim) (fs : List FrameEvent) : Prop := Ctl.rest.run ps = ⟨fs, Ctl.rest, none⟩

/-- A list that puts `fs` out and then raises a fault at the idle levels. -/
def Breaks (ps : List Prim) (fs : List FrameEvent) (code : FaultCode) : Prop :=
  Ctl.rest.run ps = ⟨fs, Ctl.rest, some code⟩

theorem Plays.append {ps qs : List Prim} {fs gs : List FrameEvent} (h : Plays ps fs) (g : Plays qs gs) :
    Plays (ps ++ qs) (fs ++ gs) := by
  unfold Plays at *; rw [Ctl.run_append, h]; simp [Ran.next, g]

theorem Plays.breaks {ps qs : List Prim} {fs gs : List FrameEvent} {code : FaultCode} (h : Plays ps fs)
    (g : Breaks qs gs code) : Breaks (ps ++ qs) (fs ++ gs) code := by
  unfold Plays Breaks at *; rw [Ctl.run_append, h]; simp [Ran.next, g]

theorem Breaks.append {ps : List Prim} {fs : List FrameEvent} {code : FaultCode} (h : Breaks ps fs code)
    (qs : List Prim) : Breaks (ps ++ qs) fs code := by
  unfold Breaks at *; rw [Ctl.run_append, h]; rfl

theorem Plays.nil : Plays [] [] := rfl

theorem Plays.checkIdle : Plays [.checkIdle] [] := rfl

theorem Breaks.raise (code : FaultCode) : Breaks [.raise code] [] code := rfl

/-- Assignments put nothing on the bus. -/
theorem Plays.assigns (as : List Assign) : Plays (as.map .assign) [] := by
  induction as with
  | nil => rfl
  | cons a as ih => exact Plays.append (ps := [.assign a]) (fs := []) rfl ih

/-- A list after assignments. -/
theorem Plays.after {ps : List Prim} {fs : List FrameEvent} (as : List Assign) (h : Plays ps fs) :
    Plays (as.map .assign ++ ps) fs := (Plays.assigns as).append h

theorem Breaks.after {ps : List Prim} {fs : List FrameEvent} {code : FaultCode} (as : List Assign)
    (h : Breaks ps fs code) : Breaks (as.map .assign ++ ps) fs code := (Plays.assigns as).breaks h

theorem Plays.flatMap {α : Type} {l : List α} {f : α → List Prim} {g : α → List FrameEvent}
    (h : ∀ a ∈ l, Plays (f a) (g a)) : Plays (l.flatMap f) (l.flatMap g) := by
  induction l with
  | nil => exact .nil
  | cons a l ih =>
    rw [List.flatMap_cons, List.flatMap_cons]
    exact (h a (by simp)).append (ih fun b hb => h b (by simp [hb]))

theorem Plays.writeCommand (b : Byte) : Plays (writeCommandSteps b) (commandFrame b) := rfl

theorem Plays.writeData (b : Byte) : Plays (writeDataSteps b) (dataFrame b) := rfl

/-- Steps that only transmit pixels of `c`, and name locals, put `n` pixels out in a data frame. -/
def Streams (ps : List Prim) (c : Colour) (n : Nat) : Prop :=
  (⟨.low, .high, .high⟩ : Ctl).run ps =
    ⟨(List.replicate n [FrameEvent.dat (colourHi c), .dat (colourLo c)]).flatten, ⟨.low, .high, .high⟩, none⟩

theorem Streams.append {ps qs : List Prim} {c : Colour} {m n : Nat} (h : Streams ps c m) (g : Streams qs c n) :
    Streams (ps ++ qs) c (m + n) := by
  unfold Streams at *
  rw [Ctl.run_append, h]
  rw [List.replicate_add, List.flatten_append]
  simp only [Ran.next, g]

theorem Streams.assign (a : Assign) (c : Colour) : Streams [.assign a] c 0 := rfl

theorem Streams.pixel (c : Colour) : Streams (pixelSteps c) c 1 := rfl

theorem Streams.flatMap {α : Type} {l : List α} {f : α → List Prim} {c : Colour} {n : Nat}
    (h : ∀ a, Streams (f a) c n) : Streams (l.flatMap f) c (l.length * n) := by
  induction l with
  | nil => rw [List.length_nil, Nat.zero_mul]; rfl
  | cons a l ih =>
    rw [List.flatMap_cons, List.length_cons, Nat.succ_mul, Nat.add_comm]
    exact (h a).append ih

theorem Streams.replicate (c : Colour) (n : Nat) : Streams (List.replicate n (pixelSteps c)).flatten c n := by
  induction n with
  | zero => rfl
  | succ n ih =>
    rw [List.replicate_succ, List.flatten_cons, Nat.add_comm]
    exact (Streams.pixel c).append ih

theorem Streams.rectangle (x1 y1 x2 y2 : Byte) (c : Colour) : Streams (rectangleSteps x1 y1 x2 y2 c) c
    ((x2.toNat - x1.toNat + 1) * (y2.toNat - y1.toNat + 1)) := by
  have row : ∀ r, Streams ([.assign (.r r)] ++ (indices x1 x2).flatMap fun q => [.assign (.q q)] ++ pixelSteps c) c
      (x2.toNat - x1.toNat + 1) := fun r => by
    have h := Streams.flatMap (l := indices x1 x2) fun q => (Streams.assign (.q q) c).append (.pixel c)
    have h := (Streams.assign (.r r) c).append h
    simpa [indices] using h
  have h := Streams.flatMap (l := indices y1 y2) row
  rw [Nat.mul_comm]
  simpa [indices, rectangleSteps] using h

theorem Plays.stream {ps : List Prim} {c : Colour} {n : Nat} (h : Streams ps c n) :
    Plays (streamSteps ps) (streamFrame c n) := by
  unfold Plays streamSteps Streams at *
  rw [List.append_assoc, Ctl.run_append]
  have : Ctl.rest.run [.drive .cs false] = ⟨[.csFall], ⟨.low, .high, .high⟩, none⟩ := rfl
  rw [this]
  simp only [Ran.next]
  rw [Ctl.run_append, h]
  simp [Ran.next, Ctl.run, Prim.fault, Prim.ctl, Prim.frames, Ctl.drive, Ctl.rest, streamFrame]

theorem Plays.writePixels (c : Colour) (n : Nat) : Plays (writePixelsSteps c n) (streamFrame c n) :=
  Plays.after [.hi _, .lo _] (.stream (.replicate c n))

theorem Plays.address (cmd a b : Byte) : Plays (addressSteps cmd a b)
    (commandFrame cmd ++ dataFrame 0 ++ dataFrame a ++ dataFrame 0 ++ dataFrame b) := rfl

/-- The eleven frames of `set_window` (42_window.md R140). -/
theorem Plays.setWindow (c : Config) (x1 y1 x2 y2 : Byte) :
    Plays (setWindowSteps c x1 y1 x2 y2) (windowFrames c.opcodes x1 y1 x2 y2) := by
  have h := ((Plays.checkIdle.append (Plays.address c.opcodes.caset x1 x2)).append
    (Plays.address c.opcodes.raset y1 y2)).append (Plays.writeCommand c.opcodes.ramwr)
  simpa [setWindowSteps, windowFrames] using h

/-- `fill_rectangle` of a window that is not inverted (43_pixel.md R162). -/
theorem Plays.fillRectangle (c : Config) {x1 y1 x2 y2 : Byte} (colour : Colour) (hx : x1 ≤ x2)
    (hy : y1 ≤ y2) : Plays (fillRectangleSteps c x1 y1 x2 y2 colour) (fillFrames c.opcodes x1 y1 x2 y2 colour) := by
  unfold fillRectangleSteps
  have hn : ¬(x2 < x1 ∨ y2 < y1) := by simp [BitVec.not_lt, hx, hy]
  rw [if_neg hn]
  exact Plays.checkIdle.append ((Plays.setWindow c x1 y1 x2 y2).append
    (Plays.after [.hi _, .lo _] (.stream (.rectangle x1 y1 x2 y2 colour))))

/-- `fill_rectangle` of an inverted window (R162). -/
theorem Breaks.fillRectangle (c : Config) {x1 y1 x2 y2 : Byte} (colour : Colour)
    (h : x2 < x1 ∨ y2 < y1) :
    Breaks (fillRectangleSteps c x1 y1 x2 y2 colour) [] (.windowInverted x1 y1 x2 y2) := by
  unfold fillRectangleSteps
  rw [if_pos h]
  exact Plays.checkIdle.breaks (Breaks.raise _)

/-- `coord` of a number in range. -/
theorem coord_ok {v : Int} (h0 : 0 ≤ v) (h1 : v ≤ 255) : coord v = .ok (BitVec.ofNat 8 v.toNat) := by
  simp [coord, h0, h1]

theorem coord_error {v : Int} (h : v < 0 ∨ 255 < v) : coord v = .error (.coordRange v) := by
  unfold coord
  rw [if_neg]
  omega

theorem coord_nat {n : Nat} (h : n ≤ 255) : coord (n : Int) = .ok (u8 n) := by
  rw [coord_ok (by omega) (by omega)]
  rfl

theorem coord_succ {x : Byte} (h : x ≠ 255) : coord (x.toNat + 1 : Int) = .ok (x + 1) := by
  have hx : x.toNat < 255 := by
    have := x.isLt
    have : x.toNat ≠ 255 := fun e => h (BitVec.eq_of_toNat_eq e)
    omega
  rw [coord_ok (by omega) (by omega)]
  congr 1

/-- `draw_pixel` away from column and row 255 (R164). -/
theorem Plays.drawPixel (c : Config) {x y : Byte} (colour : Colour) (hx : x ≠ 255) (hy : y ≠ 255) :
    Plays (drawPixelSteps c x y colour) (pixelFrames c.opcodes x y colour) := by
  unfold drawPixelSteps
  rw [coord_succ hx]
  simp only [orRaise]
  rw [coord_succ hy]
  have h := Plays.checkIdle.append (Plays.after [.xe (x + 1), .ye (y + 1)]
    ((Plays.setWindow c x y (x + 1) (y + 1)).append (Plays.after [.hi (colourHi colour), .lo (colourLo colour)]
      ((Plays.writeData (colourHi colour)).append (Plays.writeData (colourLo colour))))))
  simpa [pixelFrames, unpackSteps] using h

theorem Breaks.drawPixel_x (c : Config) (y : Byte) (colour : Colour) :
    Breaks (drawPixelSteps c 255 y colour) [] (.coordRange 256) := rfl

theorem Breaks.drawPixel_y (c : Config) {x : Byte} (colour : Colour) (hx : x ≠ 255) :
    Breaks (drawPixelSteps c x 255 colour) [] (.coordRange 256) := by
  unfold drawPixelSteps
  rw [coord_succ hx]
  rfl

theorem blockCorners_ok {ox oy s : Nat} (hs : 1 ≤ s) (hx : ox + s - 1 ≤ 255) (hy : oy + s - 1 ≤ 255) :
    blockCorners ox oy s = .ok (u8 ox, u8 oy, u8 (ox + s - 1), u8 (oy + s - 1)) := by
  have h1 : ((ox : Int) + s - 1) = ((ox + s - 1 : Nat) : Int) := by omega
  have h2 : ((oy : Int) + s - 1) = ((oy + s - 1 : Nat) : Int) := by omega
  unfold blockCorners
  rw [h1, h2, coord_nat (by omega), coord_nat (by omega), coord_nat hx, coord_nat hy]
  rfl

theorem u8_le {a b : Nat} (h : a ≤ b) (hb : b ≤ 255) : u8 a ≤ u8 b := by
  simp only [u8, BitVec.le_def, BitVec.toNat_ofNat]
  rw [Nat.mod_eq_of_lt (by omega), Nat.mod_eq_of_lt (by omega)]; exact h

/-- A block inside `0..255` (30_encoding.md R85). -/
theorem Plays.block (c : Config) {ox oy s : Nat} (colour : Colour) (hs : 1 ≤ s) (hx : ox + s - 1 ≤ 255)
    (hy : oy + s - 1 ≤ 255) :
    Plays (blockSteps c ox oy s colour) (blockFrames c.opcodes ox oy s colour) := by
  unfold blockSteps
  rw [blockCorners_ok hs hx hy]
  exact Plays.after [.ox _, .oy _] <| Plays.fillRectangle c colour (u8_le (by omega) hx) (u8_le (by omega) hy)

theorem Plays.init (c : Config) : Plays (initSteps c) (initFrames c) := rfl

end Sys2Proof.Machine
end

