-- ==== Sys2Proof/Laws/Painting.lean ====
section
/-! SUPPORT. The step lists of `draw_bitmap`, `draw_char` and `draw_string` do what their scripts say, faults
included; and the glyph lookup cannot fail in an instance. -/

namespace Sys2Proof.Machine

open Sys2Proof

/-! ### Following a script -/

/-- A step list that sends what a script sends and ends in its first fault. -/
def Follows (ps : List Prim) (sc : List Part) : Prop :=
  Ctl.rest.run ps = ⟨sentBefore sc, Ctl.rest, firstFault sc⟩

theorem Follows.nil : Follows [] [] := rfl

theorem Follows.ok {ps : List Prim} {fs : List FrameEvent} (h : Plays ps fs) : Follows ps [.ok fs] := by
  unfold Follows; rw [h]; simp [sentBefore, firstFault]

theorem Follows.error {ps : List Prim} {code : FaultCode} (h : Breaks ps [] code) :
    Follows ps [.error code] := by
  unfold Follows; rw [h]; simp [sentBefore, firstFault]

theorem Follows.append {ps qs : List Prim} {sc sd : List Part} (h : Follows ps sc) (g : Follows qs sd) :
    Follows (ps ++ qs) (sc ++ sd) := by
  unfold Follows at *
  rw [Ctl.run_append, h]
  have key : (Ran.next ⟨sentBefore sc, Ctl.rest, firstFault sc⟩ qs) =
      (match firstFault sc with
        | some code => ⟨sentBefore sc, Ctl.rest, some code⟩
        | none => ⟨sentBefore sc ++ sentBefore sd, Ctl.rest, firstFault sd⟩ : Ran) := by
    unfold Ran.next
    simp only [g]
    cases firstFault sc <;> rfl
  rw [key]
  clear key h g
  induction sc with
  | nil => simp [firstFault, sentBefore]
  | cons p sc ih =>
    cases p with
    | error code => simp [firstFault, sentBefore]
    | ok fs =>
      simp only [List.cons_append, firstFault, sentBefore]
      cases hh : firstFault sc with
      | none =>
        rw [hh] at ih
        simp only [Ran.mk.injEq] at ih ⊢
        simp [← ih.1, ← ih.2.2]
      | some code =>
        rw [hh] at ih
        simp only [Ran.mk.injEq] at ih ⊢
        simp [← ih.1, ← ih.2.2]

/-- A list that sends nothing before another. -/
theorem Follows.prepend {ps qs : List Prim} {sd : List Part} (h : Plays ps []) (g : Follows qs sd) :
    Follows (ps ++ qs) sd := by
  unfold Follows Plays at *
  rw [Ctl.run_append, h]
  simp [Ran.next, g]

/-- A list after assignments. -/
theorem Follows.after {ps : List Prim} {sd : List Part} (as : List Assign) (h : Follows ps sd) :
    Follows (as.map .assign ++ ps) sd := .prepend (Plays.assigns as) h

/-- A list before assignments. -/
theorem Follows.before {ps : List Prim} {sd : List Part} (as : List Assign) (h : Follows ps sd) :
    Follows (ps ++ as.map .assign) sd := by
  have g : Follows (as.map .assign) [] := Plays.assigns as
  simpa using h.append g

theorem Follows.flatMap {α : Type} {l : List α} {f : α → List Prim} {g : α → List Part}
    (h : ∀ a ∈ l, Follows (f a) (g a)) : Follows (l.flatMap f) (l.flatMap g) := by
  induction l with
  | nil => exact .nil
  | cons a l ih =>
    rw [List.flatMap_cons, List.flatMap_cons]
    exact (h a (by simp)).append (ih fun b hb => h b (by simp [hb]))

theorem Follows.map {α : Type} {l : List α} {f : α → List Prim} {g : α → Part}
    (h : ∀ a ∈ l, Follows (f a) [g a]) : Follows (l.flatMap f) (l.map g) := by
  have := Follows.flatMap (g := fun a => [g a]) h
  rwa [← List.map_eq_flatMap] at this

/-- A list whose first part fails never reaches the rest. -/
theorem Follows.error_append {ps : List Prim} {code : FaultCode} (h : Breaks ps [] code) (qs : List Prim) :
    Follows (ps ++ qs) [.error code] := .error (h.append qs)

/-- A script with no fault. -/
theorem firstFault_map_ok {α : Type} (l : List α) (f : α → List FrameEvent) :
    firstFault (l.map fun a => .ok (f a)) = none ∧ sentBefore (l.map fun a => .ok (f a)) = l.flatMap f := by
  induction l with
  | nil => exact ⟨rfl, rfl⟩
  | cons a l ih => exact ⟨ih.1, by simp [sentBefore, ih.2]⟩

/-- A script that sends `fs` and meets no fault. -/
def Clean (sc : List Part) (fs : List FrameEvent) : Prop := firstFault sc = none ∧ sentBefore sc = fs

theorem Clean.append {sc sd : List Part} {fs gs : List FrameEvent} (h : Clean sc fs) (g : Clean sd gs) :
    Clean (sc ++ sd) (fs ++ gs) := by
  induction sc generalizing fs with
  | nil => obtain ⟨-, rfl⟩ := h; exact g
  | cons p sc ih =>
    cases p with
    | error => cases h.1
    | ok f =>
      obtain ⟨h1, h2⟩ := ih (fs := sentBefore sc) ⟨h.1, rfl⟩
      exact ⟨h1, by rw [← h.2]; simp [sentBefore, h2]⟩

theorem Clean.flatMap {α : Type} {l : List α} {f : α → List Part} {g : α → List FrameEvent}
    (h : ∀ a ∈ l, Clean (f a) (g a)) : Clean (l.flatMap f) (l.flatMap g) := by
  induction l with
  | nil => exact ⟨rfl, rfl⟩
  | cons a l ih =>
    rw [List.flatMap_cons, List.flatMap_cons]
    exact (h a (by simp)).append (ih fun b hb => h b (by simp [hb]))

/-! ### Blocks and pixels -/

theorem coord_spec (v : Int) : coord v = match coordFault v with
    | some code => .error code
    | none => .ok (BitVec.ofNat 8 v.toNat) := by
  unfold coord coordFault
  split <;> rfl

theorem Follows.block (c : Config) (ox oy s : Nat) (colour : Colour) :
    Follows (blockSteps c ox oy s colour) [blockPart c.opcodes ox oy s colour] := by
  unfold blockSteps blockCorners blockPart
  refine .after [.ox _, .oy _] ?_
  rw [coord_spec ox, coord_spec oy, coord_spec ((ox : Int) + s - 1), coord_spec ((oy : Int) + s - 1)]
  cases h1 : coordFault ox with
  | some code => exact .error (Breaks.raise _)
  | none =>
    cases h2 : coordFault oy with
    | some code => exact .error (Breaks.raise _)
    | none =>
      cases h3 : coordFault ((ox : Int) + s - 1) with
      | some code => exact .error (Breaks.raise _)
      | none =>
        cases h4 : coordFault ((oy : Int) + s - 1) with
        | some code => exact .error (Breaks.raise _)
        | none =>
          have range : ∀ {v : Int}, coordFault v = none → 0 ≤ v ∧ v ≤ 255 := by
            intro v hv
            unfold coordFault at hv
            split at hv
            · assumption
            · cases hv
          have r1 := range h1; have r2 := range h2; have r3 := range h3; have r4 := range h4
          have e1 : BitVec.ofNat 8 (ox : Int).toNat = u8 ox := rfl
          have e2 : BitVec.ofNat 8 (oy : Int).toNat = u8 oy := rfl
          have e3 : BitVec.ofNat 8 ((ox : Int) + s - 1).toNat = u8 (ox + s - 1) := by
            unfold u8; congr 1; omega
          have e4 : BitVec.ofNat 8 ((oy : Int) + s - 1).toNat = u8 (oy + s - 1) := by
            unfold u8; congr 1; omega
          simp only [e1, e2, e3, e4]
          by_cases hs : s = 0
          · subst hs
            rw [if_pos rfl]
            refine .error (Breaks.fillRectangle c colour (.inl ?_))
            simp only [u8, BitVec.lt_def, BitVec.toNat_ofNat]
            omega
          · rw [if_neg hs]
            refine .ok (Plays.fillRectangle c colour (u8_le (by omega) (by omega)) (u8_le (by omega) (by omega)))

theorem Follows.drawPixel (c : Config) (x y : Byte) (colour : Colour) :
    Follows (drawPixelSteps c x y colour) [pixelPart c.opcodes x y colour] := by
  unfold pixelPart
  by_cases hx : x = 255
  · subst hx; rw [if_pos (.inl rfl)]; exact .error (Breaks.drawPixel_x c y colour)
  · by_cases hy : y = 255
    · subst hy; rw [if_pos (.inr rfl)]; exact .error (Breaks.drawPixel_y c colour hx)
    · rw [if_neg (fun h => h.elim hx hy)]; exact .ok (Plays.drawPixel c colour hx hy)

/-! ### `draw_bitmap` -/

theorem Follows.drawBitmap (c : Config) (x y scale : Byte) (bitmap : List Colour) :
    Follows (drawBitmapSteps c x y scale bitmap)
      (bitmapScript c.opcodes x.toNat y.toNat scale.toNat bitmap) := by
  unfold drawBitmapSteps bitmapScript
  refine Follows.prepend Plays.checkIdle ?_
  match bitmap with
  | [] => exact .error (Breaks.raise _)
  | [_] => exact .error (Breaks.raise _)
  | w :: h :: body =>
    simp only [memRead, List.length_cons, List.drop_zero]
    rw [if_pos (by omega)]
    simp only [List.take]
    refine .after [.hdr _, .w _, .h _] (.flatMap fun i _ => .after [.i i] (.map fun j _ => .after [.j j] ?_))
    unfold sourcePixelSteps
    rw [memRead_one]
    simp only [bitmapIndex]
    cases hb : (w :: h :: body)[2 + i * w.toNat + j]? with
    | none => exact .error (Breaks.raise _)
    | some col => exact .after [.c col] (.block c _ _ _ col)

/-! ### `glyph` -/

theorem laws_iff (p : Params) : p.laws = true ↔
    p.firstPrintable < p.splitChar ∧ p.splitChar ≤ p.lastPrintable ∧ p.lastPrintable ≤ 0xFF ∧
    p.fontA.length = 5 * (p.splitChar - p.firstPrintable) ∧
    p.fontB.length = 5 * (p.lastPrintable + 1 - p.splitChar) ∧
    1 ≤ p.ramCols ∧ p.ramCols ≤ 256 ∧ 1 ≤ p.ramRows ∧ p.ramRows ≤ 256 ∧
    p.opcodes.all.Nodup ∧ p.txWaitBound.all (fun n => decide (1 ≤ n)) = true := by
  unfold Params.laws
  simp only [Bool.and_eq_true, decide_eq_true_eq, and_assoc]

/-- In an instance the font read of a character in range cannot fail (20_memory.md R51). -/
theorem glyphOf_ok {c : Config} {ch : Byte} (h : HasGlyph c ch) : glyphOf c ch = .ok (fontGlyph c ch) := by
  obtain ⟨h1, h2, h3, h4, h5, -⟩ := (laws_iff _).1 c.lawful
  obtain ⟨g1, g2⟩ := h
  have key : ∀ (l : List Byte) (k : Nat), k + 5 ≤ l.length →
      memRead l k 5 = some ((List.range 5).map fun i => l.getD (k + i) 0) := by
    intro l k hk
    unfold memRead
    rw [if_pos hk]
    congr 1
    apply List.ext_getElem
    · simp; omega
    · intro i hi1 hi2
      simp only [List.length_map, List.length_range] at hi2
      simp only [List.getElem_take, List.getElem_drop, List.getElem_map, List.getElem_range]
      rw [List.getD_eq_getElem?_getD, List.getElem?_eq_getElem (by omega)]
      rfl
  unfold glyphOf
  rw [if_neg (by omega)]
  unfold fontPlace fontGlyph
  by_cases hs : ch.toNat < c.splitChar
  · rw [if_pos hs]
    simp only [glyphCols]
    rw [key _ _ (by omega)]
    simp only
    congr 2
    funext i
    simp [fontByte, hs]
  · rw [if_neg hs]
    simp only [glyphCols]
    rw [key _ _ (by omega)]
    simp only
    congr 2
    funext i
    simp [fontByte, hs]

theorem glyphOf_error {c : Config} {ch : Byte} (h : ¬HasGlyph c ch) : glyphOf c ch = .error (.charRange ch) := by
  unfold glyphOf HasGlyph at *
  rw [if_pos (by omega)]

/-! ### `draw_char` and `draw_string` -/

theorem Follows.paint (c : Config) (x y size : Nat) (colour : Colour) (i j : Nat) :
    Follows (paintSteps c x y size colour i j) [cellPart c.opcodes x y size i j colour] := by
  unfold paintSteps cellPart
  by_cases hs : size = 1
  · subst hs
    simp only [if_true, cellOrigin, Nat.mul_one]
    rw [coord_spec]
    push_cast
    cases h1 : coordFault ((x : Int) + i) with
    | some code => exact .error (Breaks.raise _)
    | none =>
      simp only [orRaise, Option.orElse_none]
      rw [coord_spec]
      cases h2 : coordFault ((y : Int) + j) with
      | some code => exact .error (Breaks.raise _)
      | none => exact Follows.drawPixel c _ _ colour
  · rw [if_neg hs, if_neg hs]
    exact Follows.block c _ _ _ colour

theorem Follows.drawChar (c : Config) (x y ch : Byte) (colour : Colour) (size : Byte) :
    Follows (drawCharSteps c x y ch colour size) (charScript c x.toNat y.toNat ch colour size.toNat) := by
  unfold drawCharSteps charScript
  refine Follows.prepend Plays.checkIdle ?_
  by_cases h : HasGlyph c ch
  · rw [glyphOf_ok h, if_neg (by unfold HasGlyph at h; omega)]
    simp only [orRaise]
    refine .after [.g _] (.flatMap fun i hi => ?_)
    have hi : i < 5 := List.mem_range.1 hi
    have hb : (fontGlyph c ch).getD i 0 = fontByte c ch i := by
      unfold fontGlyph
      rw [List.getD_eq_getElem?_getD, List.getElem?_map, List.getElem?_range hi]
      rfl
    unfold glyphColumnSteps
    rw [hb]
    refine .after [.i i, .b _] (.flatMap fun j _ => .before [.b _] (.after [.j j] ?_))
    rw [show (shifted (fontByte c ch i) j).getLsbD 0 = (fontByte c ch i).getLsbD j by simp [shifted]]
    split
    · exact .paint c _ _ _ colour i j
    · exact .nil
  · rw [glyphOf_error h, if_pos (by unfold HasGlyph at h; omega)]
    exact .error (Breaks.raise _)

theorem Follows.text (c : Config) (x y : Byte) (colour : Colour) (size : Byte) (k : Nat) (text : List Byte) :
    Follows (textSteps c x y colour size k text)
      (textScript c x.toNat y.toNat colour size.toNat k text) := by
  induction text generalizing k with
  | nil => exact .error (Breaks.raise _)
  | cons ch rest ih =>
    unfold textSteps textScript
    refine .after [.ch ch] ?_
    by_cases h0 : ch = 0
    · rw [if_pos h0, if_pos h0]; exact .nil
    · rw [if_neg h0, if_neg h0, coord_spec]
      have ho : (charOrigin x.toNat size.toNat k : Int) = x.toNat + k * size.toNat * 6 := by
        simp [charOrigin, charAdvance]
      rw [ho]
      cases hf : coordFault ((x.toNat : Int) + k * size.toNat * 6) with
      | some code => exact Follows.error_append (Breaks.raise _) _
      | none =>
        simp only [orRaise]
        refine Follows.append ?_ (.after [.k (k + 1)] (ih _))
        have hr : 0 ≤ (x.toNat : Int) + k * size.toNat * 6 ∧ (x.toNat : Int) + k * size.toNat * 6 ≤ 255 := by
          unfold coordFault at hf
          split at hf
          · assumption
          · cases hf
        have hx : (BitVec.ofNat 8 ((x.toNat : Int) + k * size.toNat * 6).toNat : Byte).toNat =
            x.toNat + k * size.toNat * 6 := by
          rw [BitVec.toNat_ofNat]
          have : ((x.toNat : Int) + k * size.toNat * 6).toNat = x.toNat + k * size.toNat * 6 := by
            have h1 : ((x.toNat : Int) + k * size.toNat * 6) = ((x.toNat + k * size.toNat * 6 : Nat) : Int) := by
              push_cast; rfl
            rw [h1]; rfl
          rw [this]
          apply Nat.mod_eq_of_lt
          have h1 : ((x.toNat : Int) + k * size.toNat * 6) = ((x.toNat + k * size.toNat * 6 : Nat) : Int) := by
            push_cast; rfl
          rw [h1] at hr
          omega
        rw [← hx]
        exact Follows.drawChar c _ y ch colour size

theorem Follows.drawString (c : Config) (x y : Byte) (colour : Colour) (size : Byte) (text : List Byte) :
    Follows (drawStringSteps c x y colour size text)
      (textScript c x.toNat y.toNat colour size.toNat 0 text) :=
  Follows.prepend (ps := [.checkIdle, .assign (.k 0)]) rfl (Follows.text c x y colour size 0 text)

/-! ### Calling an operation that follows a script -/

/-- A host operation called from idle lines does what its script says: it completes, or stops at the first
fault (60_exceptions.md R282, R284). -/
theorem State.call_follows {s : State} (hs : s.Ready) (ha : s.Aligned) (hu : s.Untimed) {i : Instr}
    (hi : i.argsFit = true) {ps : List Prim} (hp : Ordinary ps) {sc : List Part} (hr : Follows ps sc) :
    ∃ t, s.call i ps = .next t ∧ State.Kept s t ∧ t.lines.idle = true ∧ State.Sent s t (sentBefore sc) ∧
      match firstFault sc with
      | none => State.Completed s t
      | some code => t.fault = some ⟨code, .busy i, t.pc⟩ ∧ t.op = .busy i := by
  obtain ⟨t, h1, h2, h3, h4, h5⟩ := State.call_spec hs ha hu hi hp
  rw [hr] at h3 h4 h5
  have hl := (Lines.idle_iff _).2 h4
  refine ⟨t, h1, h2, hl, h3, ?_⟩
  cases hq : firstFault sc with
  | none =>
    rw [hq] at h5
    exact ⟨⟨h5.1, h5.2.1, h5.2.2.1, h2⟩, hl, h5.2.2.2⟩
  | some code =>
    rw [hq] at h5
    exact h5

end Sys2Proof.Machine
end

