-- ==== Sys2Proof/Laws/Exec.lean ====
section
/-! SUPPORT. What `exec` is for the host operations and the primitives: a call or an issue of one step list. -/

namespace Sys2Proof.Machine

open Sys2Proof

/-- The step list of a host operation; none for the other instructions. -/
def hostSteps (c : Config) : Instr → List Prim
  | .init => initSteps c
  | .setWindow x1 y1 x2 y2 => setWindowSteps c (u8 x1) (u8 y1) (u8 x2) (u8 y2)
  | .fillRectangle x1 y1 x2 y2 colour => fillRectangleSteps c (u8 x1) (u8 y1) (u8 x2) (u8 y2) (u16 colour)
  | .drawPixel x y colour => drawPixelSteps c (u8 x) (u8 y) (u16 colour)
  | .drawBitmap x y scale bitmap => drawBitmapSteps c (u8 x) (u8 y) (u8 scale) bitmap
  | .drawChar x y ch colour size => drawCharSteps c (u8 x) (u8 y) (u8 ch) (u16 colour) (u8 size)
  | .drawString x y colour size text => drawStringSteps c (u8 x) (u8 y) (u16 colour) (u8 size) text
  | .cmdSwreset | .cmdSlpout | .cmdColmod | .cmdDispon | .cmdCaset | .cmdRaset | .cmdRamwr => []
  | .data _ | .cmdUnsupported _ => []
  | .transmitHw _ | .transmitBitbang _ | .writeCommand _ | .writeData _ | .writePixels _ _ => []
  | .glyph _ => []

/-- A host operation is a call of its step list. -/
theorem exec_hostOp {i : Instr} (hi : i.isHostOp = true) (s : State) :
    exec i s = s.call i (hostSteps s.cfg i) := by
  cases i <;> first | rfl | cases hi

theorem Ordinary.hostSteps (c : Config) (i : Instr) : Ordinary (Sys2Proof.Machine.hostSteps c i) := by
  cases i with
  | init => exact .init _
  | setWindow => exact .setWindow _ _ _ _ _
  | fillRectangle => exact .fillRectangle _ _ _ _ _ _
  | drawPixel => exact .drawPixel _ _ _ _
  | drawBitmap => exact .drawBitmap _ _ _ _ _
  | drawChar => exact .drawChar _ _ _ _ _ _
  | drawString => exact .drawString _ _ _ _ _ _
  | cmdSwreset | cmdSlpout | cmdColmod | cmdDispon | cmdCaset | cmdRaset | cmdRamwr => intro p hp; cases hp
  | data | cmdUnsupported | transmitHw | transmitBitbang | writeCommand | writeData => intro p hp; cases hp
  | writePixels | glyph => intro p hp; cases hp

/-- Every host operation begins with its entry check (60_exceptions.md R283). -/
theorem hostSteps_checkIdle {i : Instr} (hi : i.isHostOp = true) (c : Config) :
    ∃ ps, hostSteps c i = .checkIdle :: ps := by
  cases i <;> first | exact ⟨_, rfl⟩ | cases hi

/-- Every host operation's list does what some script says (60_exceptions.md R282). -/
theorem hostSteps_follow (c : Config) {i : Instr} (hi : i.isHostOp = true) :
    ∃ sc, Follows (hostSteps c i) sc := by
  cases i with
  | init => exact ⟨_, .ok (Plays.init c)⟩
  | setWindow => exact ⟨_, .ok (Plays.setWindow c _ _ _ _)⟩
  | fillRectangle x1 y1 x2 y2 colour =>
    by_cases hx : u8 x2 < u8 x1 ∨ u8 y2 < u8 y1
    · exact ⟨_, .error (Breaks.fillRectangle c _ hx)⟩
    · simp only [not_or, BitVec.not_lt] at hx
      exact ⟨_, .ok (Plays.fillRectangle c _ hx.1 hx.2)⟩
  | drawPixel => exact ⟨_, Follows.drawPixel c _ _ _⟩
  | drawBitmap => exact ⟨_, Follows.drawBitmap c _ _ _ _⟩
  | drawChar => exact ⟨_, Follows.drawChar c _ _ _ _ _⟩
  | drawString => exact ⟨_, Follows.drawString c _ _ _ _ _⟩
  | cmdSwreset | cmdSlpout | cmdColmod | cmdDispon | cmdCaset | cmdRaset | cmdRamwr => cases hi
  | data | cmdUnsupported | transmitHw | transmitBitbang | writeCommand | writeData => cases hi
  | writePixels | glyph => cases hi

/-- An argument that does not fit (R286). -/
theorem State.call_argWidth {i : Instr} (h : i.argsFit = false) (ps : List Prim) (s : State) :
    s.call i ps = .refused .argWidth := by
  unfold State.call; rw [h]; rfl

/-- A call made after a fault (R284). -/
theorem State.call_stuck {i : Instr} {s : State} {r : FaultRecord} (h : i.argsFit = true) (hf : s.fault = some r)
    (ps : List Prim) : s.call i ps = .fault (.sequencerStuck r) := by
  unfold State.call State.issue; rw [h, hf]; rfl

/-- A call made while an operation executes (R286). -/
theorem State.call_busy {i j : Instr} {s : State} (h : i.argsFit = true) (hf : s.fault = none)
    (ho : s.op = .busy j) (ps : List Prim) : s.call i ps = .refused .concurrentCaller := by
  unfold State.call State.issue; rw [h, hf, ho]; rfl

/-- The step list a primitive is issued with; none where the instance has no such primitive. -/
def primitiveSteps? (c : Config) : Instr → Option (List Prim)
  | .transmitHw b => match c.transport with
    | .hw => some [.transmit b]
    | .bitbang => none
  | .transmitBitbang b => match c.transport with
    | .hw => none
    | .bitbang => some [.transmit b]
  | .writeCommand b => some (writeCommandSteps b)
  | .writeData b => some (writeDataSteps b)
  | .writePixels colour n => if n = 0 then none else some (writePixelsSteps colour n)
  | .glyph ch => some (orRaise (glyphOf c ch) fun g => [.assign (.g g)])
  | .init | .setWindow _ _ _ _ | .fillRectangle _ _ _ _ _ | .drawPixel _ _ _ => none
  | .drawBitmap _ _ _ _ | .drawChar _ _ _ _ _ | .drawString _ _ _ _ _ => none
  | .cmdSwreset | .cmdSlpout | .cmdColmod | .cmdDispon | .cmdCaset | .cmdRaset | .cmdRamwr => none
  | .data _ | .cmdUnsupported _ => none

/-- A primitive is an issue of its step list, or refused. -/
theorem exec_primitive {i : Instr} (hi : i.isPrimitive = true) (s : State) :
    (∃ ps, primitiveSteps? s.cfg i = some ps ∧ Ordinary ps ∧ exec i s = s.issue i ps) ∨
      (∃ r, exec i s = .refused r) := by
  cases i <;> simp only [Instr.isPrimitive, Bool.false_eq_true] at hi
  case transmitHw b =>
    cases ht : s.cfg.transport with
    | hw => exact .inl ⟨_, by simp only [primitiveSteps?, ht], .transmit b, by
        simp only [exec, execTransmitHw, ht]⟩
    | bitbang => exact .inr ⟨_, by simp only [exec, execTransmitHw, ht]; rfl⟩
  case transmitBitbang b =>
    cases ht : s.cfg.transport with
    | hw => exact .inr ⟨_, by simp only [exec, execTransmitBitbang, ht]; rfl⟩
    | bitbang => exact .inl ⟨_, by simp only [primitiveSteps?, ht], .transmit b, by
        simp only [exec, execTransmitBitbang, ht]⟩
  case writeCommand b => exact .inl ⟨_, rfl, .writeCommand b, rfl⟩
  case writeData b => exact .inl ⟨_, rfl, .writeData b, rfl⟩
  case writePixels c n =>
    by_cases hn : n = 0
    · exact .inr ⟨_, by simp only [exec, execWritePixels, hn, if_true]; rfl⟩
    · exact .inl ⟨_, by simp only [primitiveSteps?, hn, if_false], .writePixels c n, by
        simp only [exec, execWritePixels, hn, if_false]⟩
  case glyph ch => exact .inl ⟨_, rfl, .orRaise fun g => .assign _, rfl⟩

end Sys2Proof.Machine
end

