-- ==== Sys2Proof/Laws/Whole.lean ====
section
/-! SUPPORT. Everything one instruction and one step can do, said once: a frame word reaches the receiver; a
host operation or primitive runs one step list; a step list emits bus events and touches nothing else but the
sequencer's own fields and the peripheral. -/

namespace Sys2Proof.Machine

open Sys2Proof

/-! ### Frame words -/

/-- A frame word is one byte event at the receiver, and nothing else. -/
theorem exec_frameWord {i : Instr} (hh : i.isHostOp = false) (hp : i.isPrimitive = false) (s : State) :
    ∃ e, e.isByte = true ∧ exec i s = .next { s with rx := s.rx.receive s.cfg e } := by
  obtain ⟨c1, c2, c3, c4, c5, c6, c7⟩ := opcodes_command s.cfg.opcodes (opcodes_nodup s.cfg)
  have key : ∀ b cmd, s.cfg.opcodes.command b = cmd →
      ∃ e, FrameEvent.isByte e = true ∧
        Host.Outcome.next (s.receiveCommand cmd) =
          (.next { s with rx := s.rx.receive s.cfg e } : Host.Outcome State Fault Refusal) := by
    rintro b _ rfl
    exact ⟨.cmd b, rfl, by rw [Rx.receive_cmd_eq]; rfl⟩
  cases i <;> simp only [Instr.isHostOp, Instr.isPrimitive, Bool.true_eq_false] at hh hp
  case cmdSwreset => exact key _ _ c1
  case cmdSlpout => exact key _ _ c2
  case cmdColmod => exact key _ _ c3
  case cmdDispon => exact key _ _ c4
  case cmdCaset => exact key _ _ c5
  case cmdRaset => exact key _ _ c6
  case cmdRamwr => exact key _ _ c7
  case data d => exact ⟨.dat d, rfl, by rw [Rx.receive_dat_eq]; rfl⟩
  case cmdUnsupported b => exact key b _ rfl

/-! ### Host operations and primitives -/

/-- A host operation or primitive that answers a next state ran one ordinary step list from an idle sequencer
without a fault. -/
theorem exec_ran {i : Instr} {s t : State} (hi : i.isHostOp = true ∨ i.isPrimitive = true)
    (h : exec i s = .next t) :
    s.Free ∧ ∃ ps, Ordinary ps ∧ (i.isHostOp = true → i.argsFit = true ∧ ps = hostSteps s.cfg i) ∧
      (i.isPrimitive = true → primitiveSteps? s.cfg i = some ps) ∧
      (t = ((s.start i).runSteps ps).finish ∨ t = ((s.start i).runSteps ps).finish.dropLocals) := by
  have issued : ∀ {ps u}, s.issue i ps = .next u → s.Free ∧ u = ((s.start i).runSteps ps).finish := by
    intro ps u hu
    unfold State.issue at hu
    split at hu
    · cases hu
    · split at hu
      · cases hu
      · rename_i hf _ ho; cases hu; exact ⟨⟨hf, ho⟩, rfl⟩
  cases hh : i.isHostOp with
  | true =>
    have hnp : i.isPrimitive ≠ true := by
      cases i <;> simp [Instr.isHostOp, Instr.isPrimitive] at hh ⊢
    rw [exec_hostOp hh] at h
    unfold State.call at h
    split at h
    · rename_i ha
      cases hq : s.issue i (hostSteps s.cfg i) with
      | next u =>
        rw [hq] at h; cases h
        obtain ⟨h1, h2⟩ := issued hq
        subst h2
        exact ⟨h1, _, .hostSteps _ _, fun _ => ⟨ha, rfl⟩, fun hp => (hnp hp).elim, .inr rfl⟩
      | fault | refused => rw [hq] at h; cases h
    · cases h
  | false =>
    have hp := hi.resolve_left (by simp [hh])
    rcases exec_primitive hp s with ⟨ps, h1, h2, h3⟩ | ⟨r, h3⟩
    · rw [h3] at h
      obtain ⟨h4, h5⟩ := issued h
      exact ⟨h4, ps, h2, fun h => (by simp at h), fun _ => h1, .inl h5⟩
    · rw [h3] at h; cases h

/-! ### What a step list touches -/

/-- `t` is `s` with `es` on the bus and nothing else moved but the sequencer's fields and the peripheral. -/
def State.Emits (s t : State) (es : List BusEvent) : Prop :=
  t.cfg = s.cfg ∧ t.inbox = s.inbox ∧ t.trace = s.trace ++ es ∧ t.lines = s.lines.afterAll es ∧
    t.rx = s.rx.hearAll s.cfg s.lines es

theorem Rx.hearAll_append (c : Config) (lv : Lines) (es fs : List BusEvent) (rx : Rx) :
    rx.hearAll c lv (es ++ fs) = (rx.hearAll c lv es).hearAll c (lv.afterAll es) fs := by
  induction es generalizing rx lv with
  | nil => rfl
  | cons e es ih => exact ih _ _

theorem State.Emits.refl (s : State) : State.Emits s s [] := ⟨rfl, rfl, by simp, rfl, rfl⟩

theorem State.Emits.trans {s u t : State} {es fs : List BusEvent} (h : State.Emits s u es)
    (g : State.Emits u t fs) : State.Emits s t (es ++ fs) := by
  obtain ⟨h1, h2, h3, h4, h5⟩ := h
  obtain ⟨g1, g2, g3, g4, g5⟩ := g
  refine ⟨g1.trans h1, g2.trans h2, ?_, ?_, ?_⟩
  · rw [g3, h3, List.append_assoc]
  · rw [g4, h4, Lines.afterAll_append]
  · rw [g5, h1, h4, h5, Rx.hearAll_append]

theorem State.emits_emitAll (s : State) (es : List BusEvent) : State.Emits s (s.emitAll es) es := by
  rw [State.emitAll_eq]; exact ⟨rfl, rfl, rfl, rfl, rfl⟩

/-- The bus events of a step. -/
def Prim.emits (c : Config) : Prim → List BusEvent
  | .drive l v => [.drive l v]
  | .delay t => [.delay t]
  | .transmit b => byteEvents c b
  | .checkIdle | .raise _ | .assign _ => []

theorem State.prim_emits (p : Prim) (s : State) :
    State.Emits s (s.prim p) (p.emits s.cfg) ∧ (s.prim p).op = s.op := by
  cases p with
  | drive l v => exact ⟨s.emits_emitAll [.drive l v], rfl⟩
  | delay t => exact ⟨s.emits_emitAll [.delay t], rfl⟩
  | transmit b =>
    obtain ⟨spi, ctr, locals, pc, fault, he, -⟩ := s.transmit_spec b
    have hprim : s.prim (.transmit b) = s.transmit b := rfl
    rw [hprim, he, State.emitAll_eq]
    exact ⟨⟨rfl, rfl, rfl, rfl, rfl⟩, rfl⟩
  | checkIdle =>
    by_cases hi : s.lines.idle = true
    · have : s.prim .checkIdle = s := by simp [State.prim, State.checkIdle, hi]
      rw [this]; exact ⟨.refl s, rfl⟩
    · have : s.prim .checkIdle = s.raise (.linesNotIdle s.lines.cs s.lines.dc s.lines.rst) := by
        simp [State.prim, State.checkIdle, hi]
      rw [this]; exact ⟨⟨rfl, rfl, by simp [Prim.emits], rfl, rfl⟩, rfl⟩
  | raise code => exact ⟨⟨rfl, rfl, by simp [State.prim, Prim.emits], rfl, rfl⟩, rfl⟩
  | assign a => exact ⟨⟨rfl, rfl, by simp [State.prim, Prim.emits], rfl, rfl⟩, rfl⟩

/-- A step list emits what its steps emit, up to the first fault. -/
theorem State.runSteps_emits (ps : List Prim) (s : State) :
    ∃ qs, qs <+: ps ∧ State.Emits s (s.runSteps ps) (qs.flatMap (Prim.emits s.cfg)) ∧
      (s.runSteps ps).op = s.op ∧ ((s.runSteps ps).fault = none → qs = ps) := by
  induction ps generalizing s with
  | nil => exact ⟨[], List.prefix_rfl, .refl s, rfl, fun _ => rfl⟩
  | cons p ps ih =>
    obtain ⟨h1, h2⟩ := s.prim_emits p
    rw [State.runSteps_cons]
    by_cases hf : (s.prim p).fault.isSome = true
    · rw [if_pos hf]
      refine ⟨[p], by simp, by simpa using h1, h2, fun hn => ?_⟩
      rw [hn] at hf; cases hf
    · rw [if_neg hf]
      obtain ⟨qs, g1, g2, g3, g4⟩ := ih (s.prim p)
      refine ⟨p :: qs, by simpa using g1, ?_, g3.trans h2, fun hn => by rw [g4 hn]⟩
      rw [h1.1] at g2
      simpa using h1.trans g2

theorem State.Emits.of_finish {s u t : State} {es : List BusEvent} (h : State.Emits s u es)
    (ht : t = u.finish ∨ t = u.finish.dropLocals) : State.Emits s t es := by
  have hfin : ∀ w : State, State.Emits s w es → State.Emits s w.finish es := by
    intro w hw; unfold State.finish; split <;> exact hw
  have hdrop : ∀ w : State, State.Emits s w es → State.Emits s w.dropLocals es := by
    intro w hw; unfold State.dropLocals; split <;> exact hw
  rcases ht with rfl | rfl
  · exact hfin _ h
  · exact hdrop _ (hfin _ h)

/-- What an ended operation keeps of the run of its list. -/
theorem State.finish_parts {u t : State} (ht : t = u.finish ∨ t = u.finish.dropLocals) :
    t.fault = u.fault ∧ t.spi = u.spi ∧ t.freeCtr = u.freeCtr ∧ t.lines = u.lines ∧ t.rx = u.rx ∧
      t.cfg = u.cfg ∧
      (u.fault = none → t.op = .idle ∧ t.pc = 0) ∧ (u.fault ≠ none → t.op = u.op ∧ t.pc = u.pc) := by
  cases hf : u.fault with
  | none =>
    rw [State.finish_of_no_fault hf] at ht
    rcases ht with rfl | rfl
    · exact ⟨hf, rfl, rfl, rfl, rfl, rfl, fun _ => ⟨rfl, rfl⟩, fun h => (h rfl).elim⟩
    · rw [State.dropLocals_of_no_fault (by exact hf)]
      exact ⟨hf, rfl, rfl, rfl, rfl, rfl, fun _ => ⟨rfl, rfl⟩, fun h => (h rfl).elim⟩
  | some r =>
    rw [State.finish_of_fault (by simp [hf])] at ht
    have : t = u := by
      rcases ht with h | h
      · exact h
      · rw [h, State.dropLocals_of_fault (by simp [hf])]
    subst this
    exact ⟨hf, rfl, rfl, rfl, rfl, rfl, (by intro h; cases h), fun _ => ⟨rfl, rfl⟩⟩

/-! ### What a run of bus events does to the receiver -/

theorem Rx.hearAll_of_undef {rx : Rx} (c : Config) (lv : Lines) (es : List BusEvent)
    (h : rx.undef.isSome = true) : rx.hearAll c lv es = rx := by
  obtain ⟨nb, -, he⟩ := rx.hearAll_eq c lv es
  rw [he, Rx.receiveAll_of_undef c _ h]
  simp [Rx.keepSerial, h]

/-- A receiver that a run of events makes undefined keeps the reason alone (46_receiver.md R242). -/
theorem Rx.hearAll_undef_blank {rx : Rx} (c : Config) (lv : Lines) (es : List BusEvent) {r : UndefReason}
    (h : rx.undef = none) (hr : (rx.hearAll c lv es).undef = some r) : rx.hearAll c lv es = .undefined r := by
  obtain ⟨nb, -, he⟩ := rx.hearAll_eq c lv es
  rw [he] at hr ⊢
  cases hq : (rx.receiveAll c ((rx.decoder lv).run es)).undef with
  | none => simp [Rx.keepSerial, hq] at hr
  | some r' =>
    simp only [Rx.keepSerial, hq, Option.isSome_some, if_true] at hr ⊢
    cases hr
    exact Rx.receiveAll_undef_blank c _ h hq

theorem Rx.Inv.hearAll {c : Config} {rx : Rx} (h : rx.Inv c) (lv : Lines) (es : List BusEvent) :
    (rx.hearAll c lv es).Inv c := by
  induction es generalizing rx lv with
  | nil => exact h
  | cons e es ih => exact ih (h.hear lv e) _

/-! ### What a fault records -/

theorem State.prim_recorded (p : Prim) {s : State} (h : s.fault = none) : (s.prim p).Recorded := by
  intro r hr
  cases p with
  | drive l v => simp [State.prim, h] at hr
  | delay t => simp [State.prim, h] at hr
  | assign a => simp [State.prim, h] at hr
  | raise code => cases hr; exact ⟨rfl, rfl⟩
  | checkIdle =>
    by_cases hi : s.lines.idle = true
    · simp [State.prim, State.checkIdle, hi, h] at hr
    · have : s.prim .checkIdle = s.raise (.linesNotIdle s.lines.cs s.lines.dc s.lines.rst) := by
        simp [State.prim, State.checkIdle, hi]
      rw [this] at hr ⊢
      cases hr; exact ⟨rfl, rfl⟩
  | transmit b =>
    obtain ⟨spi, ctr, locals, pc, fault, he, hb, hw⟩ := s.transmit_spec b
    have hprim : s.prim (.transmit b) = s.transmit b := rfl
    rw [hprim, he, State.emitAll_eq] at hr ⊢
    simp only at hr ⊢
    cases ht : s.cfg.transport with
    | bitbang => rw [(hb ht).2.2.2.1, h] at hr; cases hr
    | hw =>
      rcases (hw ht).2.2 with ⟨h1, -⟩ | ⟨h1, -⟩
      · rw [h1, h] at hr; cases hr
      · rw [h1] at hr; cases hr; exact ⟨rfl, rfl⟩

/-- A fault raised in a step list records the operation and the step it stopped at (60_exceptions.md R284). -/
theorem State.runSteps_recorded (ps : List Prim) {s : State} (h : s.fault = none) : (s.runSteps ps).Recorded := by
  induction ps generalizing s with
  | nil => intro r hr; rw [State.runSteps_nil, h] at hr; cases hr
  | cons p ps ih =>
    rw [State.runSteps_cons]
    split
    · exact State.prim_recorded p h
    · rename_i hf; exact ih (by simpa using hf)

/-! ### One instruction, one step -/

/-- Everything an instruction that answers a next state can have done: a byte event at the receiver, or bus
events of a step list. -/
theorem exec_touches {i : Instr} {s t : State} (h : exec i s = .next t) :
    (∃ e, e.isByte = true ∧ t = { s with rx := s.rx.receive s.cfg e }) ∨
      (s.Free ∧ (i.isHostOp = true ∨ i.isPrimitive = true) ∧ ∃ es, State.Emits s t es) := by
  by_cases hi : i.isHostOp = true ∨ i.isPrimitive = true
  · right
    obtain ⟨h1, ps, -, -, -, h2⟩ := exec_ran hi h
    obtain ⟨qs, -, he, -⟩ := (s.start i).runSteps_emits ps
    exact ⟨h1, hi, _, (show State.Emits s _ _ from he).of_finish h2⟩
  · left
    simp only [not_or, Bool.not_eq_true] at hi
    obtain ⟨e, he, hx⟩ := exec_frameWord hi.1 hi.2 s
    rw [hx] at h; cases h
    exact ⟨e, he, rfl⟩

/-- A host operation or primitive issued with no bit of a byte pending: what the bus carried, and that the
receiver heard it. -/
theorem exec_went {i : Instr} {s t : State} (hi : i.isHostOp = true ∨ i.isPrimitive = true) (ha : s.Aligned)
    (h : exec i s = .next t) : ∃ es, State.Emits s t es ∧ State.Heard s t es ∧
      (Decoder.afterAll ⟨s.lines, Shift8.zero, 0⟩ es).nb = 0 := by
  obtain ⟨hfree, ps, hord, -, -, ht⟩ := exec_ran hi h
  obtain ⟨es, hw, -, -⟩ := State.runSteps_spec hord (s := s.start i) hfree.1 ha
  obtain ⟨qs, -, he, -⟩ := (s.start i).runSteps_emits ps
  have hf := State.finish_parts ht
  have e : qs.flatMap (Prim.emits (s.start i).cfg) = es := by
    simpa using he.2.2.1.symm.trans hw.carried.1
  rw [e] at he
  refine ⟨es, (show State.Emits s _ es from he).of_finish ht, ⟨?_, ?_⟩, hw.whole⟩
  · unfold State.Aligned; rw [hf.2.2.2.2.1]; exact hw.heard.1
  · rw [hf.2.2.2.2.1]; exact hw.heard.2

/-- The next input is an instruction: a call of the caller, which is a host operation, or bytes put to a unit. -/
def State.Fetches (s : State) (i : Instr) (rest : List Input) : Prop :=
  (∃ bs, s.inbox = .call bs :: rest ∧ decodeCaller s.cfg.opcodes bs = .ok i) ∨
    ∃ bs, s.inbox = .instr bs :: rest ∧ decode s.cfg.opcodes bs = .ok i

/-- The caller issues host operations only (30_encoding.md R87). -/
theorem decodeCaller_ok {o : Opcodes} {bs : List Byte} {i : Instr} (h : decodeCaller o bs = .ok i) :
    decode o bs = .ok i ∧ i.isHostOp = true := by
  unfold decodeCaller at h
  split at h
  · split at h
    · cases h; exact ⟨‹_›, ‹_›⟩
    · cases h
  · cases h

/-- Everything a step can be. -/
theorem step_cases {s t : State} (h : step s = .next t) :
    (s.inbox = [] ∧ t = s) ∨
      (∃ rest, s.inbox = .boardSetup :: rest ∧ t = ({ s with inbox := rest } : State).boardSetup) ∨
      (∃ e rest, s.inbox = .wire e :: rest ∧ t = ({ s with inbox := rest } : State).wireEvent e) ∨
      ∃ i rest, s.Fetches i rest ∧ exec i { s with inbox := rest } = .next t := by
  unfold step at h
  cases hi : s.inbox with
  | nil => rw [hi] at h; cases h; exact .inl ⟨rfl, rfl⟩
  | cons a rest =>
    have ht : s.taken = { s with inbox := rest } := by unfold State.taken; rw [hi]; rfl
    rw [hi] at h
    cases a with
    | boardSetup => cases h; exact .inr (.inl ⟨rest, rfl, by rw [ht]⟩)
    | wire e => cases h; exact .inr (.inr (.inl ⟨e, rest, rfl, by rw [ht]⟩))
    | call bs =>
      simp only at h
      cases hd : decodeCaller s.cfg.opcodes bs with
      | ok i =>
        rw [hd] at h
        simp only at h
        rw [ht] at h
        exact .inr (.inr (.inr ⟨i, rest, .inl ⟨bs, hi, hd⟩, h⟩))
      | error e => rw [hd] at h; cases h
    | instr bs =>
      simp only at h
      cases hd : decode s.cfg.opcodes bs with
      | ok i =>
        rw [hd] at h
        simp only at h
        rw [ht] at h
        exact .inr (.inr (.inr ⟨i, rest, .inr ⟨bs, hi, hd⟩, h⟩))
      | error e => rw [hd] at h; cases h

/-- What is fetched is executed with its input used up. -/
theorem step_of_fetches {s : State} {i : Instr} {rest : List Input} (h : s.Fetches i rest) :
    step s = exec i { s with inbox := rest } := by
  rcases h with ⟨bs, hi, hd⟩ | ⟨bs, hi, hd⟩ <;> (unfold step State.taken; rw [hi]; simp only [hd]; rfl)

end Sys2Proof.Machine
end

