-- ==== Sys2Proof/Laws/Bound.lean ====
section
/-! SUPPORT. A bound on the completion wait that no transfer of a run meets changes nothing of the run. -/

namespace Sys2Proof.Machine
open Sys2Proof

/-- The instance without its bound. -/
def Config.unbounded (c : Config) : Config where
  toParams := { c.toParams with txWaitBound := none }
  lawful := by
    have := c.lawful
    simp only [Params.laws, Bool.and_eq_true] at this ⊢
    exact ⟨this.1, rfl⟩

theorem textSteps_unbounded (c : Config) (x y : Byte) (colour : Colour) (size : Byte) (text : List Byte) (k : Nat) :
    textSteps (Config.unbounded c) x y colour size k text = textSteps c x y colour size k text := by
  induction text generalizing k with
  | nil => rfl
  | cons ch rest ih => simp only [textSteps, ih]; rfl

theorem hostSteps_unbounded (c : Config) (i : Instr) : hostSteps (Config.unbounded c) i = hostSteps c i := by
  cases i
  case drawString => simp only [hostSteps, drawStringSteps, textSteps_unbounded]
  all_goals rfl

theorem primitiveSteps_unbounded (c : Config) (i : Instr) :
    primitiveSteps? (Config.unbounded c) i = primitiveSteps? c i := by
  cases i <;> rfl

/-- The peripheral's choices used between two states. -/
structure State.Drew (s t : State) (used : List Nat) (free : Nat) : Prop where
  /-- From the schedule (log 15). -/
  sched : s.spi.sched = used ++ t.spi.sched
  /-- From the opaque free values. -/
  ctr : t.freeCtr = s.freeCtr + free


theorem State.Drew.refl (s : State) : State.Drew s s [] 0 := ⟨rfl, rfl⟩

theorem State.Drew.trans {s u t : State} {a b : List Nat} {m n : Nat} (h : State.Drew s u a m)
    (g : State.Drew u t b n) : State.Drew s t (a ++ b) (m + n) :=
  ⟨by rw [h.sched, g.sched, List.append_assoc], by rw [g.ctr, h.ctr, Nat.add_assoc]⟩

theorem State.emitAll_frame (es : List BusEvent) (s : State) :
    (s.emitAll es).spi = s.spi ∧ (s.emitAll es).freeCtr = s.freeCtr := by
  rw [State.emitAll_eq]; exact ⟨rfl, rfl⟩

/-- The state on the unbounded instance. -/
def State.loose (s : State) : State := { s with cfg := Config.unbounded s.cfg }

theorem State.emitAll_loose (es : List BusEvent) (s : State) : s.loose.emitAll es = (s.emitAll es).loose := by
  induction es generalizing s with
  | nil => rfl
  | cons e es ih => exact ih (s.emit e)

theorem State.Drew.split {s u t : State} {used a b : List Nat} {m n : Nat} (h : State.Drew s t used 0)
    (g : State.Drew s u a m) (k : State.Drew u t b n) : used = a ++ b ∧ m = 0 ∧ n = 0 := by
  have e := g.trans k
  have h1 := h.ctr.symm.trans e.ctr
  exact ⟨List.append_cancel_right (h.sched.symm.trans e.sched), by omega, by omega⟩

theorem State.prim_drew (p : Prim) (s : State) : ∃ used free, State.Drew s (s.prim p) used free := by
  cases p with
  | drive | delay | raise | assign => exact ⟨[], 0, rfl, rfl⟩
  | checkIdle =>
    refine ⟨[], 0, ?_⟩
    simp only [State.prim, State.checkIdle]
    split <;> exact ⟨rfl, rfl⟩
  | transmit b =>
    simp only [State.prim, State.transmit]
    split
    · have hf := State.emitAll_frame (bitbangEvents s.cfg.tBit b) s
      exact ⟨[], 0, (congrArg Spi.sched hf.1).symm, hf.2⟩
    · obtain ⟨cfg, lines, trace, op, pc, locals, fault, ⟨txbuf, txdone, inFlight, sched⟩, rx, inbox, ctr⟩ := s
      cases sched with
      | nil => refine ⟨[], 1, ?_⟩; simp only [State.transmitHw]; split <;> exact ⟨rfl, rfl⟩
      | cons z rest => refine ⟨[z], 0, ?_⟩; simp only [State.transmitHw]; split <;> exact ⟨rfl, rfl⟩

theorem State.runSteps_drew (ps : List Prim) (s : State) : ∃ used free, State.Drew s (s.runSteps ps) used free := by
  induction ps generalizing s with
  | nil => exact ⟨[], 0, .refl s⟩
  | cons p ps ih =>
    obtain ⟨u, f, h⟩ := State.prim_drew p s
    rw [State.runSteps_cons]
    split
    · exact ⟨u, f, h⟩
    · obtain ⟨u', f', h'⟩ := ih (s.prim p)
      exact ⟨_, _, h.trans h'⟩

/-- A step whose transfers complete within the bound does what it does without one (40_transport.md R107). -/
theorem State.prim_loose (p : Prim) {s : State} {used : List Nat} {n : Nat} (hn : s.cfg.txWaitBound = some n)
    (h : State.Drew s (s.loose.prim p) used 0) (hz : ∀ z ∈ used, z < n) : s.loose.prim p = (s.prim p).loose := by
  cases p with
  | drive | delay | raise | assign => rfl
  | checkIdle =>
    simp only [State.prim, State.checkIdle]
    rw [show s.loose.lines = s.lines from rfl]
    by_cases hi : s.lines.idle = true
    · rw [if_pos hi, if_pos hi]
    · rw [if_neg hi, if_neg hi]; rfl
  | transmit b =>
    simp only [State.prim, State.transmit] at h ⊢
    rw [show s.loose.cfg.transport = s.cfg.transport from rfl] at h ⊢
    cases ht : s.cfg.transport with
    | bitbang =>
      simp only [State.transmitBitbang, State.emitAll_loose]
      rfl
    | hw =>
      rw [ht] at h
      obtain ⟨cfg, lines, trace, op, pc, locals, fault, ⟨txbuf, txdone, inFlight, sched⟩, rx, inbox, ctr⟩ := s
      cases sched with
      | nil =>
        have hc := h.ctr
        simp only [State.transmitHw] at hc
        split at hc <;> (have hc : ctr + 1 = ctr := hc; omega)
      | cons z rest =>
        have hu : used = [z] := by
          have hs := h.sched
          simp only [State.transmitHw] at hs
          split at hs <;> exact (List.append_cancel_right (as := [z]) hs).symm
        have hz := hz z (by simp [hu])
        have hn : cfg.txWaitBound = some n := hn
        have hto : timesOut cfg.txWaitBound z = false := by
          rw [hn]; simp only [timesOut, decide_eq_false_iff_not]; omega
        simp only [State.transmitHw]
        split
        · rename_i hl; cases hl
        · split
          · rename_i hr; exact absurd hr (by show ¬ timesOut cfg.txWaitBound z = true; rw [hto]; simp)
          · rfl

/-- The same for a step list. -/
theorem State.runSteps_loose (ps : List Prim) {s : State} {used : List Nat} {n : Nat} (hn : s.cfg.txWaitBound = some n)
    (h : State.Drew s (s.loose.runSteps ps) used 0) (hz : ∀ z ∈ used, z < n) :
    s.loose.runSteps ps = (s.runSteps ps).loose := by
  induction ps generalizing s used with
  | nil => rfl
  | cons p ps ih =>
    obtain ⟨a, m, ha⟩ := State.prim_drew p s.loose
    have ha : State.Drew s (s.loose.prim p) a m := ⟨ha.sched, ha.ctr⟩
    rw [State.runSteps_cons] at h ⊢
    rw [State.runSteps_cons]
    by_cases hf : (s.loose.prim p).fault.isSome = true
    · rw [if_pos hf] at h ⊢
      have e := State.prim_loose p hn h hz
      rw [e] at hf ⊢
      rw [if_pos (show (s.prim p).fault.isSome = true from hf)]
    · rw [if_neg hf] at h ⊢
      obtain ⟨b, k, hb⟩ := State.runSteps_drew ps (s.loose.prim p)
      obtain ⟨rfl, rfl, rfl⟩ := h.split ha hb
      have e := State.prim_loose p hn ha fun z h => hz z (List.mem_append_left _ h)
      rw [e] at hf hb ⊢
      rw [if_neg (show ¬ (s.prim p).fault.isSome = true from hf)]
      exact ih (by rw [(State.prim_emits p s).1.1]; exact hn) ⟨hb.sched, hb.ctr⟩ fun z h =>
        hz z (List.mem_append_right _ h)

theorem State.finish_loose (s : State) : s.loose.finish = s.finish.loose := by
  unfold State.finish
  rw [show s.loose.fault = s.fault from rfl]
  split <;> rfl

theorem State.dropLocals_loose (s : State) : s.loose.dropLocals = s.dropLocals.loose := by
  unfold State.dropLocals
  rw [show s.loose.fault = s.fault from rfl]
  split <;> rfl

theorem State.finish_spi (u : State) : u.finish.spi = u.spi ∧ u.finish.freeCtr = u.freeCtr := by
  unfold State.finish; split <;> exact ⟨rfl, rfl⟩

theorem State.dropLocals_spi (u : State) : u.dropLocals.spi = u.spi ∧ u.dropLocals.freeCtr = u.freeCtr := by
  unfold State.dropLocals; split <;> exact ⟨rfl, rfl⟩

/-- The same for an operation issued. -/
theorem State.issue_loose {i : Instr} {ps : List Prim} {s t : State} {n : Nat} {used : List Nat}
    (hn : s.cfg.txWaitBound = some n) (h : s.loose.issue i ps = .next t)
    (hs : s.spi.sched = used ++ t.spi.sched) (hc : t.freeCtr = s.freeCtr) (hz : ∀ z ∈ used, z < n) :
    ∃ u, s.issue i ps = .next u ∧ t = u.loose := by
  unfold State.issue at h ⊢
  rw [show s.loose.fault = s.fault from rfl, show s.loose.op = s.op from rfl] at h
  split at h
  · cases h
  · split at h
    · cases h
    · cases h
      rw [(State.finish_spi _).1] at hs
      rw [(State.finish_spi _).2] at hc
      have e := State.runSteps_loose ps (s := s.start i) hn ⟨hs, hc⟩ hz
      exact ⟨_, rfl, by rw [← State.finish_loose, ← e]; rfl⟩

end Sys2Proof.Machine
end

