-- ==== Sys2Proof/Laws/Decode.lean ====
section
/-! SUPPORT. Reading the call syntax back: the tokens of what `callBytes` writes, and the calls those tokens
stand for; and which frame word each byte is. -/

namespace Sys2Proof

/-! ### The reader of tokens -/

theorem Lexer.read_append (l : Lexer) (as bs : List Byte) :
    l.read (as ++ bs) = (l.read as).bind fun l' => l'.read bs := by
  induction as generalizing l with
  | nil => rfl
  | cons a as ih =>
    simp only [List.cons_append, Lexer.read]
    cases l.push a with
    | none => rfl
    | some l' => exact ih l'

theorem Lexer.read_cons (l : Lexer) (b : Byte) (bs : List Byte) :
    l.read (b :: bs) = (l.push b).bind fun l' => l'.read bs := rfl

/-- A byte a name begins with begins no other token. -/
theorem Lexer.begin_name (toks : List Tok) (b : Byte) (h : isNameStart b = true) :
    Lexer.begin toks b = some ⟨toks, .name [b]⟩ := by
  have key : ∀ b : Byte, isNameStart b = true →
      b ≠ 0x28 ∧ b ≠ 0x29 ∧ b ≠ 0x5B ∧ b ≠ 0x5D ∧ b ≠ 0x2C ∧ b ≠ 0x20 ∧ b ≠ 0x22 ∧ b ≠ 0x27 ∧ b ≠ 0x30 ∧
        digit? b = none := by decide +kernel
  obtain ⟨h1, h2, h3, h4, h5, h6, h7, h8, h9, h10⟩ := key b h
  unfold Lexer.begin
  rw [if_neg h1, if_neg h2, if_neg h3, if_neg h4, if_neg h5, if_neg h6, if_neg h7, if_neg h8, if_neg h9, h10]
  simp [h]

theorem Lexer.read_nameRest (toks : List Tok) (cs ds rest : List Byte)
    (h : ds.all isNameByte = true) :
    (⟨toks, .name cs⟩ : Lexer).read (ds ++ rest) = (⟨toks, .name (cs ++ ds)⟩ : Lexer).read rest := by
  induction ds generalizing cs with
  | nil => simp
  | cons d ds ih =>
    simp only [List.all_cons, Bool.and_eq_true] at h
    rw [List.cons_append, Lexer.read_cons]
    simp only [Lexer.push, h.1, if_true, Option.bind_some]
    rw [ih _ h.2]
    simp

/-- A name a call may be written with. -/
def isName : List Byte → Bool
  | [] => false
  | b :: bs => isNameStart b && bs.all isNameByte

/-- A name and its opening bracket. -/
theorem Lexer.read_name (nm rest : List Byte) (h : isName nm = true) :
    (⟨[], .between⟩ : Lexer).read (nm ++ 0x28 :: rest) =
      (⟨[.name nm, .lpar], .between⟩ : Lexer).read rest := by
  cases nm with
  | nil => cases h
  | cons b bs =>
    simp only [isName, Bool.and_eq_true] at h
    rw [List.cons_append, Lexer.read_cons]
    simp only [Lexer.push, Lexer.begin_name _ _ h.1, Option.bind_some]
    rw [Lexer.read_nameRest _ _ _ _ h.2, Lexer.read_cons]
    have h1 : (⟨[], .name (b :: bs)⟩ : Lexer).push 0x28 = some ⟨[.name (b :: bs), .lpar], .between⟩ := by
      unfold Lexer.push
      rw [show isNameByte 0x28 = false from by decide]
      rfl
    rw [List.singleton_append, h1]
    rfl

theorem hexDigit?_hexByte {d : Nat} (h : d < 16) : hexDigit? (hexByte d) = some d := by
  have key : ∀ d : Fin 16, hexDigit? (hexByte d) = some d := by decide
  exact key ⟨d, h⟩

theorem Lexer.read_digits (toks : List Tok) (rest : List Byte) (fuel n : Nat) (any : Bool)
    (h : n < 16 ^ fuel) (hf : 0 < fuel) :
    (⟨toks, .hex 0 any⟩ : Lexer).read (hexDigits fuel n ++ rest) =
      (⟨toks, .hex n true⟩ : Lexer).read rest := by
  induction fuel generalizing n any rest with
  | zero => omega
  | succ fuel ih =>
    unfold hexDigits
    have hm : n % 16 < 16 := Nat.mod_lt _ (by omega)
    by_cases hn : n < 16
    · rw [if_pos hn, List.nil_append, List.singleton_append, Lexer.read_cons]
      simp only [Lexer.push, hexDigit?_hexByte hm, Option.bind_some]
      have : 16 * 0 + n % 16 = n := by omega
      rw [this]
    · rw [if_neg hn, List.append_assoc]
      have hp : n / 16 < 16 ^ fuel := by
        rw [Nat.pow_succ] at h
        exact Nat.div_lt_of_lt_mul (by omega)
      have h0 : 0 < fuel := by
        rcases Nat.eq_zero_or_pos fuel with h0 | h0
        · subst h0; omega
        · exact h0
      rw [ih _ (n / 16) any hp h0, List.singleton_append, Lexer.read_cons]
      simp only [Lexer.push, hexDigit?_hexByte hm, Option.bind_some]
      have : 16 * (n / 16) + n % 16 = n := by omega
      rw [this]

/-- The token of a byte that may follow a number. -/
def delim? (b : Byte) : Option Tok :=
  if b = 0x2C then some .comma else if b = 0x5D then some .rbr else if b = 0x29 then some .rpar else none

theorem delim?_begin {b : Byte} {t : Tok} (h : delim? b = some t) (toks : List Tok) :
    Lexer.begin toks b = some ⟨toks ++ [t], .between⟩ ∧ hexDigit? b = none := by
  unfold delim? at h
  split at h
  · rename_i hb; subst hb; cases h; exact ⟨rfl, by decide⟩
  · split at h
    · rename_i hb; subst hb; cases h; exact ⟨rfl, by decide⟩
    · split at h
      · rename_i hb; subst hb; cases h; exact ⟨rfl, by decide⟩
      · cases h

/-- A number and the byte after it. -/
theorem Lexer.read_num (toks : List Tok) (n : Nat) {b : Byte} {t : Tok} (hb : delim? b = some t)
    (rest : List Byte) :
    (⟨toks, .between⟩ : Lexer).read (numBytes n ++ b :: rest) =
      (⟨toks ++ [.num n, t], .between⟩ : Lexer).read rest := by
  have h0 : Lexer.begin toks 0x30 = some ⟨toks, .zero⟩ := rfl
  have hn : n < 16 ^ (n + 1) := Nat.lt_trans (Nat.lt_pow_self (by omega)) (Nat.pow_lt_pow_right (by omega) (by omega))
  obtain ⟨hb1, hb2⟩ := delim?_begin hb (toks ++ [.num n])
  unfold numBytes
  rw [List.append_assoc, List.cons_append, List.cons_append, List.nil_append, Lexer.read_cons]
  simp only [Lexer.push, h0, Option.bind_some]
  rw [Lexer.read_cons]
  simp only [Lexer.push, if_true, Option.bind_some]
  rw [Lexer.read_digits _ _ _ _ _ hn (by omega), Lexer.read_cons]
  simp only [Lexer.push, hb2, if_true, hb1, Option.bind_some]
  simp

/-- The tokens of elements with commas between. -/
def numToks : List Nat → List Tok
  | [] => []
  | [n] => [.num n]
  | n :: m :: rest => [.num n, .comma] ++ numToks (m :: rest)

theorem Lexer.read_nums (toks : List Tok) (ns : List Nat) (rest : List Byte) :
    (⟨toks, .between⟩ : Lexer).read (withCommas (ns.map numBytes) ++ 0x5D :: rest) =
      (⟨toks ++ numToks ns ++ [.rbr], .between⟩ : Lexer).read rest := by
  induction ns generalizing toks with
  | nil => simp [withCommas, numToks, Lexer.read_cons, Lexer.push, Lexer.begin]
  | cons n ns ih =>
    cases ns with
    | nil =>
      simp only [List.map_cons, List.map_nil, withCommas, numToks]
      rw [Lexer.read_num toks n (t := .rbr) (by decide)]
      simp
    | cons m ns =>
      simp only [List.map_cons, withCommas, numToks] at ih ⊢
      rw [List.append_assoc, List.append_assoc, List.cons_append, List.nil_append,
        Lexer.read_num toks n (t := .comma) (by decide), ih]
      simp

/-- The tokens of an argument. -/
def Arg.toks : Arg → List Tok
  | .num n => [.num n]
  | .list ns => [.lbr] ++ numToks ns ++ [.rbr]

/-- An argument and the byte after it. -/
theorem Lexer.read_arg (toks : List Tok) (a : Arg) {b : Byte} {t : Tok} (hb : delim? b = some t)
    (rest : List Byte) :
    (⟨toks, .between⟩ : Lexer).read (a.bytes ++ b :: rest) =
      (⟨toks ++ a.toks ++ [t], .between⟩ : Lexer).read rest := by
  cases a with
  | num n => simp only [Arg.bytes, Arg.toks]; rw [Lexer.read_num toks n hb]; simp
  | list ns =>
    have h0 : Lexer.begin toks 0x5B = some ⟨toks ++ [.lbr], .between⟩ := rfl
    simp only [Arg.bytes, Arg.toks]
    rw [List.append_assoc, List.append_assoc, List.singleton_append, Lexer.read_cons]
    simp only [Lexer.push, h0, Option.bind_some]
    rw [List.singleton_append, Lexer.read_nums, Lexer.read_cons]
    simp only [Lexer.push, (delim?_begin hb _).1, Option.bind_some]
    simp

/-- The tokens of an argument list, closing bracket included. -/
def argToks : List Arg → List Tok
  | [] => [.rpar]
  | [a] => a.toks ++ [.rpar]
  | a :: b :: rest => a.toks ++ [.comma] ++ argToks (b :: rest)

theorem Lexer.read_args (toks : List Tok) (args : List Arg) :
    (⟨toks, .between⟩ : Lexer).read (withCommas (args.map Arg.bytes) ++ [0x29]) =
      some ⟨toks ++ argToks args, .between⟩ := by
  induction args generalizing toks with
  | nil => simp [withCommas, argToks, Lexer.read, Lexer.push, Lexer.begin]
  | cons a args ih =>
    cases args with
    | nil =>
      simp only [List.map_cons, List.map_nil, withCommas, argToks]
      rw [Lexer.read_arg toks a (t := .rpar) (by decide)]
      simp [Lexer.read]
    | cons b args =>
      simp only [List.map_cons, withCommas, argToks] at ih ⊢
      rw [List.append_assoc, List.append_assoc, List.cons_append, List.nil_append,
        Lexer.read_arg toks a (t := .comma) (by decide), ih]
      simp

/-- The tokens of a call. -/
theorem lex_callBytes (nm : List Byte) (args : List Arg) (h : isName nm = true) :
    lex (callBytes nm args) = some ([.name nm, .lpar] ++ argToks args) := by
  unfold lex callBytes
  rw [List.append_assoc, List.append_assoc, List.singleton_append, Lexer.read_name _ _ h, Lexer.read_args]
  simp

/-! ### The reader of arguments -/

theorem ArgReader.read_append (r : ArgReader) (as bs : List Tok) :
    r.read (as ++ bs) = (r.read as).bind fun r' => r'.read bs := by
  induction as generalizing r with
  | nil => rfl
  | cons a as ih =>
    simp only [List.cons_append, ArgReader.read]
    cases r.push a with
    | none => rfl
    | some r' => exact ih r'

theorem ArgReader.read_nums (args : List Arg) (ns acc : List Nat) :
    (⟨args, .listAfter acc⟩ : ArgReader).read (ns.flatMap fun n => [.comma, .num n]) =
      some ⟨args, .listAfter (acc ++ ns)⟩ := by
  induction ns generalizing acc with
  | nil => simp [ArgReader.read]
  | cons n ns ih => simp [ArgReader.read, ArgReader.push, ArgReader.element, ih]

theorem numToks_cons (n : Nat) (ns : List Nat) :
    numToks (n :: ns) = .num n :: ns.flatMap fun m => [.comma, .num m] := by
  induction ns generalizing n with
  | nil => rfl
  | cons m ns ih => simp [numToks, ih m]

/-- An argument read where one may begin. -/
theorem ArgReader.read_arg (args : List Arg) (a : Arg) (m : ArgMode) (hm : m = .first ∨ m = .want) :
    (⟨args, m⟩ : ArgReader).read a.toks = some ⟨args ++ [a], .after⟩ := by
  have h1 : ∀ t : Tok, t ≠ .rpar → (⟨args, m⟩ : ArgReader).push t = ArgReader.begin args t := by
    intro t ht
    rcases hm with rfl | rfl
    · simp [ArgReader.push, ht]
    · rfl
  cases a with
  | num n =>
    simp only [Arg.toks, ArgReader.read]
    rw [h1 _ (by simp)]
    rfl
  | list ns =>
    simp only [Arg.toks]
    rw [List.append_assoc, List.singleton_append, ArgReader.read, h1 _ (by simp)]
    simp only [ArgReader.begin, Option.bind_some]
    cases ns with
    | nil => simp [numToks, ArgReader.read, ArgReader.push]
    | cons n ns =>
      rw [numToks_cons, List.cons_append, ArgReader.read]
      have : (⟨args, .listFirst⟩ : ArgReader).push (.num n) = some ⟨args, .listAfter [n]⟩ := by
        simp [ArgReader.push, ArgReader.element]
      rw [this, Option.bind_some, ArgReader.read_append, ArgReader.read_nums]
      simp [ArgReader.read, ArgReader.push]

theorem ArgReader.read_args (args done : List Arg) (a : Arg) (m : ArgMode) (hm : m = .first ∨ m = .want) :
    (⟨done, m⟩ : ArgReader).read (argToks (a :: args)) = some ⟨done ++ a :: args, .closed⟩ := by
  induction args generalizing a done m with
  | nil =>
    simp only [argToks]
    rw [ArgReader.read_append, ArgReader.read_arg _ _ _ hm]
    simp [ArgReader.read, ArgReader.push]
  | cons b args ih =>
    simp only [argToks]
    rw [List.append_assoc, ArgReader.read_append, ArgReader.read_arg _ _ _ hm]
    simp only [Option.bind_some, List.singleton_append, ArgReader.read]
    have : (⟨done ++ [a], .after⟩ : ArgReader).push .comma = some ⟨done ++ [a], .want⟩ := rfl
    rw [this, Option.bind_some, ih _ _ _ (.inr rfl)]
    simp

/-- The call that a name and its argument tokens stand for. -/
theorem parseCall_toks (nm : List Byte) (args : List Arg) :
    parseCall ([.name nm, .lpar] ++ argToks args) = some (nm, args) := by
  cases args with
  | nil => rfl
  | cons a args =>
    simp only [List.cons_append, List.nil_append, parseCall]
    rw [ArgReader.read_args args [] a .first (.inl rfl)]
    simp

/-- What a written call decodes to (30_encoding.md R91). -/
theorem decodeCall_callBytes (nm : List Byte) (args : List Arg) (h : isName nm = true) :
    decodeCall (callBytes nm args) =
      if callNames.contains nm then
        match buildArgs nm args with
        | some i => .ok i
        | none => .error .badArguments
      else .error .unknownName := by
  unfold decodeCall
  rw [lex_callBytes nm args h]
  simp only [parseCall_toks] <;> rfl

/-- A call that is a host operation has one of the seven names (30_encoding.md R86). -/
theorem buildArgs_hostOp {nm : List Byte} {args : List Arg} {i : Instr} (h : buildArgs nm args = some i)
    (hi : i.isHostOp = true) : nm ∈ hostNames := by
  have byte : ∀ (mk : Byte → Instr), (∀ b, (mk b).isHostOp = false) → bytePrimitive mk args ≠ some i := by
    intro mk hm hb
    unfold bytePrimitive at hb
    split at hb
    · obtain ⟨b, -, rfl⟩ := Option.map_eq_some_iff.1 hb
      rw [hm] at hi; cases hi
    · cases hb
  by_contra hn
  simp only [hostNames, List.mem_cons, List.not_mem_nil, or_false, not_or] at hn
  obtain ⟨h1, h2, h3, h4, h5, h6, h7⟩ := hn
  unfold buildArgs at h
  rw [if_neg h1, if_neg h2, if_neg h3, if_neg h4, if_neg h5, if_neg h6, if_neg h7] at h
  split at h
  · exact byte _ (fun _ => rfl) h
  split at h
  · exact byte _ (fun _ => rfl) h
  split at h
  · exact byte _ (fun _ => rfl) h
  split at h
  · exact byte _ (fun _ => rfl) h
  split at h
  · split at h
    · split at h
      · obtain ⟨c, -, rfl⟩ := Option.map_eq_some_iff.1 h
        cases hi
      · cases h
    · cases h
  split at h
  · exact byte _ (fun _ => rfl) h
  · cases h

/-- No frame word is a host operation. -/
theorem decodeFrame_isHostOp (o : Opcodes) (w : FrameWord) : (decodeFrame o w).isHostOp = false := by
  unfold decodeFrame
  split
  · rfl
  · cases o.command (w.setWidth 8) <;> rfl

theorem mapM_byteOf (bs : List Byte) : (bs.map BitVec.toNat).mapM byteOf? = some bs := by
  induction bs with
  | nil => rfl
  | cons b bs ih => simp [List.mapM_cons, ih, byteOf?, b.isLt]

theorem mapM_colourOf (cs : List Colour) : (cs.map BitVec.toNat).mapM colourOf? = some cs := by
  induction cs with
  | nil => rfl
  | cons c cs ih => simp [List.mapM_cons, ih, colourOf?, c.isLt]

/-- A written call has more bytes than a frame word. -/
theorem decode_callBytes (o : Opcodes) (nm : List Byte) (args : List Arg) (h : isName nm = true) :
    decode o (callBytes nm args) = decodeCall (callBytes nm args) := by
  cases nm with
  | nil => cases h
  | cons b bs =>
    have : ∃ c d rest, callBytes (b :: bs) args = b :: c :: d :: rest := by
      unfold callBytes
      cases bs with
      | nil =>
        cases hw : withCommas (args.map Arg.bytes) with
        | nil => exact ⟨0x28, 0x29, [], by simp⟩
        | cons e es => exact ⟨0x28, e, es ++ [0x29], by simp⟩
      | cons c cs =>
        cases cs with
        | nil => exact ⟨c, 0x28, withCommas (args.map Arg.bytes) ++ [0x29], by simp⟩
        | cons d ds => exact ⟨c, d, ds ++ [0x28] ++ withCommas (args.map Arg.bytes) ++ [0x29], by simp⟩
    obtain ⟨c, d, rest, hc⟩ := this
    rw [hc]
    rfl

/-! ### Frame words (30_encoding.md R71) -/

/-- The bytes of a frame word are read back as it (log 10). -/
theorem decode_bytes (o : Opcodes) (w : FrameWord) : decode o w.bytes = .ok (decodeFrame o w) := by
  have key : ∀ w : FrameWord, ((w >>> 8).setWidth 8 : Byte).toNat ≤ 1 ∧
      frameWord (((w >>> 8).setWidth 8 : Byte).getLsbD 0) (w.setWidth 8) = w := by decide +kernel
  obtain ⟨h1, h2⟩ := key w
  unfold decode FrameWord.bytes
  simp only [h1, if_true, h2]

theorem frameWord_parts (dc : Bool) (b : Byte) :
    (frameWord dc b).getLsbD 8 = dc ∧ (frameWord dc b).setWidth 8 = b := by
  have key : ∀ (dc : Bool) (b : Byte), (frameWord dc b).getLsbD 8 = dc ∧ (frameWord dc b).setWidth 8 = b := by
    decide +kernel
  exact key dc b

end Sys2Proof
end

