-- ==== Sys2Proof/Laws/PerInstr.lean ====
section
/-! SUPPORT. One lemma for each constructor of Instr: an instruction is written in exactly one way, as a frame
word (30_encoding.md R71) or as a call (R91). -/

namespace Sys2Proof.Laws.OneEncoding

open Sys2Proof

/-- Under any opcodes the instruction is a frame word or a call, and not both. -/
def Statement (i : Instr) : Prop := ∀ o : Opcodes, (i.frame? o).isSome = !i.call?.isSome

theorem cmdSwreset : Statement .cmdSwreset := fun _ => rfl

theorem cmdSlpout : Statement .cmdSlpout := fun _ => rfl

theorem cmdColmod : Statement .cmdColmod := fun _ => rfl

theorem cmdDispon : Statement .cmdDispon := fun _ => rfl

theorem cmdCaset : Statement .cmdCaset := fun _ => rfl

theorem cmdRaset : Statement .cmdRaset := fun _ => rfl

theorem cmdRamwr : Statement .cmdRamwr := fun _ => rfl

theorem data (d : Byte) : Statement (.data d) := fun _ => rfl

theorem cmdUnsupported (b : Byte) : Statement (.cmdUnsupported b) := fun _ => rfl

theorem init : Statement .init := fun _ => rfl

theorem setWindow (x1 y1 x2 y2 : Nat) : Statement (.setWindow x1 y1 x2 y2) := fun _ => rfl

theorem fillRectangle (x1 y1 x2 y2 colour : Nat) : Statement (.fillRectangle x1 y1 x2 y2 colour) := fun _ => rfl

theorem drawPixel (x y colour : Nat) : Statement (.drawPixel x y colour) := fun _ => rfl

theorem drawBitmap (x y scale : Nat) (bitmap : List Colour) : Statement (.drawBitmap x y scale bitmap) := fun _ => rfl

theorem drawChar (x y ch colour size : Nat) : Statement (.drawChar x y ch colour size) := fun _ => rfl

theorem drawString (x y colour size : Nat) (text : List Byte) : Statement (.drawString x y colour size text) := fun _ => rfl

theorem transmitHw (b : Byte) : Statement (.transmitHw b) := fun _ => rfl

theorem transmitBitbang (b : Byte) : Statement (.transmitBitbang b) := fun _ => rfl

theorem writeCommand (b : Byte) : Statement (.writeCommand b) := fun _ => rfl

theorem writeData (b : Byte) : Statement (.writeData b) := fun _ => rfl

theorem writePixels (c : Colour) (n : Nat) : Statement (.writePixels c n) := fun _ => rfl

theorem glyph (ch : Byte) : Statement (.glyph ch) := fun _ => rfl

end Sys2Proof.Laws.OneEncoding
end

