-- ==== Sys2Proof/Tests/Slice0.lean ====
section
/-! SUPPORT. Small tests of single steps, with expected results from spec/95_test_vectors.md and the encodings of
spec/30_encoding.md, and for every statement with hypotheses a witness that meets them. -/

namespace Sys2Proof.Tests

open Sys2Proof Sys2Proof.Machine

/-! ### Well-formedness: each check refuses an ill-formed term -/

theorem smoke_setWindow :
    (Instr.setWindow 255 255 255 255).wellFormed Opcodes.table = true ∧
      (Instr.setWindow 256 0 0 0).wellFormed Opcodes.table = false ∧
      (Instr.setWindow 0 256 0 0).wellFormed Opcodes.table = false ∧
      (Instr.setWindow 0 0 256 0).wellFormed Opcodes.table = false ∧
      (Instr.setWindow 0 0 0 256).wellFormed Opcodes.table = false := by decide

theorem smoke_fillRectangle :
    (Instr.fillRectangle 255 255 255 255 65535).wellFormed Opcodes.table = true ∧
      (Instr.fillRectangle 256 0 0 0 0).wellFormed Opcodes.table = false ∧
      (Instr.fillRectangle 0 256 0 0 0).wellFormed Opcodes.table = false ∧
      (Instr.fillRectangle 0 0 256 0 0).wellFormed Opcodes.table = false ∧
      (Instr.fillRectangle 0 0 0 256 0).wellFormed Opcodes.table = false ∧
      (Instr.fillRectangle 0 0 1 1 0x10000).wellFormed Opcodes.table = false := by decide

theorem smoke_drawPixel :
    (Instr.drawPixel 256 0 0).wellFormed Opcodes.table = false ∧
      (Instr.drawPixel 0 256 0).wellFormed Opcodes.table = false ∧
      (Instr.drawPixel 0 0 65536).wellFormed Opcodes.table = false := by decide

theorem smoke_drawBitmap :
    (Instr.drawBitmap 256 0 0 []).wellFormed Opcodes.table = false ∧
      (Instr.drawBitmap 0 256 0 []).wellFormed Opcodes.table = false ∧
      (Instr.drawBitmap 0 0 256 []).wellFormed Opcodes.table = false := by decide

theorem smoke_drawChar :
    (Instr.drawChar 256 0 0 0 0).wellFormed Opcodes.table = false ∧
      (Instr.drawChar 0 256 0 0 0).wellFormed Opcodes.table = false ∧
      (Instr.drawChar 0 0 256 0 0).wellFormed Opcodes.table = false ∧
      (Instr.drawChar 0 0 0 65536 0).wellFormed Opcodes.table = false ∧
      (Instr.drawChar 0 0 0 0 256).wellFormed Opcodes.table = false := by decide

theorem smoke_drawString :
    (Instr.drawString 256 0 0 0 []).wellFormed Opcodes.table = false ∧
      (Instr.drawString 0 256 0 0 []).wellFormed Opcodes.table = false ∧
      (Instr.drawString 0 0 65536 0 []).wellFormed Opcodes.table = false ∧
      (Instr.drawString 0 0 0 256 []).wellFormed Opcodes.table = false := by decide

theorem smoke_writePixels :
    (Instr.writePixels 0 1).wellFormed Opcodes.table = true ∧
      (Instr.writePixels 0 0).wellFormed Opcodes.table = false := by decide

theorem smoke_cmdUnsupported :
    (Instr.cmdUnsupported 0x36).wellFormed Opcodes.table = true ∧
      (Instr.cmdUnsupported 0x2A).wellFormed Opcodes.table = false := by decide

/-! ### Decoding: words written out from 30_encoding.md -/

/-- R73, R88: the seven command words, bit 8 clear. -/
theorem test_decode_commands :
    decodeTableWord 16 0b000000001 = some .cmdSwreset ∧
      decodeTableWord 16 0b000010001 = some .cmdSlpout ∧
      decodeTableWord 16 0b000111010 = some .cmdColmod ∧
      decodeTableWord 16 0b000101001 = some .cmdDispon ∧
      decodeTableWord 16 0b000101010 = some .cmdCaset ∧
      decodeTableWord 16 0b000101011 = some .cmdRaset ∧
      decodeTableWord 16 0b000101100 = some .cmdRamwr := by decide +kernel

/-- R71: bit 8 set is a data word, whatever the byte. -/
theorem test_decode_data :
    decodeTableWord 16 0b100101010 = some (.data 0x2A) ∧
      decodeTableWord 16 0b111111000 = some (.data 0xF8) := by decide +kernel

/-- R88: a command word that is none of the seven. -/
theorem test_decode_unsupported :
    decodeTableWord 16 0b000000000 = some (.cmdUnsupported 0x00) ∧
      decodeTableWord 16 0b000110110 = some (.cmdUnsupported 0x36) := by decide +kernel

/-- R91: `init()`, byte by byte. -/
theorem test_decode_init :
    decode Opcodes.table [0x69, 0x6E, 0x69, 0x74, 0x28, 0x29] = .ok .init := by decide +kernel

/-- R91: `set_window(2,3,5,7)`, byte by byte. -/
theorem test_decode_setWindow :
    decode Opcodes.table [0x73, 0x65, 0x74, 0x5F, 0x77, 0x69, 0x6E, 0x64, 0x6F, 0x77, 0x28, 0x32, 0x2C, 0x33,
      0x2C, 0x35, 0x2C, 0x37, 0x29] = .ok (.setWindow 2 3 5 7) := by decide +kernel

theorem test_decode_fillRectangle :
    decode Opcodes.table (ascii "fill_rectangle(0, 0, 1, 1, 0xF800)") = .ok (.fillRectangle 0 0 1 1 0xF800) := by
  decide +kernel

theorem test_decode_drawPixel :
    decode Opcodes.table (ascii "draw_pixel(1,1,0x001f)") = .ok (.drawPixel 1 1 0x1F) := by decide +kernel

theorem test_decode_drawBitmap :
    decode Opcodes.table (ascii "draw_bitmap(4,4,1,[2,1,0x1111,0x2222])") =
      .ok (.drawBitmap 4 4 1 [2, 1, 0x1111, 0x2222]) := by decide +kernel

theorem test_decode_drawChar :
    decode Opcodes.table (ascii "draw_char(10,20,'A',65535,2)") = .ok (.drawChar 10 20 0x41 0xFFFF 2) := by
  decide +kernel

/-- R91: a quoted text "stands for its bytes followed by 0x00". -/
theorem test_decode_drawString :
    decode Opcodes.table (ascii "draw_string(0,0,0xFFFF,1,\"AR\")") =
      .ok (.drawString 0 0 0xFFFF 1 [0x41, 0x52, 0x00]) := by decide +kernel

theorem test_decode_primitives :
    decode Opcodes.table (ascii "transmit.HW(0x2C)") = .ok (.transmitHw 0x2C) ∧
      decode Opcodes.table (ascii "transmit.BITBANG(165)") = .ok (.transmitBitbang 0xA5) ∧
      decode Opcodes.table (ascii "write_command(42)") = .ok (.writeCommand 0x2A) ∧
      decode Opcodes.table (ascii "write_data(5)") = .ok (.writeData 0x05) ∧
      decode Opcodes.table (ascii "write_pixels(0xF800,2)") = .ok (.writePixels 0xF800 2) ∧
      decode Opcodes.table (ascii "glyph(0x41)") = .ok (.glyph 0x41) := by decide +kernel

theorem test_decode_rejects :
    decode Opcodes.table (ascii "draw_line(0,0,1,1,0)") = .error .unknownName ∧
      decode Opcodes.table (ascii "init") = .error .badToken ∧
      decode Opcodes.table (ascii "init(1)") = .error .badArguments ∧
      decode Opcodes.table (ascii "init)(") = .error .badCall ∧
      decode Opcodes.table (ascii "write_pixels(0,0)") = .error .badArguments ∧
      decode Opcodes.table (ascii "write_data(256)") = .error .badArguments := by decide +kernel

/-! ### Small states -/

/-- After `board_setup()`, with an empty trace. -/
def ready : State := { State.reset with
  lines := ⟨.high, .high, .high, .unknown, .unknown⟩
  rx := { Rx.blank none with rst := .high, nbits := some 0 } }

/-- A receiver that a completed `init` has brought up (95_test_vectors.md I1). -/
def upRx : Rx := { Rx.blank none with
  nbits := some 0, mode := .idle, colmod := some 0x05, sleep := .awake, disp := .on, hi := .empty, rst := .high
  settle := .clear }

/-- After `board_setup(); init()`, with an empty trace. -/
def booted : State := { ready with rx := upRx }

/-- The receiver's window `(0, 0, 1, 0)` is open. -/
def painting : State := { booted with rx := { upRx with
  mode := .pixels, xs := some 0, xe := some 1, ys := some 0, ye := some 0, pc := some 0, pr := some 0 } }

/-- The HW transport without a bound. -/
def hwConfig : Config :=
  { toParams := { Params.vectors with transport := .hw }, lawful := by decide +kernel }

/-- The HW transport with `TX_WAIT_BOUND = 3`. -/
def hwBounded : Config :=
  { toParams := { Params.vectors with transport := .hw, txWaitBound := some 3 }, lawful := by decide +kernel }

/-- HW, the first transfer done after two polls that read 0. -/
def readyHw : State := { ready with cfg := hwConfig, spi := ⟨none, none, none, [2, 0, 0, 0, 0, 0, 0, 0, 0, 0, 0]⟩ }

/-- HW with a bound of 3 and a peripheral that takes 3 polls. -/
def slowHw : State := { ready with cfg := hwBounded, spi := ⟨none, none, none, [3]⟩ }

/-- HW with a bound of 3 and a peripheral that takes 2 polls. -/
def quickHw : State := { ready with cfg := hwBounded, spi := ⟨none, none, none, [2]⟩ }

/-- `booted` on the HW transport, with a peripheral that is done at the first poll of sixty transfers. -/
def bootedHw : State := { booted with cfg := hwConfig, spi := ⟨none, none, none, List.replicate 60 0⟩ }

/-- The frames an instruction puts on the bus. -/
def framesOf (i : Instr) (s : State) : Option (List FrameEvent) :=
  match exec i s with
  | .next t => some (projFrom s.lines (t.trace.drop s.trace.length))
  | .fault _ | .refused _ => none

/-- A part of the state after an instruction. -/
def afterward {α : Type} (i : Instr) (s : State) (f : State → α) : Option α :=
  match exec i s with
  | .next t => some (f t)
  | .fault _ | .refused _ => none

/-- The fault's code after an instruction, with the number of bus events. -/
def faultOf (i : Instr) (s : State) : Option (Option FaultCode × Nat) :=
  afterward i s fun t => (t.fault.map FaultRecord.code, t.trace.length)

/-- `[C:b]`. -/
def cmdF (b : Byte) : List FrameEvent := [.csFall, .cmd b, .csRise]

/-- `[D:b]`. -/
def datF (b : Byte) : List FrameEvent := [.csFall, .dat b, .csRise]

/-- The frame group of a window under the table's opcodes. -/
def winF (x1 y1 x2 y2 : Byte) : List FrameEvent :=
  cmdF 0x2A ++ datF 0 ++ datF x1 ++ datF 0 ++ datF x2 ++ cmdF 0x2B ++ datF 0 ++ datF y1 ++ datF 0 ++ datF y2 ++
    cmdF 0x2C

/-! ### One step: the transports and the primitives -/

/-- T1: the levels of `SDO` are the bits 1,0,1,0,0,1,0,1; 24 events. -/
theorem test_transmitBitbang_events : afterward (.transmitBitbang 0xA5) ready (fun t => t.trace) =
    some [.drive .sck false, .drive .sdo true, .drive .sck true, .drive .sck false, .drive .sdo false, .drive .sck true,
      .drive .sck false, .drive .sdo true, .drive .sck true, .drive .sck false, .drive .sdo false, .drive .sck true,
      .drive .sck false, .drive .sdo false, .drive .sck true, .drive .sck false, .drive .sdo true, .drive .sck true,
      .drive .sck false, .drive .sdo false, .drive .sck true, .drive .sck false, .drive .sdo true,
      .drive .sck true] := by decide +kernel

/-- T2: after 0x80 `SCK` is 1 and `SDO` is 0. -/
theorem test_transmitBitbang_lines : afterward (.transmitBitbang 0x80) ready (fun t => t.lines) =
    some ⟨.high, .high, .high, .high, .low⟩ := by decide +kernel

/-- T4. -/
theorem test_transmitHw : afterward (.transmitHw 0x2C) readyHw
    (fun t => (t.trace, t.spi.txbuf, t.spi.txdone, t.locals.polls)) =
      some ([.txByte 0x2C], some 0x2C, some true, some 2) := by decide +kernel

/-- T5: three polls read 0. -/
theorem test_transmitHw_timeout : faultOf (.transmitHw 0x2C) slowHw = some (some (.txTimeout 0x2C), 1) := by
  decide +kernel

/-- F1: 28 events, one command frame. -/
theorem test_writeCommand : framesOf (.writeCommand 0x2A) ready = some (cmdF 0x2A) ∧
    afterward (.writeCommand 0x2A) ready (fun t => t.trace.length) = some 28 := by decide +kernel

/-- F3: five events in HW. -/
theorem test_writeCommand_hw : afterward (.writeCommand 0x2A) readyHw (fun t => t.trace) =
    some [.drive .dc false, .drive .cs false, .txByte 0x2A, .drive .cs true, .drive .dc true] := by decide +kernel

/-- F2: 26 events, one data frame, `DC` stays 1. -/
theorem test_writeData : framesOf (.writeData 0x05) ready = some (datF 0x05) ∧
    afterward (.writeData 0x05) ready (fun t => (t.trace.length, t.lines.dc)) = some (26, .high) := by decide +kernel

/-- P1: 98 events. -/
theorem test_writePixels :
    framesOf (.writePixels 0xF800 2) ready = some [.csFall, .dat 0xF8, .dat 0, .dat 0xF8, .dat 0, .csRise] ∧
      afterward (.writePixels 0xF800 2) ready (fun t => t.trace.length) = some 98 := by decide +kernel

/-- X1, X2: one glyph of each table. -/
theorem test_glyph :
    afterward (.glyph 0x41) ready (fun t => t.locals.g) = some (some [0x01, 0, 0, 0, 0x40]) ∧
      afterward (.glyph 0x52) ready (fun t => t.locals.g) = some (some [0x03, 0, 0, 0, 0]) := by decide +kernel

/-- X3 to X5, with the range of R190. -/
theorem test_glyph_range : faultOf (.glyph 0x1F) ready = some (some (.charRange 0x1F), 0) ∧
    faultOf (.glyph 0x20) ready = some (none, 0) ∧ faultOf (.glyph 0x7E) ready = some (none, 0) ∧
    faultOf (.glyph 0x7F) ready = some (some (.charRange 0x7F), 0) := by decide +kernel

/-! ### One step: the host operations -/

/-- V1: 292 events. -/
theorem test_setWindow : framesOf (.setWindow 2 3 5 7) booted = some (winF 2 3 5 7) ∧
    afterward (.setWindow 2 3 5 7) booted (fun t => (t.trace.length, t.rx.mode, t.rx.pc, t.rx.pr)) =
      some (292, .pixels, some 2, some 3) := by decide +kernel

/-- V3, V4: no fault, and the receiver is undefined. -/
theorem test_setWindow_bad :
    afterward (.setWindow 5 0 2 0) booted (fun t => (t.fault, t.rx.undef)) = some (none, some .badWindow) ∧
      afterward (.setWindow 0 0 128 0) booted (fun t => (t.fault, t.rx.undef)) = some (none, some .badWindow) := by
  decide +kernel

/-- P2: the four cells, and the pointer wrapped. -/
theorem test_fillRectangle : afterward (.fillRectangle 1 1 2 2 0xF800) booted
    (fun t => (Memory.read t.rx.fb 1 1, Memory.read t.rx.fb 2 2, Memory.read t.rx.fb 0 0, t.rx.pc, t.rx.pr)) =
      some (some 0xF800, some 0xF800, none, some 1, some 1) := by decide +kernel

/-- P4. -/
theorem test_fillRectangle_inverted :
    faultOf (.fillRectangle 2 1 1 1 0) booted = some (some (.windowInverted 2 1 1 1), 0) := by decide +kernel

/-- R24, R162: a transfer that times out in the second of four pixels leaves the loop indices and the bytes. -/
theorem test_fillRectangle_locals : afterward (.fillRectangle 1 1 2 2 0xF800)
    { booted with cfg := hwBounded, spi := ⟨none, none, none, List.replicate 13 0 ++ [3]⟩ }
    (fun t => (t.locals.r, t.locals.q, t.locals.hi, t.locals.lo, t.locals.polls)) =
      some (some 1, some 2, some 0xF8, some 0, some 3) := by decide +kernel

/-- P7: 344 events, one cell, the pointer one column on. -/
theorem test_drawPixel : framesOf (.drawPixel 10 20 0x1234) booted =
      some (winF 10 20 11 21 ++ datF 0x12 ++ datF 0x34) ∧
    afterward (.drawPixel 10 20 0x1234) booted
      (fun t => (t.trace.length, Memory.read t.rx.fb 20 10, Memory.read t.rx.fb 20 11, t.rx.pc, t.rx.pr)) =
      some (344, some 0x1234, none, some 11, some 20) := by decide +kernel

/-- P10, P11, and P9, which is no fault. -/
theorem test_drawPixel_edge : faultOf (.drawPixel 255 0 0) booted = some (some (.coordRange 256), 0) ∧
    faultOf (.drawPixel 0 255 0) booted = some (some (.coordRange 256), 0) ∧
    afterward (.drawPixel 127 0 0xFFFF) booted (fun t => (t.fault, t.rx.undef)) =
      some (none, some .badWindow) := by decide +kernel

/-- P12: two scaled source pixels. -/
theorem test_drawBitmap : framesOf (.drawBitmap 0 0 2 [2, 1, 0xAAAA, 0x5555]) booted =
    some (winF 0 0 1 1 ++ [.csFall, .dat 0xAA, .dat 0xAA, .dat 0xAA, .dat 0xAA, .dat 0xAA, .dat 0xAA, .dat 0xAA,
      .dat 0xAA, .csRise] ++ winF 2 0 3 1 ++ [.csFall, .dat 0x55, .dat 0x55, .dat 0x55, .dat 0x55, .dat 0x55,
      .dat 0x55, .dat 0x55, .dat 0x55, .csRise]) := by decide +kernel

/-- P13, P14, P15, P16: the faults of a bitmap. -/
theorem test_drawBitmap_faults : faultOf (.drawBitmap 0 0 0 [1, 1, 7]) booted = some (some (.coordRange (-1)), 0) ∧
    faultOf (.drawBitmap 1 1 0 [1, 1, 7]) booted = some (some (.windowInverted 1 1 0 0), 0) ∧
    afterward (.drawBitmap 0 0 1 [2, 2, 1, 2, 3]) bootedHw
      (fun t => (t.fault.map FaultRecord.code, Memory.read t.rx.fb 1 0)) = some (some (.bitmapBounds 5), some 3) ∧
    faultOf (.drawBitmap 0 0 1 [2]) booted = some (some (.bitmapBounds 1), 0) := by decide +kernel

/-- X8 (W4): two pixels, in this order. -/
theorem test_drawChar : framesOf (.drawChar 10 10 0x41 0xFFFF 1) bootedHw =
    some (winF 10 10 11 11 ++ datF 0xFF ++ datF 0xFF ++ (winF 14 16 15 17 ++ datF 0xFF ++ datF 0xFF)) := by
  decide +kernel

/-- X6, X10, X13, X14. -/
theorem test_drawChar_faults : faultOf (.drawChar 0 0 0x0A 0 1) booted = some (some (.charRange 0x0A), 0) ∧
    faultOf (.drawChar 0 0 0x42 0 1) booted = some (none, 0) ∧
    faultOf (.drawChar 5 5 0x41 0 0) booted = some (some (.windowInverted 5 5 4 4), 0) ∧
    faultOf (.drawChar 0 3 0x41 0 0) booted = some (some (.coordRange (-1)), 0) := by decide +kernel

/-- Program 2: four pixels across both font tables. -/
theorem test_drawString : afterward (.drawString 0 0 0xFFFF 1 [0x41, 0x52, 0, 0x41]) bootedHw
    (fun t => (t.rx.fb.map Prod.fst, t.rx.pc, t.rx.pr)) =
      some ([0, 6, 65536 + 6, 6 * 65536 + 4], some 7, some 1) := by decide +kernel

/-- X17, X18, X19. -/
theorem test_drawString_faults : faultOf (.drawString 0 0 0 1 [0]) booted = some (none, 0) ∧
    faultOf (.drawString 0 0 0 1 [0x20]) booted = some (some (.stringBounds 1), 0) ∧
    faultOf (.drawString 250 0 0 1 [0x20, 0x20, 0]) booted = some (some (.coordRange 256), 0) := by decide +kernel

/-- I1. -/
theorem test_init : framesOf .init ready = some ([.rstLow, .wait .rstPulse, .rstHigh, .wait .rstSettle] ++
      cmdF 0x01 ++ [.wait .swresetSettle] ++ cmdF 0x11 ++ [.wait .slpoutSettle] ++ cmdF 0x3A ++ datF 0x05 ++
      cmdF 0x29) ∧
    afterward .init ready (fun t => (t.trace.length, t.rx.sansSerial)) = some (144, upRx.sansSerial) := by
  decide +kernel

/-- I6: `init` after a fill leaves the receiver as the first `init` did. -/
theorem test_init_again : afterward .init
    { booted with rx := { painting.rx with pbuf := ⟨some 0, some 0, some 0, some 0⟩, fb := [(0, 1)] } }
    (fun t => t.rx.sansSerial) = some upRx.sansSerial := by decide +kernel

/-- I2, V7, E1: before `board_setup()`. -/
theorem test_init_lines :
    faultOf .init State.reset = some (some (.linesNotIdle .unknown .unknown .unknown), 0) := by decide +kernel

/-! ### One step: the frame words at the receiver -/

/-- Q11: a software reset is allowed from `U`. -/
theorem test_cmdSwreset : afterward .cmdSwreset State.reset (fun t => (t.rx.mode, t.rx.settle, t.rx.sleep, t.rx.disp)) =
    some (.idle, .need 120, .asleep, .off) := by decide +kernel

/-- R246: any other command is not. -/
theorem test_cmdSlpout_unreset :
    afterward .cmdSlpout State.reset (fun t => t.rx.undef) = some (some .notReset) := by decide +kernel

/-- R249. -/
theorem test_cmdSlpout : afterward .cmdSlpout booted (fun t => (t.rx.sleep, t.rx.settle)) =
    some (.awake, .need 120) := by decide +kernel

/-- R251. -/
theorem test_cmdDispon : afterward .cmdDispon { booted with rx := { upRx with disp := .off } }
    (fun t => (t.rx.disp, t.rx.mode)) = some (.on, .idle) := by decide +kernel

/-- R244, R250. -/
theorem test_cmdColmod : afterward .cmdColmod booted (fun t => t.rx.mode) = some (.param .colmod) := by decide +kernel

/-- R244. -/
theorem test_cmdCaset : afterward .cmdCaset booted (fun t => t.rx.mode) = some (.param (.caset 0)) := by decide +kernel

/-- R244. -/
theorem test_cmdRaset : afterward .cmdRaset booted (fun t => t.rx.mode) = some (.param (.raset 0)) := by decide +kernel

/-- Q4: a command while parameters are awaited. -/
theorem test_cmdRaset_partial : afterward .cmdRaset { booted with rx := { upRx with mode := .param (.caset 2) } }
    (fun t => t.rx.undef) = some (some .partialParams) := by decide +kernel

/-- Q5. -/
theorem test_cmdRamwr_noWindow : afterward .cmdRamwr booted (fun t => t.rx.undef) = some (some .noWindow) := by
  decide +kernel

/-- R253: the pointer at the window's corner. -/
theorem test_cmdRamwr : afterward .cmdRamwr
    { painting with rx := { painting.rx with mode := .idle, pc := none, pr := none } }
    (fun t => (t.rx.mode, t.rx.pc, t.rx.pr)) = some (.pixels, some 0, some 0) := by decide +kernel

/-- Q1's wrap: the last pixel of the window, then the first again. -/
theorem test_data_wrap : afterward (.data 0x22)
    { painting with rx := { painting.rx with pc := some 1, hi := .byte 0x22 } }
    (fun t => (t.rx.fb, t.rx.pc, t.rx.pr, t.rx.hi)) = some ([(1, 0x2222)], some 0, some 0, .empty) := by decide +kernel

/-- Q3 and Q8's parameter: `XE = 0x0100`. -/
theorem test_data : afterward (.data 0) booted (fun t => t.rx.undef) = some (some .strayData) ∧
    afterward (.data 0x00)
      { booted with rx := { upRx with mode := .param (.caset 3), pbuf := ⟨some 0, some 5, some 1, none⟩ } }
      (fun t => (t.rx.xs, t.rx.xe, t.rx.mode)) = some (some 5, some 0x100, .idle) := by decide +kernel

/-- Q6. -/
theorem test_cmdUnsupported : afterward (.cmdUnsupported 0x36) booted (fun t => t.rx.undef) =
    some (some .unsupportedCmd) := by decide +kernel

/-! ### Witnesses: for every statement with hypotheses, a state and operands that meet them together -/

theorem ran {α : Type} {i : Instr} {s : State} {f : State → α} {a : α} (h : afterward i s f = some a) :
    ∃ t, exec i s = .next t ∧ f t = a := by
  unfold afterward at h
  split at h
  · exact ⟨_, ‹_›, by simpa using h⟩
  · simp at h
  · simp at h

/-- A part of the state after a step. -/
def stepped {α : Type} (s : State) (f : State → α) : Option α :=
  match step s with
  | .next t => some (f t)
  | .fault _ | .refused _ => none

theorem stepped_ran {α : Type} {s : State} {f : State → α} {a : α} (h : stepped s f = some a) :
    ∃ t, step s = .next t ∧ f t = a := by
  unfold stepped at h
  split at h
  · exact ⟨_, ‹_›, by simpa using h⟩
  · simp at h
  · simp at h

/-- A state with these inputs pending. -/
def given (s : State) (inputs : List Input) : State := { s with inbox := inputs }

/-- R241: a rise of `CS` resets the bit count. -/
theorem test_csRise : stepped (given State.reset [.wire .csRise]) (fun t => t.rx.nbits) = some (some 0) := by
  decide

/-- `booted` with its receiver changed. -/
def heard (f : Rx → Rx) : State := { booted with rx := f upRx }

theorem ready_Ready : ready.Ready := ⟨⟨rfl, rfl⟩, by decide⟩
theorem ready_Aligned : ready.Aligned := rfl
theorem ready_Untimed : ready.Untimed := .inl rfl
theorem booted_Ready : booted.Ready := ⟨⟨rfl, rfl⟩, by decide⟩
theorem booted_Aligned : booted.Aligned := rfl
theorem booted_Untimed : booted.Untimed := .inl rfl
theorem upRx_Listening : upRx.Listening := ⟨⟨rfl, by decide, rfl⟩, .inl rfl, rfl⟩
theorem upRx_BetweenOps : upRx.BetweenOps := ⟨nofun, nofun, nofun, fun _ => rfl⟩
theorem painting_Awake : painting.rx.Awake := ⟨rfl, nofun, rfl⟩

theorem painting_pixels : painting.rx.PixelsInv painting.cfg := fun _ =>
  ⟨0, 1, 0, 0, 0, 0, rfl, rfl, rfl, rfl, rfl, rfl, by decide, by decide, by decide, by decide, by decide, rfl⟩

theorem painting_Inv : painting.Inv where
  receiver := ⟨by decide, nofun, painting_pixels, ⟨nofun, nofun⟩, nofun⟩
  aligned := rfl
  resting := fun _ => ⟨rfl, rfl, nofun, nofun, nofun⟩
  stopped := nofun
  transport := ⟨rfl, rfl, rfl⟩

/-- `painting` with the high byte of a pixel pending. -/
def halfPainted : State := { painting with rx := { painting.rx with hi := .byte 0x12 } }

theorem halfPainted_Inv : halfPainted.Inv where
  receiver := ⟨by decide, nofun, painting_pixels, ⟨fun _ _ => rfl, nofun⟩, nofun⟩
  aligned := rfl
  resting := fun _ => ⟨rfl, rfl, nofun, nofun, nofun⟩
  stopped := nofun
  transport := ⟨rfl, rfl, rfl⟩

/-- A fault already taken. -/
def stuck : State := { ready with
  op := .busy (.glyph 0x1F), fault := some ⟨.charRange 0x1F, .busy (.glyph 0x1F), 0⟩ }

theorem witness_StepKeepsInvariant :
    (given painting [.instr [0x22, 0x01]]).Inv ∧ ∃ t, step (given painting [.instr [0x22, 0x01]]) = .next t :=
  ⟨⟨painting_Inv.receiver, painting_Inv.aligned, painting_Inv.resting, painting_Inv.stopped,
    painting_Inv.transport⟩, ⟨_, rfl⟩⟩

theorem witness_StepKeepsInstance : ∃ t, step (given painting [.boardSetup]) = .next t := ⟨_, rfl⟩

theorem witness_FaultsAreSticky_taken : (Instr.glyph 0x1F).isPrimitive = true ∧ ready.fault = none ∧
    ∃ t r, exec (.glyph 0x1F) ready = .next t ∧ t.fault = some r :=
  ⟨rfl, rfl, _, _, rfl, rfl⟩

theorem witness_FaultsAreSticky_host : (Instr.init).isHostOp = true ∧ State.reset.fault = none ∧
    ∃ t r, exec .init State.reset = .next t ∧ t.fault = some r :=
  ⟨rfl, rfl, _, _, rfl, rfl⟩

theorem witness_FaultsAreSticky_later : (Instr.setWindow 255 0 0 0).isHostOp = true ∧
    (Instr.setWindow 255 0 0 0).argsFit = true ∧ (Instr.transmitBitbang 0x2C).isPrimitive = true ∧
    (Instr.transmitBitbang 0x2C).argsFit = true ∧ stuck.cfg.transport = .bitbang ∧
    (Instr.writePixels 7 1).isPrimitive = true ∧ (∃ r, stuck.fault = some r) ∧
    ∃ t, step (given stuck [.boardSetup]) = .next t :=
  ⟨rfl, by decide, rfl, by decide, rfl, rfl, ⟨_, rfl⟩, _, rfl⟩

theorem witness_StepRunsTheDecoded :
    (∃ i, decode ready.cfg.opcodes [0x2C, 0x00] = .ok i ∧ i.isHostOp = false ∧
      (given ready [.instr [0x2C, 0x00]]).inbox = [.instr [0x2C, 0x00]] ∧
      (given ready [.call [0x2C, 0x00]]).inbox = [.call [0x2C, 0x00]]) ∧
    (∃ i, decode ready.cfg.opcodes (ascii "init()") = .ok i ∧ i.isHostOp = true) ∧
    (∃ why, decode ready.cfg.opcodes (ascii "draw_line()") = .error why) ∧
    (given ready [.wire .csFall]).inbox = [.wire .csFall] ∧ ready.inbox = [] :=
  ⟨⟨.cmdRamwr, by decide +kernel, rfl, rfl, rfl⟩, ⟨.init, by decide +kernel, rfl⟩,
    ⟨.unknownName, by decide +kernel⟩, rfl, rfl⟩

theorem witness_DecodeUndoesEncode : Opcodes.table.all.Nodup ∧
    (Instr.drawString 255 0 65535 255 [0x41, 0xFF, 0]).wellFormed Opcodes.table = true ∧
    (Instr.cmdUnsupported 0xFF).wellFormed Opcodes.table = true := by decide

theorem witness_EveryFrameWordDecodes : Opcodes.table.all.Nodup ∧ (0x1FF : FrameWord).getLsbD 8 = true ∧
    (0x036 : FrameWord).getLsbD 8 = false ∧ ¬ (0x036 : FrameWord).setWidth 8 ∈ Opcodes.table.all := by decide

theorem witness_UnknownOperationRefused : isNameStart 0x64 = true ∧
    (ascii "raw_line").all isNameByte = true ∧ ¬ (0x64 :: ascii "raw_line") ∈ callNames ∧ isNameStart 0x67 = true ∧
    (ascii "lyph").all isNameByte = true ∧ ¬ (0x67 :: ascii "lyph") ∈ hostNames := by decide +kernel

/-- R87, R286: a primitive is none of the caller's operations. -/
theorem test_caller_primitive : step (given booted [.call (ascii "write_command(42)")]) =
    .refused (.unknownOp .notHostOp) := by
  have h : decodeCaller booted.cfg.opcodes (ascii "write_command(42)") = .error .notHostOp := by decide +kernel
  unfold step
  simp only [given]
  rw [h]

theorem witness_ArgWidthRefused : exec (.setWindow 0 0 256 0) ready = .refused .argWidth ∧
    exec (.fillRectangle 0 0 0 0 65536) ready = .refused .argWidth ∧
    exec (.drawPixel 0 256 0) ready = .refused .argWidth ∧
    exec (.drawBitmap 0 0 256 []) ready = .refused .argWidth ∧
    exec (.drawChar 0 0 256 0 0) ready = .refused .argWidth ∧
    exec (.drawString 0 0 0 256 []) ready = .refused .argWidth := ⟨rfl, rfl, rfl, rfl, rfl, rfl⟩

theorem witness_ConcurrentCallerRefused : (Instr.init).isHostOp = true ∧ (Instr.init).argsFit = true ∧
    ({ ready with op := .busy .init } : State).fault = none := ⟨rfl, rfl, rfl⟩

theorem witness_PrimitivesOutOfRangeRefused :
    ready.cfg.transport = .bitbang ∧ readyHw.cfg.transport = .hw := ⟨rfl, rfl⟩

theorem witness_ResetClearsReceiver :
    (booted.rx.undef = none ∧ (∀ ok, booted.rx.rst ≠ .low ok) ∧ booted.rx.Listening) ∧
    (ready.rx.undef = none ∧ (∀ ok, ready.rx.rst ≠ .low ok) ∧ ready.rx.mode = .unknown) ∧
    (heard fun r => { r with rst := .low true }).rx.undef = none ∧
    (heard fun r => { r with rst := .low true }).rx.rst = .low true :=
  ⟨⟨rfl, nofun, upRx_Listening⟩, ⟨rfl, nofun, rfl⟩, rfl, rfl⟩

theorem witness_SleepOutWakes : booted.rx.Listening := upRx_Listening

theorem witness_DisplayOn : painting.rx.Listening := ⟨painting_Awake, .inr rfl, rfl⟩

theorem witness_PixelFormatSets : booted.rx.Listening ∧
    ((heard fun r => { r with mode := .param .colmod }).rx.Awake ∧
      (heard fun r => { r with mode := .param .colmod }).rx.mode = .param .colmod) ∧
    ∃ s : State, s.rx.Listening ∧ s.rx.xs = some 0 ∧ s.rx.xe = some 127 ∧ s.rx.ys = some 0 ∧
      s.rx.ye = some 127 ∧ badWindow s.cfg 0 127 0 127 = false ∧ s.rx.colmod ≠ some s.cfg.colmod16bpp :=
  ⟨upRx_Listening, ⟨⟨rfl, nofun, rfl⟩, rfl⟩,
    heard fun r => { r with xs := some 0, xe := some 127, ys := some 0, ye := some 127, colmod := some 6 },
    ⟨⟨rfl, nofun, rfl⟩, .inl rfl, rfl⟩, rfl, rfl, rfl, rfl, by decide, by decide⟩

theorem witness_AddressBytesSetTheWindow : booted.rx.Listening ∧
    ((heard fun r => { r with mode := .param (.caset 0) }).rx.Awake ∧ (0 : Fin 4) ≠ 3) ∧
    ((heard fun r => { r with mode := .param (.raset 2) }).rx.Awake ∧ (2 : Fin 4) ≠ 3) ∧
    (∃ s : State, s.rx.Awake ∧ s.rx.mode = .param (.caset 3) ∧ s.rx.pbuf.p0 = some 0 ∧
      s.rx.pbuf.p1 = some 255 ∧ s.rx.pbuf.p2 = some 1) ∧
    ∃ s : State, s.rx.Awake ∧ s.rx.mode = .param (.raset 3) ∧ s.rx.pbuf.p0 = some 0 ∧
      s.rx.pbuf.p1 = some 255 ∧ s.rx.pbuf.p2 = some 1 :=
  ⟨upRx_Listening, ⟨⟨rfl, nofun, rfl⟩, by decide⟩, ⟨⟨rfl, nofun, rfl⟩, by decide⟩,
    ⟨heard fun r => { r with mode := .param (.caset 3), pbuf := ⟨some 0, some 255, some 1, none⟩ },
      ⟨rfl, nofun, rfl⟩, rfl, rfl, rfl, rfl⟩,
    ⟨heard fun r => { r with mode := .param (.raset 3), pbuf := ⟨some 0, some 255, some 1, none⟩ },
      ⟨rfl, nofun, rfl⟩, rfl, rfl, rfl, rfl⟩⟩

/-- A receiver with this window and pixel format, listening. -/
def windowed (xs xe ys ye : Addr) (format : Option Byte) : State :=
  heard fun r => { r with xs := some xs, xe := some xe, ys := some ys, ye := some ye, colmod := format }

theorem windowed_Listening (xs xe ys ye : Addr) (format : Option Byte) :
    (windowed xs xe ys ye format).rx.Listening := ⟨⟨rfl, nofun, rfl⟩, .inl rfl, rfl⟩

theorem witness_MemoryWriteOpens : (booted.rx.Listening ∧ booted.rx.xs = none) ∧
    ((windowed 5 4 0 0 (some 5)).rx.Listening ∧ (4 : Addr) < 5) ∧
    ((windowed 0 128 0 0 (some 5)).rx.Listening ∧ (windowed 0 128 0 0 (some 5)).cfg.ramCols ≤ (128 : Addr).toNat) ∧
    ((windowed 0 127 0 127 none).rx.Listening ∧ (0 : Addr) ≤ 127 ∧
      (127 : Addr).toNat < (windowed 0 127 0 127 none).cfg.ramCols ∧
      (127 : Addr).toNat < (windowed 0 127 0 127 none).cfg.ramRows ∧
      (windowed 0 127 0 127 none).rx.colmod ≠ some (windowed 0 127 0 127 none).cfg.colmod16bpp) ∧
    (windowed 127 127 127 127 (some 5)).rx.Listening ∧
      (windowed 127 127 127 127 (some 5)).rx.colmod = some (windowed 127 127 127 127 (some 5)).cfg.colmod16bpp :=
  ⟨⟨upRx_Listening, rfl⟩, ⟨windowed_Listening .., by decide⟩, ⟨windowed_Listening .., by decide⟩,
    ⟨windowed_Listening .., by decide, by decide, by decide, by decide⟩, windowed_Listening .., rfl⟩

theorem witness_PixelBytesPaint :
    (painting.Inv ∧ painting.rx.Awake ∧ painting.rx.mode = .pixels ∧ painting.rx.hi = .empty) ∧
    halfPainted.Inv ∧ halfPainted.rx.Awake ∧ halfPainted.rx.mode = .pixels ∧ halfPainted.rx.hi = .byte 0x12 :=
  ⟨⟨painting_Inv, painting_Awake, rfl, rfl⟩, halfPainted_Inv, ⟨rfl, nofun, rfl⟩, rfl, rfl⟩

theorem witness_UnsupportedCommandUndefines :
    booted.rx.Listening ∧ ¬ (0x36 : Byte) ∈ booted.cfg.opcodes.all := ⟨upRx_Listening, by decide⟩

theorem witness_ByteChecksInOrder :
    (heard fun _ => Rx.undefined .settle).rx.undef ≠ none ∧
    (heard fun r => { r with rst := .low false }).rx.rst = .low false ∧
    (ready.rx.undef = none ∧ (∀ ok, ready.rx.rst ≠ .low ok) ∧ ready.rx.mode = .unknown ∧
      (0x011 : FrameWord) ≠ frameWord false ready.cfg.opcodes.swreset) ∧
    (∃ s : State, s.rx.undef = none ∧ (∀ ok, s.rx.rst ≠ .low ok) ∧ s.rx.mode ≠ .unknown ∧ s.rx.settle ≠ .clear) ∧
    (∃ s : State, s.rx.Awake ∧ s.rx.mode = .param (.caset 2) ∧ (0x02C : FrameWord).getLsbD 8 = false) ∧
    (halfPainted.rx.Awake ∧ halfPainted.rx.mode ≠ .unknown ∧ (∀ p, halfPainted.rx.mode ≠ .param p) ∧
      halfPainted.rx.hi ≠ .empty) ∧
    (booted.rx.Awake ∧ booted.rx.mode = .idle ∧ (0x100 : FrameWord).getLsbD 8 = true) :=
  ⟨by decide, rfl, ⟨rfl, nofun, rfl, by decide⟩,
    ⟨heard fun r => { r with settle := .need 120 }, rfl, nofun, by decide, by decide⟩,
    ⟨heard fun r => { r with mode := .param (.caset 2) }, ⟨rfl, nofun, rfl⟩, rfl, by decide⟩,
    ⟨⟨rfl, nofun, rfl⟩, by decide, nofun, by decide⟩, upRx_Listening.1, rfl, by decide⟩

theorem witness_UndefinedIsSticky :
    (∃ t, step (given (heard fun _ => Rx.undefined .settle) [.wire .rstLow]) = .next t) ∧
    (heard fun _ => Rx.undefined .settle).rx.undef ≠ none ∧
    booted.rx.undef = none ∧
      ∃ t, step (given booted [.instr [0x2C, 0x00]]) = .next t ∧ t.rx.undef = some .noWindow :=
  ⟨⟨_, rfl⟩, by decide, rfl, stepped_ran (f := fun t => t.rx.undef) (by decide +kernel)⟩

theorem witness_ResetLineAtReceiver :
    (booted.rx.undef = none ∧ (given booted [.wire .rstLow]).inbox = [.wire .rstLow]) ∧
    (∃ s : State, s.rx.undef = none ∧ s.rx.rst = .low false ∧ s.rx.settle = .need 120 ∧
      s.cfg.rxRstwMin ≤ s.cfg.time .rstPulse ∧ s.cfg.time .bit < s.cfg.rxRstwMin ∧
      120 ≤ s.cfg.time .rstSettle ∧ s.cfg.time .rstPulse < 120) ∧
    ((heard fun r => { r with rst := .low true }).rx.rst = .low true ∧
      ∀ m, (heard fun r => { r with rst := .low true }).rx.settle ≠ .need m) ∧
    (heard fun r => { r with rst := .unknown }).rx.rst = .unknown :=
  ⟨⟨rfl, rfl⟩, ⟨heard fun r => { r with rst := .low false, settle := .need 120 }, rfl, rfl, rfl, by decide, by decide,
    by decide, by decide⟩, ⟨rfl, nofun⟩, rfl⟩

theorem witness_SettleNeedsOneLongWait :
    (∃ s : State, s.rx.undef = none ∧ (∀ ok, s.rx.rst ≠ .low ok) ∧ s.rx.settle = .need 120 ∧
      120 ≤ s.cfg.time .rstSettle ∧ s.cfg.time .rstPulse < 120) ∧
    ∃ s : State, s.rx.undef = none ∧ s.rx.rst = .low false ∧ s.rx.settle = .need 120 :=
  ⟨⟨heard fun r => { r with settle := .need 120 }, rfl, nofun, rfl, by decide, by decide⟩,
    ⟨heard fun r => { r with rst := .low false, settle := .need 120 }, rfl, rfl, rfl⟩⟩

/-- BITBANG with a wait after each clock edge. -/
def pausing : State :=
  { ready with cfg := { toParams := { Params.vectors with tBit := 1 }, lawful := by decide +kernel } }

theorem witness_BitbangTransmits :
    (ready.Free ∧ ready.cfg.transport = .bitbang ∧ ready.cfg.tBit = 0 ∧ ready.Aligned) ∧
    pausing.Free ∧ pausing.cfg.transport = .bitbang ∧ 0 < pausing.cfg.tBit ∧ pausing.Aligned :=
  ⟨⟨⟨rfl, rfl⟩, rfl, rfl, rfl⟩, ⟨rfl, rfl⟩, rfl, by decide, rfl⟩

theorem witness_HwTransmits :
    (readyHw.Free ∧ readyHw.cfg.transport = .hw ∧ readyHw.cfg.txWaitBound = none ∧ readyHw.Aligned) ∧
    quickHw.Free ∧ quickHw.cfg.transport = .hw ∧ quickHw.cfg.txWaitBound = some 3 ∧
      quickHw.spi.sched = 2 :: [] ∧ 2 < 3 :=
  ⟨⟨⟨rfl, rfl⟩, rfl, rfl, rfl⟩, ⟨rfl, rfl⟩, rfl, rfl, rfl, by decide⟩

theorem witness_TransferTimesOut : slowHw.Free ∧ slowHw.cfg.transport = .hw ∧
    slowHw.cfg.txWaitBound = some 3 ∧ slowHw.spi.sched = 3 :: [] ∧ 3 ≤ 3 ∧ slowHw.lines.idle = true ∧
    (Instr.setWindow 255 0 255 0).isHostOp = true ∧
    ∃ t, exec (.setWindow 255 0 255 0) slowHw = .next t ∧ t.fault.map FaultRecord.code = some (.txTimeout 0x2A) :=
  ⟨⟨rfl, rfl⟩, rfl, rfl, rfl, by decide, by decide, rfl,
    ran (f := fun t => t.fault.map FaultRecord.code) (by decide +kernel)⟩

theorem witness_BoundUnmetChangesNothing : quickHw.cfg.txWaitBound = some 3 ∧
    hwConfig.toParams = { quickHw.cfg.toParams with txWaitBound := none } ∧
    ∃ t, exec (.transmitHw 0x2C) { quickHw with cfg := hwConfig } = .next t ∧
      quickHw.spi.sched = [2] ++ t.spi.sched ∧ t.freeCtr = quickHw.freeCtr ∧ ∀ z, z ∈ [2] → z < 3 :=
  ⟨rfl, rfl, _, rfl, rfl, rfl, by decide⟩

theorem witness_WriteCommandSends :
    ready.Free ∧ ready.Aligned ∧ ready.Untimed ∧ ready.lines.cs ≠ .low :=
  ⟨⟨rfl, rfl⟩, rfl, .inl rfl, by decide⟩

theorem witness_WriteDataSends :
    (ready.Free ∧ ready.Aligned ∧ ready.Untimed ∧ ready.lines.cs ≠ .low ∧ ready.lines.dc = .high) ∧
    ∃ s : State, s.Free ∧ s.Aligned ∧ s.Untimed ∧ s.lines.cs ≠ .low ∧ s.lines.dc = .low :=
  ⟨⟨⟨rfl, rfl⟩, rfl, .inl rfl, by decide, rfl⟩,
    { ready with lines := { ready.lines with dc := .low } }, ⟨rfl, rfl⟩, rfl, .inl rfl, by decide, rfl⟩

theorem witness_WritePixelsSends :
    readyHw.Free ∧ readyHw.Aligned ∧ readyHw.Untimed ∧ 1 ≤ 1 ∧ readyHw.lines.cs ≠ .low ∧
      readyHw.lines.dc = .high := ⟨⟨rfl, rfl⟩, rfl, .inr rfl, by decide, by decide, rfl⟩

theorem witness_GlyphLooksUp : ready.Free ∧
    (ready.cfg.firstPrintable ≤ (0x4F : Byte).toNat ∧ (0x4F : Byte).toNat < ready.cfg.splitChar) ∧
    (ready.cfg.splitChar ≤ (0x50 : Byte).toNat ∧ (0x7E : Byte).toNat ≤ ready.cfg.lastPrintable) ∧
    (0x1F : Byte).toNat < ready.cfg.firstPrintable ∧ ready.cfg.lastPrintable < (0x7F : Byte).toNat :=
  ⟨⟨rfl, rfl⟩, by decide +kernel, by decide +kernel, by decide +kernel, by decide +kernel⟩

theorem witness_EntryCheckComesFirst : (Instr.drawChar 0 0 0x41 0 1).isHostOp = true ∧
    (Instr.drawChar 0 0 0x41 0 1).argsFit = true ∧ State.reset.Free ∧ State.reset.lines.cs ≠ .high :=
  ⟨rfl, by decide, ⟨rfl, rfl⟩, by decide⟩

theorem witness_SetWindowSends : ready.Ready ∧ ready.Aligned ∧ ready.Untimed ∧ 255 < 256 :=
  ⟨ready_Ready, rfl, .inl rfl, by decide⟩

theorem witness_SetWindowOpens : booted.Ready ∧ booted.Aligned ∧ booted.Untimed ∧ booted.rx.Listening ∧
    booted.rx.colmod = some booted.cfg.colmod16bpp ∧ 127 < booted.cfg.ramCols ∧ 127 < booted.cfg.ramRows ∧
    ¬ 128 < booted.cfg.ramCols :=
  ⟨booted_Ready, rfl, .inl rfl, upRx_Listening, rfl, by decide, by decide, by decide⟩

theorem witness_SetWindowTwice : booted.Ready ∧ booted.Aligned ∧ booted.Untimed ∧ booted.rx.BetweenOps :=
  ⟨booted_Ready, rfl, .inl rfl, upRx_BetweenOps⟩

theorem witness_FillSends : readyHw.Ready ∧ readyHw.Aligned ∧ readyHw.Untimed ∧ 0 ≤ 255 ∧ 255 < 256 ∧
    65535 < 65536 := ⟨⟨⟨rfl, rfl⟩, by decide⟩, rfl, .inr rfl, by decide, by decide, by decide⟩

theorem witness_FillInvertedFaults : ready.Ready ∧ (254 < 255 ∨ 0 < 0) ∧ 255 < 256 :=
  ⟨ready_Ready, by decide, by decide⟩

theorem witness_DrawPixelSends : ready.Ready ∧ ready.Aligned ∧ ready.Untimed ∧ 254 < 255 ∧ 65535 < 65536 :=
  ⟨ready_Ready, rfl, .inl rfl, by decide, by decide⟩

theorem witness_DrawPixelCoordRange : ready.Ready ∧ 255 < 256 ∧ (255 = 255 ∨ 0 = 255) ∧ (0 = 255 ∨ 255 = 255) :=
  ⟨ready_Ready, by decide, by decide, by decide⟩

theorem witness_PixelIsAFillCutShort : ready.Ready ∧ ready.Aligned ∧ ready.Untimed ∧ 254 < 255 ∧ 0 < 255 :=
  ⟨ready_Ready, rfl, .inl rfl, by decide, by decide⟩

theorem witness_PixelPlacement : booted.Ready ∧ booted.Aligned ∧ booted.Untimed ∧ booted.rx.BetweenOps ∧
    126 ≤ 127 ∧ booted.rx.Listening ∧ 127 < booted.cfg.ramCols ∧ 126 + 1 < booted.cfg.ramRows ∧
    booted.rx.colmod = some booted.cfg.colmod16bpp :=
  ⟨booted_Ready, rfl, .inl rfl, upRx_BetweenOps, by decide, upRx_Listening, by decide, by decide, rfl⟩

/-- A `2 × 1` bitmap at scale 1 that ends in column 255, and one block of scale 2 that does. -/
theorem witness_DrawBitmapSends : ready.Ready ∧ ready.Aligned ∧ ready.Untimed ∧
    (∀ i j, i < (1 : Colour).toNat → j < (2 : Colour).toNat →
      i * (2 : Colour).toNat + j < [(7 : Colour), 8].length ∧ 1 ≤ 1 ∧ 254 + j * 1 + 1 - 1 ≤ 255 ∧
        255 + i * 1 + 1 - 1 ≤ 255) ∧
    (∀ i j, i < (1 : Colour).toNat → j < (1 : Colour).toNat →
      i * (1 : Colour).toNat + j < [(7 : Colour)].length ∧ 1 ≤ 2 ∧ 254 + j * 2 + 2 - 1 ≤ 255 ∧
        254 + i * 2 + 2 - 1 ≤ 255) := by
  refine ⟨ready_Ready, rfl, .inl rfl, ?_, ?_⟩
  · simp; omega
  · simp

theorem witness_DrawBitmapStopsAtFirstFault : ready.Ready ∧ ready.Aligned ∧ ready.Untimed ∧
    firstFault (bitmapScript Opcodes.table 254 254 2 [1, 1, 7]) = none ∧
    firstFault (bitmapScript Opcodes.table 255 0 2 [1, 1, 7]) = some (.coordRange 256) ∧
    firstFault (bitmapScript Opcodes.table 0 0 1 [2, 2, 1, 2, 3]) = some (.bitmapBounds 5) :=
  ⟨ready_Ready, rfl, .inl rfl, by decide +kernel, by decide +kernel, by decide +kernel⟩

/-- The glyph of `A` in the test font: the corners of the cell box. -/
theorem glyphA_fits (x y size : Nat) (hx : CellFits x y size 0 0) (hy : CellFits x y size 4 6) :
    GlyphFits [0x01, 0, 0, 0, 0x40] x y size := by
  intro i j hi hj hb
  interval_cases i <;> interval_cases j <;> first | exact hx | exact hy | exact absurd hb (by decide)

theorem fontA_glyph : fontGlyph ready.cfg 0x41 = [0x01, 0, 0, 0, 0x40] := by decide +kernel

theorem witness_DrawCharSends : ready.Ready ∧ ready.Aligned ∧ ready.Untimed ∧
    ready.cfg.firstPrintable ≤ 0x41 ∧ 0x41 ≤ ready.cfg.lastPrintable ∧
    GlyphFits (fontGlyph ready.cfg (u8 0x41)) 250 248 1 ∧ GlyphFits (fontGlyph ready.cfg (u8 0x41)) 246 242 2 := by
  rw [show u8 0x41 = 0x41 from rfl, fontA_glyph]
  exact ⟨ready_Ready, rfl, .inl rfl, by decide +kernel, by decide +kernel,
    glyphA_fits _ _ _ (by simp [CellFits]) (by simp [CellFits]), glyphA_fits _ _ _ (by simp [CellFits]) (by simp [CellFits])⟩

theorem witness_DrawCharStopsAtFirstFault : ready.Ready ∧ ready.Aligned ∧ ready.Untimed ∧
    firstFault (charScript ready.cfg 250 248 0x41 0 1) = none ∧
    firstFault (charScript ready.cfg 251 248 0x41 0 1) = some (.coordRange 256) ∧
    firstFault (charScript ready.cfg 0 0 0x1F 0 1) = some (.charRange 0x1F) :=
  ⟨ready_Ready, rfl, .inl rfl, by decide +kernel, by decide +kernel, by decide +kernel⟩

theorem witness_DrawStringSends : ready.Ready ∧ ready.Aligned ∧ ready.Untimed ∧
    ∀ k ch, [(0x41 : Byte), 0x41][k]? = some ch → ch ≠ 0 ∧ HasGlyph ready.cfg ch ∧ 243 + k * 1 * 6 ≤ 255 ∧
      GlyphFits (fontGlyph ready.cfg ch) (243 + k * 1 * 6) 0 1 := by
  refine ⟨ready_Ready, rfl, .inl rfl, fun k ch hk => ?_⟩
  have key : ch = 0x41 ∧ k < 2 := by
    match k, hk with
    | 0, hk => exact ⟨by simpa using hk.symm, by decide⟩
    | 1, hk => exact ⟨by simpa using hk.symm, by decide⟩
    | k + 2, hk => simp at hk
  obtain ⟨rfl, hlt⟩ := key
  rw [fontA_glyph]
  refine ⟨by decide, ⟨by decide +kernel, by decide +kernel⟩, by omega, ?_⟩
  interval_cases k <;> exact glyphA_fits _ _ _ (by simp [CellFits]) (by simp [CellFits])

theorem witness_DrawStringStopsAtFirstFault : ready.Ready ∧ ready.Aligned ∧ ready.Untimed ∧
    firstFault (textScript ready.cfg 0 0 0 1 0 [0x41, 0, 7]) = none ∧
    firstFault (textScript ready.cfg 0 0 0 1 0 [0x41]) = some (.stringBounds 1) ∧
    firstFault (textScript ready.cfg 250 0 0 1 0 [0x20, 0x20]) = some (.coordRange 256) :=
  ⟨ready_Ready, rfl, .inl rfl, by decide +kernel, by decide +kernel, by decide +kernel⟩

theorem witness_InitSends : (ready.Ready ∧ ready.Aligned ∧ ready.Untimed ∧ ready.cfg.transport = .bitbang) ∧
    readyHw.Ready ∧ readyHw.Aligned ∧ readyHw.Untimed ∧ readyHw.cfg.transport = .hw :=
  ⟨⟨ready_Ready, rfl, .inl rfl, rfl⟩, ⟨⟨rfl, rfl⟩, by decide⟩, rfl, .inr rfl, rfl⟩

theorem witness_InitBringsUp : ready.Ready ∧ ready.Aligned ∧ ready.Untimed ∧ ready.rx.undef = none ∧
    DelaysMeet ready.cfg := ⟨ready_Ready, rfl, .inl rfl, rfl, by decide, by decide, by decide, by decide⟩

theorem witness_BoardSetupDrivesIdle : (given State.reset [.boardSetup]).inbox = [.boardSetup] ∧
    State.reset.Aligned ∧ State.reset.lines.cs = .unknown ∧ State.reset.lines.rst = .unknown ∧
    State.reset.rx.rst = .unknown ∧ State.reset.rx.undef = none := ⟨rfl, rfl, rfl, rfl, rfl, rfl⟩

theorem witness_OperationsKeepBetween : (Instr.glyph 0).isHostOp = false ∧
    (Instr.drawString 0 0 0 1 [0]).isHostOp = true ∧ booted.Aligned ∧ booted.rx.BetweenOps ∧
    (∃ t, exec (.drawString 0 0 0 1 [0]) booted = .next t ∧ t.fault = none) ∧
    (∃ t, step (given booted [.call (ascii "draw_string(0,0,0,1,\"\")")]) = .next t ∧ t.fault = none) ∧
    (∃ t, step (given booted [.boardSetup]) = .next t ∧ t.fault = none) ∧
    ∃ t, step booted = .next t ∧ t.fault = none :=
  ⟨rfl, rfl, rfl, upRx_BetweenOps, ran (f := State.fault) (by decide +kernel),
    stepped_ran (f := State.fault) (by decide +kernel), ⟨_, rfl, rfl⟩, _, rfl, rfl⟩

theorem witness_TransportsAgree : (Instr.init).isHostOp = true ∧ (Instr.init).argsFit = true ∧
    readyHw.Ready ∧ readyHw.Aligned ∧ readyHw.Untimed ∧ ready.Ready ∧ ready.Aligned ∧
    ready.cfg.transport = .bitbang ∧ ready.cfg.toParams = { readyHw.cfg.toParams with transport := .bitbang } :=
  ⟨rfl, rfl, ⟨⟨rfl, rfl⟩, by decide⟩, rfl, .inr rfl, ready_Ready, rfl, rfl, rfl⟩

theorem witness_BlockIgnoresReceiver : (∃ t, exec (.glyph 0x41) booted = .next t) ∧
    (∃ f, exec .init stuck = .fault f) ∧ ∃ f, exec (.transmitHw 0) booted = .refused f :=
  ⟨⟨_, rfl⟩, ⟨_, rfl⟩, _, rfl⟩

/-- Power-on, then `board_setup()`. -/
def setUp : State := State.reset.boardSetup

theorem setUp_Heeds (inputs : List Input) : (given setUp inputs).Heeds where
  lines := rfl
  whole := rfl
  aligned := rfl
  receiver := rfl

theorem witness_ReceiverConsumesTheTrace :
    ((given setUp []).Heeds ∧ ∃ t, step (given setUp []) = .next t) ∧
    ((given setUp [.boardSetup]).Heeds ∧ ∃ t, step (given setUp [.boardSetup]) = .next t) ∧
    ((given setUp [.call (ascii "init()")]).Heeds ∧
      ∃ t, step (given setUp [.call (ascii "init()")]) = .next t ∧ t.fault = none) ∧
    (given setUp [.instr (ascii "write_data(5)")]).Heeds ∧
      decode setUp.cfg.opcodes (ascii "write_data(5)") = .ok (.writeData 5) ∧
      ∃ t, step (given setUp [.instr (ascii "write_data(5)")]) = .next t ∧ t.fault = none :=
  ⟨⟨setUp_Heeds _, _, rfl⟩, ⟨setUp_Heeds _, _, rfl⟩,
    ⟨setUp_Heeds _, stepped_ran (f := State.fault) (by decide +kernel)⟩, setUp_Heeds _, by decide +kernel,
    stepped_ran (f := State.fault) (by decide +kernel)⟩

theorem witness_DcStableInFrames : (Instr.setWindow 2 3 5 7).isHostOp = true ∧
    ∃ t, exec (.setWindow 2 3 5 7) bootedHw = .next t ∧ BusEvent.drive .dc true ∈ t.trace :=
  ⟨rfl, by
    obtain ⟨t, h, ht⟩ := ran (i := .setWindow 2 3 5 7) (s := bootedHw)
      (f := fun t => decide (BusEvent.drive .dc true ∈ t.trace)) (a := true) (by decide +kernel)
    exact ⟨t, h, of_decide_eq_true ht⟩⟩

theorem witness_OnlySevenCommands : (Instr.init).isHostOp = true ∧ bootedHw.Aligned ∧
    ∃ t, exec .init bootedHw = .next t ∧ (projFrom bootedHw.lines t.trace).length = 21 :=
  ⟨rfl, rfl, ran (f := fun t => (projFrom bootedHw.lines t.trace).length) (by decide +kernel)⟩

theorem witness_FlagFollowsLastByte : (Instr.glyph 0x41).isPrimitive = true ∧
    readyHw.cfg.transport = .hw ∧ readyHw.cfg.txWaitBound = none ∧
    (∃ t, exec (.glyph 0x41) readyHw = .next t ∧ t.trace = []) ∧
    ∃ t, exec (.transmitHw 0x2C) readyHw = .next t ∧ t.trace = [] ++ .txByte 0x2C :: [] :=
  ⟨rfl, rfl, rfl, ran (f := State.trace) (by decide +kernel), ran (f := State.trace) (by decide +kernel)⟩

theorem witness_ChipSelectAndCutBytes :
    (booted.rx.undef = none ∧ (given booted [.wire .partialByte]).inbox = [.wire .partialByte]) ∧
    (∃ s : State, s.rx.undef = none ∧ s.lines.cs ≠ .high ∧ s.Aligned) ∧
    ∃ s : State, s.rx.undef = none ∧ s.lines.cs ≠ .high ∧ ¬ s.Aligned :=
  ⟨⟨rfl, rfl⟩, ⟨{ booted with lines := { booted.lines with cs := .low } }, rfl, by decide, rfl⟩,
    { heard fun r => { r with nbits := some 7 } with lines := { booted.lines with cs := .low } }, rfl, by decide,
    by unfold State.Aligned; decide⟩

end Sys2Proof.Tests
end

/-! # The statements about the state

## Power-on, the invariant of every step, and what no step changes -/

namespace Sys2Proof.Machine

/-! ### Control lines that no one asserts (10_state.md R23) -/

/-- None of `CS`, `DC` and `RST` is at its asserted level. -/
def Ctl.Unasserted (k : Ctl) : Prop := k.cs ≠ .low ∧ k.dc ≠ .low ∧ k.rst ≠ .low

theorem Ctl.unasserted_rest : Ctl.rest.Unasserted := by simp [Ctl.Unasserted, Ctl.rest]

/-- Steps that move no control line and raise no fault of their own. -/
def Still (ps : List Prim) : Prop := ∀ p ∈ ps, ∀ k, p.ctl k = k ∧ p.fault k = none

theorem Still.run {ps : List Prim} (h : Still ps) (k : Ctl) : (k.run ps).ctl = k ∧ (k.run ps).fault = none := by
  induction ps with
  | nil => exact ⟨rfl, rfl⟩
  | cons p ps ih =>
    obtain ⟨hk, hf⟩ := h p (by simp) k
    have ih := ih fun q hq => h q (by simp [hq])
    simp only [Ctl.run, hf, hk]
    exact ih

/-- The bytes of a pixel stream are such steps. -/
theorem Still.pixels (c : Colour) (n : Nat) : Still (List.replicate n (pixelSteps c)).flatten := by
  intro p hp k
  obtain ⟨l, hl, hp⟩ := List.mem_flatten.1 hp
  rw [(List.mem_replicate.1 hl).2, pixelSteps] at hp
  rcases List.mem_pair.1 hp with rfl | rfl <;> exact ⟨rfl, rfl⟩

/-- A run of pixels in a frame leaves `CS` at 1 and the other control lines as they were (43_pixel.md R161). -/
theorem Ctl.run_writePixels (k : Ctl) (c : Colour) (n : Nat) :
    (k.run (writePixelsSteps c n)).ctl = { k with cs := .high } := by
  obtain ⟨hk, hf⟩ := (Still.pixels c n).run { k with cs := .low }
  obtain ⟨fs, hfall⟩ : ∃ fs, k.run (unpackSteps c ++ [.drive .cs false]) = ⟨fs, { k with cs := .low }, none⟩ :=
    ⟨_, rfl⟩
  rw [show writePixelsSteps c n = (unpackSteps c ++ [.drive .cs false]) ++
    ((List.replicate n (pixelSteps c)).flatten ++ [.drive .cs true]) by simp [writePixelsSteps, streamSteps],
    Ctl.run_append, hfall]
  simp only [Ran.next, Ctl.run_append, hf, hk]
  rfl

/-- Every primitive leaves the control lines unasserted that it finds so. -/
theorem Ctl.Unasserted.primitive {k : Ctl} (h : k.Unasserted) {c : Config} {i : Instr} {ps : List Prim}
    (hp : primitiveSteps? c i = some ps) : (k.run ps).ctl.Unasserted := by
  obtain ⟨hcs, hdc, hrst⟩ := h
  have high : Level.high ≠ .low := by simp
  cases i with
  | writeCommand b => cases hp; exact ⟨high, high, hrst⟩
  | writeData b => cases hp; exact ⟨high, hdc, hrst⟩
  | writePixels c n =>
    simp only [primitiveSteps?] at hp
    split at hp <;> cases hp
    rw [Ctl.run_writePixels]
    exact ⟨high, hdc, hrst⟩
  | glyph ch =>
    cases hp
    cases hg : glyphOf c ch <;> exact ⟨hcs, hdc, hrst⟩
  | transmitHw b | transmitBitbang b =>
    simp only [primitiveSteps?] at hp
    split at hp <;> cases hp
    exact ⟨hcs, hdc, hrst⟩
  | init | setWindow | fillRectangle | drawPixel | drawBitmap | drawChar | drawString => cases hp
  | cmdSwreset | cmdSlpout | cmdColmod | cmdDispon | cmdCaset | cmdRaset | cmdRamwr => cases hp
  | data | cmdUnsupported => cases hp

/-- A host operation that raises no fault passed its entry check and ends at the idle levels (R23, R283). -/
theorem Ctl.run_hostSteps {k : Ctl} {c : Config} {i : Instr} (hi : i.isHostOp = true)
    (h : (k.run (hostSteps c i)).fault = none) : (k.run (hostSteps c i)).ctl = Ctl.rest := by
  have hk : k = Ctl.rest := by
    obtain ⟨ps, hps⟩ := hostSteps_checkIdle hi c
    by_contra hne
    simp [hps, Ctl.run, Prim.fault, hne] at h
  obtain ⟨sc, hsc⟩ := hostSteps_follow c hi
  rw [hk, hsc]

/-- A host operation or primitive whose list raises no fault leaves the control lines unasserted. -/
theorem Ctl.Unasserted.ran {k : Ctl} (h : k.Unasserted) {c : Config} {i : Instr} {ps : List Prim}
    (hi : i.isHostOp = true ∨ i.isPrimitive = true) (hhost : i.isHostOp = true → ps = hostSteps c i)
    (hprim : i.isPrimitive = true → primitiveSteps? c i = some ps) (hf : (k.run ps).fault = none) :
    (k.run ps).ctl.Unasserted := by
  rcases hi with hi | hi
  · rw [hhost hi] at hf ⊢
    rw [Ctl.run_hostSteps hi hf]
    exact Ctl.unasserted_rest
  · exact h.primitive (hprim hi)

/-! ### Serial lines that no one drives (10_state.md R22) -/

/-- `SCK` and `SDO` are unknown. -/
def Lines.SerialUnknown (lv : Lines) : Prop := lv.sck = .unknown ∧ lv.sdo = .unknown

/-- In HW no step of a step list gives the serial lines a level. -/
theorem Lines.SerialUnknown.steps {c : Config} (hc : c.transport = .hw) {ps : List Prim} (hp : Ordinary ps)
    {lv : Lines} (h : lv.SerialUnknown) : (lv.afterAll (ps.flatMap (Prim.emits c))).SerialUnknown := by
  induction ps generalizing lv with
  | nil => exact h
  | cons p ps ih =>
    rw [List.flatMap_cons, Lines.afterAll_append]
    refine ih (fun q hq => hp q (by simp [hq])) ?_
    have hord := hp p (by simp)
    cases p with
    | drive l v =>
      cases l with
      | cs | dc | rst => exact h
      | sck | sdo => cases hord
    | delay | checkIdle | raise | assign => exact h
    | transmit b =>
      simp only [Prim.emits, byteEvents, hc]
      exact ⟨rfl, rfl⟩

/-! ### The invariant -/

/-- The invariant does not look at the inputs to come. -/
theorem State.Inv.withInbox {s : State} (h : s.Inv) (rest : List Input) : ({ s with inbox := rest } : State).Inv :=
  ⟨h.receiver, h.aligned, h.resting, h.stopped, h.transport⟩

/-- A frame event at the receiver keeps the invariant. -/
theorem State.Inv.receive {s : State} (h : s.Inv) (e : FrameEvent) :
    ({ s with rx := s.rx.receive s.cfg e } : State).Inv :=
  ⟨h.receiver.receive e, Rx.receive_aligned s.cfg e h.aligned, h.resting, h.stopped, h.transport⟩

/-- `board_setup()` keeps the invariant: it drives control lines only, and leaves them at 1. -/
theorem State.Inv.boardSetup {s : State} (h : s.Inv) : s.boardSetup.Inv := by
  unfold State.boardSetup
  rw [State.emitAll_eq]
  refine ⟨h.receiver.hearAll _ _, Rx.hearAll_aligned _ _ _ _ h.aligned ?_, fun hf => ?_, h.stopped, h.transport⟩
  · simp [Decoder.next]
  · obtain ⟨hop, hpc, -⟩ := h.resting hf
    exact ⟨hop, hpc, by simp [Lines.drive], by simp [Lines.drive], by simp [Lines.drive]⟩

/-- A host operation or primitive keeps the invariant, whether it completes or stops at a fault. -/
theorem State.Inv.ran {i : Instr} {s t : State} (h : s.Inv) (hi : i.isHostOp = true ∨ i.isPrimitive = true)
    (hx : exec i s = .next t) : t.Inv := by
  obtain ⟨⟨hfree, -⟩, ps, hord, hhost, hprim, ht⟩ := exec_ran hi hx
  obtain ⟨es, hwent, hrec, hrun⟩ := State.runSteps_spec hord (s := s.start i) hfree h.aligned
  obtain ⟨qs, hpre, ⟨-, -, -, hlines, hrx⟩, -⟩ := (s.start i).runSteps_emits ps
  obtain ⟨tfault, tspi, -, tlines, trx, tcfg, tended, tstopped⟩ := State.finish_parts ht
  obtain ⟨ucfg, -, uspi⟩ := hwent.kept
  have hop := hwent.op
  have haligned := hwent.heard.1
  generalize (s.start i).runSteps ps = u at *
  refine ⟨?_, ?_, fun hf => ?_, fun r hr => ?_, ?_⟩
  · rw [trx, tcfg, ucfg, hrx]
    exact h.receiver.hearAll _ _
  · unfold State.Aligned
    rw [trx]
    exact haligned
  · rw [tfault] at hf
    obtain ⟨-, hctl, hnone⟩ := hrun.resolve_right (by rintro ⟨⟨-, -, b, hb⟩, -⟩; simp [hf] at hb)
    have hnone : (s.lines.ctl.run ps).fault = none := by simpa [hf] using hnone.symm
    obtain ⟨-, -, hrest⟩ := h.resting hfree
    have hlow : (s.lines.ctl.run ps).ctl.Unasserted :=
      (show s.lines.ctl.Unasserted from hrest).ran hi (fun hh => (hhost hh).2) hprim hnone
    obtain ⟨hidle, hpc⟩ := tended hf
    rw [tlines]
    exact ⟨hidle, hpc, (show u.lines.ctl.Unasserted from hctl ▸ hlow)⟩
  · rw [tfault] at hr
    obtain ⟨top, tpc⟩ := tstopped (by simp [hr])
    rw [top, tpc]
    exact ⟨by simp [hop], hrec r hr⟩
  · rw [tcfg, ucfg, tlines, tspi, State.start_cfg]
    have htr := h.transport
    cases hm : s.cfg.transport with
    | hw =>
      simp only [hm] at htr ⊢
      rw [hlines]
      exact Lines.SerialUnknown.steps hm (fun p hp => hord p (hpre.subset hp)) htr
    | bitbang =>
      simp only [hm] at htr ⊢
      rw [(uspi hm).1]
      exact htr

/-- Every instruction keeps the invariant. -/
theorem State.Inv.exec {i : Instr} {s t : State} (h : s.Inv) (hx : Machine.exec i s = .next t) : t.Inv := by
  by_cases hi : i.isHostOp = true ∨ i.isPrimitive = true
  · exact h.ran hi hx
  · simp only [not_or, Bool.not_eq_true] at hi
    obtain ⟨e, -, he⟩ := exec_frameWord hi.1 hi.2 s
    rw [he] at hx
    cases hx
    exact h.receive e

/-- Settles O3: the four things a step can be, each of which keeps the invariant. -/
theorem stepKeepsInvariant : Obligations.StepKeepsInvariant := by
  unfold Obligations.StepKeepsInvariant
  intro s t h hs
  rcases step_cases hs with ⟨-, rfl⟩ | ⟨rest, -, rfl⟩ | ⟨e, rest, -, rfl⟩ | ⟨i, rest, -, hx⟩
  · exact h
  · exact (h.withInbox rest).boardSetup
  · exact (h.withInbox rest).receive e
  · exact (h.withInbox rest).exec hx

/-- Settles O2: at power-on everything the invariant asks about is unknown, idle or empty. -/
theorem resetMeetsInvariant : Obligations.ResetMeetsInvariant := by
  unfold Obligations.ResetMeetsInvariant
  exact {
    receiver := Rx.inv_of_fields ⟨rfl, rfl⟩ rfl (by decide) (fun _ => by simp [State.reset, Rx.blank])
      (fun h => (h rfl).elim) (fun h => (h rfl).elim)
    aligned := rfl
    resting := fun _ => ⟨rfl, rfl, by decide, by decide, by decide⟩
    stopped := fun _ hr => by cases hr
    transport := ⟨rfl, rfl, rfl⟩ }

/-- Settles O1: each field of the power-on state read off, and that no cell of frame memory is listed. -/
theorem resetIsPowerOn : Obligations.ResetIsPowerOn := by
  unfold Obligations.ResetIsPowerOn
  refine ⟨rfl, rfl, rfl, rfl, rfl, rfl, rfl, rfl, rfl, rfl, rfl, rfl, rfl, rfl, rfl, rfl, rfl, rfl, rfl, rfl, rfl, rfl,
    rfl, rfl, fun row col => ?_⟩
  exact Memory.read_nil row col

/-! ### What no step changes -/

/-- Settles O4: whatever a step is, it uses up one input and at most appends bus events. -/
theorem stepKeepsInstance : Obligations.StepKeepsInstance := by
  unfold Obligations.StepKeepsInstance
  intro s t hs
  rcases step_cases hs with ⟨hnil, rfl⟩ | ⟨rest, hin, rfl⟩ | ⟨e, rest, hin, rfl⟩ | ⟨i, rest, hfetch, hx⟩
  · exact ⟨rfl, List.prefix_rfl, by rw [hnil]; rfl⟩
  · obtain ⟨hcfg, hinbox, htrace, -⟩ :=
      State.emits_emitAll { s with inbox := rest } [.drive .cs true, .drive .dc true, .drive .rst true]
    exact ⟨hcfg, ⟨_, htrace.symm⟩, by rw [hin]; exact hinbox⟩
  · exact ⟨rfl, List.prefix_rfl, by rw [hin]; rfl⟩
  · have hin : s.inbox.tail = rest := by
      rcases hfetch with ⟨bs, hin, -⟩ | ⟨bs, hin, -⟩ <;> rw [hin] <;> rfl
    rw [hin]
    rcases exec_touches hx with ⟨e, -, rfl⟩ | ⟨-, -, es, hcfg, hinbox, htrace, -⟩
    · exact ⟨rfl, List.prefix_rfl, rfl⟩
    · exact ⟨hcfg, ⟨es, htrace.symm⟩, hinbox⟩

/-! ## What single operations do to the state, and the peripheral's flag -/

/-! ### An operation that runs to a known state -/

/-- An operation issued to an idle sequencer runs its list. -/
theorem State.issue_free {s : State} (h : s.Free) (i : Instr) (ps : List Prim) :
    s.issue i ps = .next ((s.start i).runSteps ps).finish := by
  obtain ⟨hf, ho⟩ := h
  simp only [State.issue, hf, ho]

/-- A host operation whose list stops at a fault leaves the state the fault was raised in (60_exceptions.md R284). -/
theorem State.call_of_fault {s u : State} {i : Instr} {ps : List Prim} (h : s.Free) (hi : i.argsFit = true)
    (hr : (s.start i).runSteps ps = u) (hu : u.fault.isSome = true) : s.call i ps = .next u := by
  simp only [State.call, hi, if_true, State.issue_free h, hr, State.finish_of_fault hu, State.dropLocals_of_fault hu]

/-- The entry check, passed (R283). -/
theorem State.prim_checkIdle_of_idle {s : State} (h : s.lines.idle = true) : s.prim .checkIdle = s := by
  simp [State.prim, State.checkIdle, h]

/-- The entry check, failed. -/
theorem State.prim_checkIdle_of_not_idle {s : State} (h : s.lines.idle ≠ true) :
    s.prim .checkIdle = s.raise (.linesNotIdle s.lines.cs s.lines.dc s.lines.rst) := by
  simp [State.prim, State.checkIdle, h]

/-- Steps after a passed entry check. -/
theorem State.runSteps_checkIdle {s : State} (h : s.lines.idle = true) (hf : s.fault = none) (ps : List Prim) :
    s.runSteps ([.checkIdle] ++ ps) = s.runSteps ps := by
  rw [List.singleton_append, State.runSteps_cons, State.prim_checkIdle_of_idle h, hf]
  rfl

/-- A list stops where it raises a fault (R282). -/
theorem State.runSteps_raise (s : State) (code : FaultCode) (ps : List Prim) :
    s.runSteps (.raise code :: ps) = s.raise code := rfl

theorem State.runSteps_singleton (p : Prim) (s : State) : s.runSteps [p] = s.prim p := by
  rw [State.runSteps_cons, State.runSteps_nil, ite_self]

/-- An assignment takes no step and raises no fault. -/
theorem State.runSteps_assign {s : State} (hf : s.fault = none) (a : Assign) (ps : List Prim) :
    s.runSteps (.assign a :: ps) = (s.assign a).runSteps ps := by
  rw [State.runSteps_cons]
  simp [State.prim, hf]

/-- A number's latch keeps it. -/
theorem u8_toNat {n : Nat} (h : n < 256) : (u8 n).toNat = n := by
  rw [u8, BitVec.toNat_ofNat, Nat.mod_eq_of_lt h]

theorem u8_lt_u8 {m n : Nat} (hm : m < 256) (hn : n < 256) : u8 m < u8 n ↔ m < n := by
  rw [BitVec.lt_def, u8_toNat hm, u8_toNat hn]

/-- Settles O34: the entry check is the first step of every host operation, and it raises. -/
theorem entryCheckComesFirst : Obligations.EntryCheckComesFirst := by
  unfold Obligations.EntryCheckComesFirst
  intro i s hi hfit hfree hlines
  obtain ⟨ps, hps⟩ := hostSteps_checkIdle hi s.cfg
  have hidle : s.lines.idle ≠ true := fun h => hlines (by simpa [Lines.idle, and_assoc] using h)
  rw [exec_hostOp hi, hps]
  refine State.call_of_fault hfree hfit ?_ rfl
  rw [State.runSteps_cons, State.prim_checkIdle_of_not_idle (s := s.start i) hidle]
  rfl

/-- Settles O39: past the entry check, the only step of an inverted fill raises. -/
theorem fillInvertedFaults : Obligations.FillInvertedFaults := by
  unfold Obligations.FillInvertedFaults
  intro s x1 y1 x2 y2 colour hs hx1 hy1 hx2 hy2 hcolour hinv
  have hfit : (Instr.fillRectangle x1 y1 x2 y2 colour).argsFit = true := by
    simp [Instr.argsFit, fitsU8, fitsU16, hx1, hy1, hx2, hy2, hcolour]
  have hinv' : u8 x2 < u8 x1 ∨ u8 y2 < u8 y1 := by rwa [u8_lt_u8 hx2 hx1, u8_lt_u8 hy2 hy1]
  refine State.call_of_fault hs.1 hfit ?_ rfl
  rw [fillRectangleSteps, if_pos hinv', State.runSteps_checkIdle (s := s.start _) hs.2 hs.1.1]
  rfl

/-- Settles O41: the column is checked first, and `xe` is assigned before the row is checked. -/
theorem drawPixelCoordRange : Obligations.DrawPixelCoordRange := by
  unfold Obligations.DrawPixelCoordRange
  intro s x y colour hs hx hy hcolour hedge
  have hfit : (Instr.drawPixel x y colour).argsFit = true := by
    simp [Instr.argsFit, fitsU8, fitsU16, hx, hy, hcolour]
  have past : ∀ n, n = 255 → coord ((u8 n).toNat + 1) = .error (.coordRange 256) := by
    rintro _ rfl
    exact coord_error (v := 256) (by omega)
  refine State.call_of_fault hs.1 hfit ?_ rfl
  rw [drawPixelSteps, State.runSteps_checkIdle (s := s.start _) hs.2 hs.1.1]
  by_cases hx255 : x = 255
  · rw [past x hx255, if_pos hx255]
    rfl
  · have hxe : coord ((u8 x).toNat + 1) = .ok (u8 (x + 1)) := by
      rw [u8_toNat hx]
      exact coord_nat (n := x + 1) (by omega)
    rw [hxe, past y (hedge.resolve_left hx255), if_neg hx255]
    simp only [orRaise, List.singleton_append]
    rw [State.runSteps_assign (s := s.start _) hs.1.1]
    rfl

/-! ### The glyph lookup (44_text.md R190) -/

theorem fontGlyph_length (c : Config) (ch : Byte) : (fontGlyph c ch).length = 5 := by
  simp [fontGlyph]

/-- The five bytes of a glyph are its table's, none of them past the table's end (R82, 20_memory.md R51). -/
theorem fontGlyph_getElem? {c : Config} {ch : Byte} (h : HasGlyph c ch) {i : Nat} (hi : i < 5) :
    (ch.toNat < c.splitChar → (fontGlyph c ch)[i]? = c.fontA[(ch.toNat - c.firstPrintable) * 5 + i]?) ∧
      (c.splitChar ≤ ch.toNat → (fontGlyph c ch)[i]? = c.fontB[(ch.toNat - c.splitChar) * 5 + i]?) := by
  obtain ⟨hfirst, hlast⟩ := h
  obtain ⟨-, -, -, hA, hB, -⟩ := (laws_iff _).1 c.lawful
  have hget : (fontGlyph c ch)[i]? = some (fontByte c ch i) := by simp [fontGlyph, hi]
  have inTable : ∀ {font : List Byte} {k : Nat}, k < font.length → some (font.getD k 0) = font[k]? := by
    intro font k hk
    rw [List.getD_eq_getElem _ _ hk, List.getElem?_eq_getElem hk]
  rw [hget]
  refine ⟨fun hs => ?_, fun hs => ?_⟩
  · rw [fontByte, if_pos hs]
    exact inTable (by omega)
  · rw [fontByte, if_neg (by omega)]
    exact inTable (by omega)

/-- Settles O33: the lookup's one step assigns the glyph or raises `CHAR_RANGE`. -/
theorem glyphLooksUp : Obligations.GlyphLooksUp := by
  unfold Obligations.GlyphLooksUp
  intro s ch hfree
  have hexec : exec (.glyph ch) s =
      .next ((s.start (.glyph ch)).runSteps (orRaise (glyphOf s.cfg ch) fun g => [.assign (.g g)])).finish :=
    State.issue_free hfree _ _
  have hstart : (s.start (.glyph ch)).fault = none := hfree.1
  refine ⟨fun hfirst hlast => ?_, fun hout => ?_⟩
  · have hg : HasGlyph s.cfg ch := ⟨hfirst, hlast⟩
    refine ⟨fontGlyph s.cfg ch, ?_, fontGlyph_length _ _, fun i hi => fontGlyph_getElem? hg hi⟩
    rw [hexec, glyphOf_ok hg, orRaise, State.runSteps_assign hstart, State.runSteps_nil,
      State.finish_of_no_fault (s := (s.start _).assign _) hstart]
    simp only [State.assign, State.start, Locals.assign, hfree.2]
  · have hg : ¬ HasGlyph s.cfg ch := by unfold HasGlyph; omega
    rw [hexec, glyphOf_error hg, orRaise, State.runSteps_raise, State.finish_of_fault rfl]
    rfl

/-! ### One byte in HW (40_transport.md R101) -/

/-- A wait ends in time without a bound, or when fewer polls than the bound read 0 (R107). -/
theorem timesOut_eq_false {bound : Option Nat} {zeros : Nat}
    (h : bound = none ∨ ∃ n, bound = some n ∧ zeros < n) : timesOut bound zeros = false := by
  rcases h with rfl | ⟨n, rfl, hz⟩
  · rfl
  · simp only [timesOut, decide_eq_false_iff_not]
    omega

/-- A transfer that ends in time: one `TxByte`, the schedule's choice used, and `TXDONE` read as 1. -/
theorem State.transmitHw_inTime {b : Byte} {s : State} (h : timesOut s.cfg.txWaitBound s.nextZeros = false) :
    s.transmitHw b = { s.emit (.txByte b) with
      spi := { s.useZeros.spi with txbuf := some b, txdone := some true, inFlight := none }
      freeCtr := s.useZeros.freeCtr
      locals := { s.locals with polls := some s.nextZeros }
      pc := s.pc + 1 + (s.nextZeros + 1) } := by
  obtain ⟨cfg, lines, trace, op, pc, locals, fault, ⟨txbuf, txdone, inFlight, sched⟩, rx, inbox, ctr⟩ := s
  cases sched with
  | nil | cons z rest =>
    simp only [State.nextZeros] at h
    simp only [State.transmitHw, State.nextZeros, State.useZeros, State.advancePc_spi, State.writeTxbuf_spi, Spi.start,
      State.advancePc_freeCtr, State.writeTxbuf_freeCtr, h, Bool.false_eq_true, if_false]
    rfl

/-- Settles O27: with the wait in time the one step of the list is known field by field. -/
theorem hwTransmits : Obligations.HwTransmits := by
  unfold Obligations.HwTransmits
  intro s b hfree hhw hbound
  have htime : timesOut s.cfg.txWaitBound s.nextZeros = false := by
    refine timesOut_eq_false (hbound.imp_right ?_)
    rintro ⟨n, z, rest, hn, hsched, hz⟩
    exact ⟨n, hn, by simpa [State.nextZeros, hsched] using hz⟩
  have hexec : exec (.transmitHw b) s = .next ((s.start (.transmitHw b)).runSteps [.transmit b]).finish := by
    simp only [exec, execTransmitHw, hhw]
    exact State.issue_free hfree _ _
  have hrun : (s.start (.transmitHw b)).runSteps [.transmit b] = (s.start (.transmitHw b)).transmitHw b := by
    rw [State.runSteps_singleton, State.prim, State.transmit, State.start_cfg, hhw]
  rw [hrun, State.transmitHw_inTime (s := s.start _) htime, State.finish_of_no_fault (by exact hfree.1)] at hexec
  refine ⟨_, hexec, ⟨hfree.1, rfl, rfl, rfl, rfl, fun h => ?_⟩, ⟨rfl, rfl⟩, rfl, rfl, rfl, rfl, rfl, rfl,
    fun z rest hsched => ?_, fun ha => ?_⟩
  · rw [hhw] at h
    cases h
  · simp [State.nextZeros, State.useZeros, hsched]
  · obtain ⟨es, ⟨-, -, htrace, -⟩, hheard, -⟩ := exec_went (.inr rfl) ha hexec
    rwa [← List.append_cancel_left htrace] at hheard

/-! ### The flag after an operation (10_state.md R29) -/

/-- The byte a bus event hands to the SPI peripheral. -/
def BusEvent.txByte? : BusEvent → Option Byte
  | .txByte b => some b
  | .drive _ _ | .delay _ => none

/-- The last byte that a run of bus events hands to the SPI peripheral. -/
def lastTxByte (es : List BusEvent) : Option Byte := (es.filterMap BusEvent.txByte?).getLast?

theorem lastTxByte_append (es fs : List BusEvent) :
    lastTxByte (es ++ fs) = (lastTxByte fs).or (lastTxByte es) := by
  simp only [lastTxByte, List.filterMap_append, List.getLast?_append]

/-- A run of events without a `TxByte` has no last one. -/
theorem lastTxByte_eq_none {es : List BusEvent} (h : ∀ b, BusEvent.txByte b ∉ es) : lastTxByte es = none := by
  rw [lastTxByte, List.getLast?_eq_none_iff, List.filterMap_eq_nil_iff]
  intro e he
  cases e with
  | txByte b => exact (h b he).elim
  | drive | delay => rfl

/-- A `TxByte` that no other follows is the last one. -/
theorem lastTxByte_of_split {before after : List BusEvent} {b : Byte} (h : ∀ c, BusEvent.txByte c ∉ after) :
    lastTxByte (before ++ .txByte b :: after) = some b := by
  have hlast : lastTxByte (.txByte b :: after) = some b := by
    rw [← List.singleton_append, lastTxByte_append, lastTxByte_eq_none h]
    rfl
  rw [lastTxByte_append, hlast, Option.some_or]

/-- In HW the byte a step sends is the last one its events hand over. -/
theorem Prim.lastTxByte_emits {c : Config} (hc : c.transport = .hw) (p : Prim) :
    lastTxByte (p.emits c) = p.sent? := by
  cases p with
  | transmit b => simp only [Prim.emits, byteEvents, hc]; rfl
  | drive | delay | checkIdle | raise | assign => rfl

/-- What the last byte leaves is a matter of the lines and the peripheral alone. -/
theorem State.SentLast.of_eq {s t u : State} {b : Option Byte} (h : State.SentLast s t b) (hl : u.lines = t.lines)
    (hp : u.spi = t.spi) : State.SentLast s u b := by
  cases b <;> (unfold State.SentLast at *; rwa [hl, hp])

/-- In HW, while no transfer can time out, a step list leaves the peripheral as the last byte on the bus does, also
where it stops at a fault. -/
theorem State.runSteps_lastTxByte {ps : List Prim} (hp : Ordinary ps) {s : State} (hhw : s.cfg.transport = .hw)
    (hu : s.Untimed) : ∃ es, State.Emits s (s.runSteps ps) es ∧ State.SentLast s (s.runSteps ps) (lastTxByte es) := by
  induction ps generalizing s with
  | nil => exact ⟨[], .refl s, rfl, rfl, rfl⟩
  | cons p ps ih =>
    obtain ⟨hemit, -⟩ := s.prim_emits p
    have hsent := State.prim_sentLast (hp p (by simp)) hu
    rw [← p.lastTxByte_emits hhw] at hsent
    have hcfg := hemit.1
    rw [State.runSteps_cons]
    split
    · exact ⟨_, hemit, hsent⟩
    · obtain ⟨es, hemit', hsent'⟩ := ih (fun q hq => hp q (by simp [hq])) (s := s.prim p) (by rw [hcfg]; exact hhw)
        (by unfold State.Untimed; rw [hcfg]; exact hu)
      refine ⟨_, hemit.trans hemit', ?_⟩
      rw [lastTxByte_append]
      exact hsent.trans hcfg hsent'

/-- Settles O59: the last byte on the bus determines the flag, through the whole step list. -/
theorem flagFollowsLastByte : Obligations.FlagFollowsLastByte := by
  unfold Obligations.FlagFollowsLastByte
  intro i s t hi hhw hbound hx
  obtain ⟨-, ps, hord, -, -, ht⟩ := exec_ran hi hx
  obtain ⟨es, hemit, hsent⟩ := State.runSteps_lastTxByte hord (s := s.start i) hhw (.inr hbound)
  obtain ⟨-, tspi, -, tlines, -⟩ := State.finish_parts ht
  have hsent := (show State.SentLast s _ _ from hsent).of_eq tlines tspi
  obtain ⟨-, -, htrace, hlines, -⟩ := (show State.Emits s _ es from hemit).of_finish ht
  refine ⟨es, ⟨htrace, hlines⟩, fun hnone => ?_, fun before after b hes hafter => ?_⟩
  · rw [lastTxByte_eq_none hnone] at hsent
    exact hsent.2.2
  · rw [hes, lastTxByte_of_split hafter] at hsent
    exact (hsent.2 hhw).2.2

/-! ### Bring-up (45_init.md) -/

/-- A host operation that completes leaves the serial side as its last byte does. -/
theorem exec_sentLast {i : Instr} {s t : State} (hi : i.isHostOp = true) (hs : s.Ready) (ha : s.Aligned)
    (hu : s.Untimed) (hr : (Ctl.rest.run (hostSteps s.cfg i)).fault = none) (hx : exec i s = .next t) :
    State.SentLast s t (Ctl.rest.lastSent (hostSteps s.cfg i)) := by
  obtain ⟨-, ps, hord, hps, -, ht⟩ := exec_ran (.inl hi) hx
  obtain ⟨-, rfl⟩ := hps hi
  have hctl : (s.start i).lines.ctl = Ctl.rest := (Lines.idle_iff _).1 hs.2
  have hsent := State.runSteps_sentLast hord (s := s.start i) hs.1.1 ha hu (by rwa [hctl])
  rw [hctl] at hsent
  obtain ⟨-, tspi, -, tlines, -⟩ := State.finish_parts ht
  exact (show State.SentLast s _ _ from hsent).of_eq tlines tspi

/-- Settles O50: `init`'s list plays its frames, and its last byte is the display-on command. -/
theorem initSends : Obligations.InitSends := by
  unfold Obligations.InitSends
  intro s hs ha hu
  obtain ⟨t, hx, hdone, hsent⟩ := State.call_completes hs ha hu (i := .init) rfl (Ordinary.init s.cfg) (Plays.init s.cfg)
  refine ⟨t, hx, hdone, hsent, ?_⟩
  have hlast := exec_sentLast (i := .init) rfl hs ha hu rfl hx
  rw [show Ctl.rest.lastSent (hostSteps s.cfg .init) = some s.cfg.opcodes.dispon from rfl] at hlast
  refine ⟨fun hm => ?_, fun hm => ?_⟩
  · obtain ⟨hsck, hsdo, -⟩ := hlast.1 hm
    exact ⟨hsck, hsdo⟩
  · obtain ⟨-, -, htxbuf, htxdone, -⟩ := hlast.2 hm
    exact ⟨htxbuf, htxdone⟩

end Sys2Proof.Machine

/-! # Memory and the bus: what the receiver and the bus see of a step (20_memory.md) -/

namespace Sys2Proof.Machine

/-! ## The receiver consumes the trace (R61, 46_receiver.md R240) -/

/-- Heeding does not look at the inputs to come. -/
theorem State.Heeds.withInbox {s : State} (h : s.Heeds) (rest : List Input) : ({ s with inbox := rest } : State).Heeds :=
  ⟨h.lines, h.whole, h.aligned, h.receiver⟩

/-- A stretch of whole bytes that the receiver heard carries the property on: the projection of the longer trace is the
old one followed by that of the stretch. -/
theorem State.Heeds.emits {s t : State} {es : List BusEvent} (h : s.Heeds) (he : State.Emits s t es)
    (hh : State.Heard s t es) (hw : (Decoder.afterAll ⟨s.lines, Shift8.zero, 0⟩ es).nb = 0) : t.Heeds := by
  obtain ⟨hcfg, -, htrace, hlines, -⟩ := he
  have hwhole : (Decoder.afterAll ⟨Lines.powerOn, Shift8.zero, 0⟩ s.trace).nb = 0 := h.whole
  refine ⟨?_, ?_, hh.1, ?_⟩
  · rw [hlines, htrace, Lines.afterAll_append, ← h.lines]
  · change (Decoder.afterAll ⟨Lines.powerOn, Shift8.zero, 0⟩ t.trace).nb = 0
    rw [htrace, Decoder.afterAll_append, Decoder.afterAll_nb _ hwhole, Decoder.afterAll_lv, ← h.lines]
    exact hw
  · have hproj : proj t.trace = proj s.trace ++ projFrom s.lines es := by
      rw [htrace, h.lines]
      exact projFrom_append es hwhole
    rw [hcfg, hproj, Rx.receiveAll_append, hh.2]
    exact Rx.receiveAll_congr _ _ h.receiver

/-- `board_setup()` drives control lines only, so no byte is half clocked after it (70_reset_and_hazards.md R324). -/
theorem State.Heeds.boardSetup {s : State} (h : s.Heeds) : s.boardSetup.Heeds := by
  have hwhole : (Decoder.afterAll ⟨s.lines, Shift8.zero, 0⟩
      [.drive .cs true, .drive .dc true, .drive .rst true]).nb = 0 := by
    simp [Decoder.next]
  exact h.emits (s.emits_emitAll _) (State.went_emitAll h.aligned hwhole).heard hwhole

/-- A host operation or primitive keeps the property, whether it completes or stops at a fault. -/
theorem State.Heeds.exec {i : Instr} {s t : State} (h : s.Heeds) (hi : i.isHostOp = true ∨ i.isPrimitive = true)
    (hx : Machine.exec i s = .next t) : t.Heeds := by
  obtain ⟨es, hemit, hheard, hwhole⟩ := exec_went hi h.aligned hx
  exact h.emits hemit hheard hwhole

theorem State.reset_heeds : State.reset.Heeds := ⟨rfl, rfl, rfl, rfl⟩

/-- Settles O56: of the four things a step can be, a wire event is excluded, and each other one keeps the property. -/
theorem receiverConsumesTheTrace : Obligations.ReceiverConsumesTheTrace := by
  unfold Obligations.ReceiverConsumesTheTrace
  refine ⟨State.reset_heeds, fun s t h hs hin => ?_⟩
  rcases step_cases hs with ⟨-, rfl⟩ | ⟨rest, -, rfl⟩ | ⟨e, rest, hwire, -⟩ | ⟨i, rest, hfetch, hx⟩
  · exact h
  · exact (h.withInbox rest).boardSetup
  · simp [hwire] at hin
  · refine (h.withInbox rest).exec ?_ hx
    rcases hfetch with ⟨bs, -, hdec⟩ | ⟨bs, hinstr, hdec⟩
    · exact .inl (decodeCaller_ok hdec).2
    · obtain ⟨bs', rest', j, hinstr', hdec', hj⟩ : ∃ bs' rest' j, s.inbox = .instr bs' :: rest' ∧
          decode s.cfg.opcodes bs' = .ok j ∧ (j.isHostOp = true ∨ j.isPrimitive = true) := by
        simpa [hinstr] using hin
      rw [hinstr] at hinstr'
      cases hinstr'
      rw [hdec] at hdec'
      cases hdec'
      exact hj

/-! ## What a host operation puts on the bus (R57, 30_encoding.md R79, R88) -/

/-! ### The parts of a script -/

/-- Frames that paint: those of one filled rectangle or of one pixel. -/
def PaintFrames (o : Opcodes) (fs : List FrameEvent) : Prop :=
  (∃ x1 y1 x2 y2 colour, fs = fillFrames o x1 y1 x2 y2 colour) ∨ ∃ x y colour, fs = pixelFrames o x y colour

/-- Every part of a script that sends frames paints with them. -/
def Paints (o : Opcodes) (sc : List Part) : Prop := ∀ fs, .ok fs ∈ sc → PaintFrames o fs

theorem Paints.nil (o : Opcodes) : Paints o [] := fun _ h => by cases h

theorem Paints.ok {o : Opcodes} {fs : List FrameEvent} (h : PaintFrames o fs) : Paints o [.ok fs] := fun gs hg => by
  cases List.mem_singleton.1 hg
  exact h

theorem Paints.error (o : Opcodes) (code : FaultCode) : Paints o [.error code] := fun _ h => by
  cases List.mem_singleton.1 h

theorem Paints.append {o : Opcodes} {sc sd : List Part} (h : Paints o sc) (g : Paints o sd) : Paints o (sc ++ sd) :=
  fun fs hfs => (List.mem_append.1 hfs).elim (h fs) (g fs)

theorem Paints.flatMap {α : Type} {o : Opcodes} {l : List α} {f : α → List Part} (h : ∀ a, Paints o (f a)) :
    Paints o (l.flatMap f) := fun fs hfs => by
  obtain ⟨a, -, ha⟩ := List.mem_flatMap.1 hfs
  exact h a fs ha

theorem Paints.map {α : Type} {o : Opcodes} {l : List α} {f : α → Part} (h : ∀ a, Paints o [f a]) :
    Paints o (l.map f) := by
  rw [List.map_eq_flatMap]
  exact .flatMap h

theorem Paints.block (o : Opcodes) (ox oy s : Nat) (colour : Colour) : Paints o [blockPart o ox oy s colour] := by
  unfold blockPart
  split
  · exact .error o _
  · split
    · exact .error o _
    · exact .ok (.inl ⟨_, _, _, _, _, rfl⟩)

theorem Paints.pixel (o : Opcodes) (x y : Byte) (colour : Colour) : Paints o [pixelPart o x y colour] := by
  unfold pixelPart
  split
  · exact .error o _
  · exact .ok (.inr ⟨_, _, _, rfl⟩)

theorem Paints.cell (o : Opcodes) (x y size i j : Nat) (colour : Colour) :
    Paints o [cellPart o x y size i j colour] := by
  unfold cellPart
  split
  · split
    · exact .error o _
    · exact .pixel o _ _ _
  · exact .block o _ _ _ _

theorem Paints.bitmap (o : Opcodes) (x y s : Nat) (bitmap : List Colour) : Paints o (bitmapScript o x y s bitmap) := by
  unfold bitmapScript
  split
  · refine .flatMap fun i => .map fun j => ?_
    split
    · exact .block o _ _ _ _
    · exact .error o _
  · exact .error o _
  · exact .error o _

theorem Paints.char (c : Config) (x y : Nat) (ch : Byte) (colour : Colour) (size : Nat) :
    Paints c.opcodes (charScript c x y ch colour size) := by
  unfold charScript
  split
  · exact .error _ _
  · refine .flatMap fun i => .flatMap fun j => ?_
    split
    · exact .cell _ _ _ _ _ _ _
    · exact .nil _

theorem Paints.text (c : Config) (x y : Nat) (colour : Colour) (size k : Nat) (text : List Byte) :
    Paints c.opcodes (textScript c x y colour size k text) := by
  induction text generalizing k with
  | nil => exact .error _ _
  | cons ch rest ih =>
    unfold textScript
    split
    · exact .nil _
    · split
      · exact .error _ _
      · exact (Paints.char _ _ _ _ _ _).append (ih _)

/-- Every host operation's list does what a script says whose parts send the frames of `init`, of `set_window`, or of a
rectangle or pixel painted: a property of these is one of every part of every operation. -/
theorem hostSteps_parts (c : Config) {P : List FrameEvent → Prop} (hinit : P (initFrames c))
    (hwindow : ∀ x1 y1 x2 y2, P (windowFrames c.opcodes x1 y1 x2 y2))
    (hpaint : ∀ fs, PaintFrames c.opcodes fs → P fs) {i : Instr} (hi : i.isHostOp = true) :
    ∃ sc, Follows (hostSteps c i) sc ∧ ∀ fs, .ok fs ∈ sc → P fs := by
  have painted : ∀ {ps sc}, Follows ps sc → Paints c.opcodes sc →
      ∃ sc, Follows ps sc ∧ ∀ fs, .ok fs ∈ sc → P fs := fun hf hp =>
    ⟨_, hf, fun fs hfs => hpaint fs (hp fs hfs)⟩
  cases i with
  | init =>
    refine ⟨_, .ok (Plays.init c), fun fs hfs => ?_⟩
    cases List.mem_singleton.1 hfs
    exact hinit
  | setWindow =>
    refine ⟨_, .ok (Plays.setWindow c _ _ _ _), fun fs hfs => ?_⟩
    cases List.mem_singleton.1 hfs
    exact hwindow _ _ _ _
  | fillRectangle x1 y1 x2 y2 colour =>
    by_cases hx : u8 x2 < u8 x1 ∨ u8 y2 < u8 y1
    · exact painted (.error (Breaks.fillRectangle c _ hx)) (.error _ _)
    · simp only [not_or, BitVec.not_lt] at hx
      exact painted (.ok (Plays.fillRectangle c _ hx.1 hx.2)) (.ok (.inl ⟨_, _, _, _, _, rfl⟩))
  | drawPixel => exact painted (Follows.drawPixel c _ _ _) (.pixel _ _ _ _)
  | drawBitmap => exact painted (Follows.drawBitmap c _ _ _ _) (.bitmap _ _ _ _ _)
  | drawChar => exact painted (Follows.drawChar c _ _ _ _ _) (.char _ _ _ _ _ _)
  | drawString => exact painted (Follows.drawString c _ _ _ _ _) (.text _ _ _ _ _ _ _)
  | cmdSwreset | cmdSlpout | cmdColmod | cmdDispon | cmdCaset | cmdRaset | cmdRamwr => cases hi
  | data | cmdUnsupported | transmitHw | transmitBitbang | writeCommand | writeData => cases hi
  | writePixels | glyph => cases hi

/-- What is sent before the first fault is sent by some part. -/
theorem mem_sentBefore {sc : List Part} {f : FrameEvent} (h : f ∈ sentBefore sc) :
    ∃ fs, .ok fs ∈ sc ∧ f ∈ fs := by
  induction sc with
  | nil => cases h
  | cons p sc ih =>
    cases p with
    | error code => cases h
    | ok gs =>
      rcases List.mem_append.1 h with h | h
      · exact ⟨gs, List.mem_cons_self, h⟩
      · obtain ⟨fs, hfs, hf⟩ := ih h
        exact ⟨fs, List.mem_cons_of_mem _ hfs, hf⟩

/-! ### Events a controller knows -/

/-- An event that is a whole, known byte or none, and if a command then one of the seven (R79, R88). -/
def FrameEvent.Known (o : Opcodes) (f : FrameEvent) : Prop :=
  f ≠ .partialByte ∧ f ≠ .unknownByte ∧ ∀ b, f = .cmd b → b ∈ o.all

theorem FrameEvent.known_wait (o : Opcodes) (t : DelayName) : (FrameEvent.wait t).Known o := by simp [Known]

/-- Frames of known events. -/
def KnownFrames (o : Opcodes) (fs : List FrameEvent) : Prop := ∀ f ∈ fs, f.Known o

theorem KnownFrames.append {o : Opcodes} {fs gs : List FrameEvent} (h : KnownFrames o fs) (g : KnownFrames o gs) :
    KnownFrames o (fs ++ gs) := List.forall_mem_append.2 ⟨h, g⟩

theorem KnownFrames.command {o : Opcodes} {b : Byte} (h : b ∈ o.all) : KnownFrames o (commandFrame b) := by
  simp [KnownFrames, commandFrame, FrameEvent.Known, h]

theorem KnownFrames.data (o : Opcodes) (b : Byte) : KnownFrames o (dataFrame b) := by
  simp [KnownFrames, dataFrame, FrameEvent.Known]

theorem KnownFrames.stream (o : Opcodes) (colour : Colour) (n : Nat) : KnownFrames o (streamFrame colour n) := by
  have pixel : KnownFrames o [.dat (colourHi colour), .dat (colourLo colour)] := by simp [KnownFrames, FrameEvent.Known]
  have rise : KnownFrames o [.csRise] := by simp [KnownFrames, FrameEvent.Known]
  have fall : KnownFrames o [.csFall] := by simp [KnownFrames, FrameEvent.Known]
  refine (fall.append fun f hf => ?_).append rise
  obtain ⟨fs, hfs, hf⟩ := List.mem_flatten.1 hf
  exact pixel f ((List.mem_replicate.1 hfs).2 ▸ hf)

theorem KnownFrames.window (o : Opcodes) (x1 y1 x2 y2 : Byte) : KnownFrames o (windowFrames o x1 y1 x2 y2) := by
  have address : ∀ cmd ∈ o.all, ∀ a b,
      KnownFrames o (commandFrame cmd ++ dataFrame 0 ++ dataFrame a ++ dataFrame 0 ++ dataFrame b) := fun cmd h a b =>
    ((((KnownFrames.command h).append (.data o 0)).append (.data o a)).append (.data o 0)).append (.data o b)
  have h := ((address o.caset (by simp [Opcodes.all]) x1 x2).append
    (address o.raset (by simp [Opcodes.all]) y1 y2)).append (.command (b := o.ramwr) (by simp [Opcodes.all]))
  simpa [windowFrames] using h

theorem KnownFrames.paint {o : Opcodes} {fs : List FrameEvent} (h : PaintFrames o fs) : KnownFrames o fs := by
  rcases h with ⟨x1, y1, x2, y2, colour, rfl⟩ | ⟨x, y, colour, rfl⟩
  · exact (KnownFrames.window o x1 y1 x2 y2).append (.stream o colour _)
  · exact ((KnownFrames.window o x y _ _).append (.data o _)).append (.data o _)

theorem KnownFrames.init (c : Config) : KnownFrames c.opcodes (initFrames c) := by
  simp [KnownFrames, initFrames, commandFrame, dataFrame, FrameEvent.Known, Opcodes.all]

/-- A host operation's list sends known events only, from any control lines: away from the idle levels its entry check
raises before any event (60_exceptions.md R283). -/
theorem KnownFrames.hostSteps (k : Ctl) (c : Config) {i : Instr} (hi : i.isHostOp = true) :
    KnownFrames c.opcodes (k.run (Machine.hostSteps c i)).frames := by
  by_cases hk : k = Ctl.rest
  · obtain ⟨sc, hfollow, hparts⟩ := hostSteps_parts c (KnownFrames.init c) (KnownFrames.window c.opcodes)
      (fun _ => KnownFrames.paint) hi
    rw [hk, hfollow]
    intro f hf
    obtain ⟨fs, hfs, hf⟩ := mem_sentBefore hf
    exact hparts fs hfs f hf
  · obtain ⟨ps, hps⟩ := hostSteps_checkIdle hi c
    intro f hf
    simp [hps, Ctl.run, Prim.fault, hk] at hf

/-! ### The events of an operation -/

/-- What the bus carried in a list's run it carried in the operation. -/
theorem State.Carried.of_finish {s u t : State} {es : List BusEvent} (h : State.Carried s u es)
    (ht : t = u.finish ∨ t = u.finish.dropLocals) : State.Carried s t es := by
  rcases ht with rfl | rfl <;> simp only [State.finish, State.dropLocals] <;> split_ifs <;> exact h

/-- The frames of a host operation begin those of its list, the bit waits aside, also where a transfer times out. -/
theorem exec_sends {i : Instr} {s t : State} (hi : i.isHostOp = true) (ha : s.Aligned) (h : exec i s = .next t) :
    ∃ es, State.Carried s t es ∧
      dropBitWaits (projFrom s.lines es) <+: (s.lines.ctl.run (hostSteps s.cfg i)).frames := by
  obtain ⟨⟨hfree, -⟩, ps, hord, hps, -, ht⟩ := exec_ran (.inl hi) h
  obtain ⟨-, rfl⟩ := hps hi
  obtain ⟨es, hwent, -, hrun⟩ := State.runSteps_spec hord (s := s.start i) hfree ha
  refine ⟨es, (show State.Carried s _ es from hwent.carried).of_finish ht, ?_⟩
  rcases hrun with ⟨hframes, -⟩ | ⟨-, hpre⟩
  · exact hframes ▸ List.prefix_rfl
  · exact hpre

/-- Settles O58: an event of the bus is a bit wait or an event of the operation's list, and those are known. -/
theorem onlySevenCommands : Obligations.OnlySevenCommands := by
  unfold Obligations.OnlySevenCommands
  intro i s t hi ha hx
  obtain ⟨es, hcarried, hpre⟩ := exec_sends hi ha hx
  refine ⟨es, hcarried, fun f hf => ?_⟩
  by_cases hbit : f = .wait .bit
  · exact hbit ▸ FrameEvent.known_wait s.cfg.opcodes .bit
  · have hlist : f ∈ (s.lines.ctl.run (hostSteps s.cfg i)).frames :=
      hpre.subset (List.mem_filter.2 ⟨hf, decide_eq_true hbit⟩)
    exact KnownFrames.hostSteps s.lines.ctl s.cfg hi f hlist

/-! ## What a step takes from its inputs (R65, 30_encoding.md R86, R87) -/

theorem decodeCaller_of_hostOp {o : Opcodes} {bs : List Byte} {i : Instr} (h : decode o bs = .ok i)
    (hi : i.isHostOp = true) : decodeCaller o bs = .ok i := by
  simp only [decodeCaller, h, hi, if_true]

theorem decodeCaller_of_not_hostOp {o : Opcodes} {bs : List Byte} {i : Instr} (h : decode o bs = .ok i)
    (hi : i.isHostOp = false) : decodeCaller o bs = .error .notHostOp := by
  simp only [decodeCaller, h, hi, Bool.false_eq_true, if_false]

theorem decodeCaller_of_error {o : Opcodes} {bs : List Byte} {why : DecodeError} (h : decode o bs = .error why) :
    decodeCaller o bs = .error why := by
  simp only [decodeCaller, h]

/-- A caller's bytes that are no host operation are refused (60_exceptions.md R286). -/
theorem step_call_refused {s : State} {bs : List Byte} {rest : List Input} {why : DecodeError}
    (hin : s.inbox = .call bs :: rest) (h : decodeCaller s.cfg.opcodes bs = .error why) :
    step s = .refused (.unknownOp why) := by
  simp only [step, hin, h]

/-- A test bench's bytes that are no instruction are refused (R286). -/
theorem step_instr_refused {s : State} {bs : List Byte} {rest : List Input} {why : DecodeError}
    (hin : s.inbox = .instr bs :: rest) (h : decode s.cfg.opcodes bs = .error why) :
    step s = .refused (.unknownOp why) := by
  simp only [step, hin, h]

theorem step_wire {s : State} {e : FrameEvent} {rest : List Input} (hin : s.inbox = .wire e :: rest) :
    step s = .next { s with inbox := rest, rx := s.rx.receive s.cfg e } := by
  simp only [step, hin, State.taken, State.wireEvent, List.tail_cons]

theorem step_nil {s : State} (hin : s.inbox = []) : step s = .next s := by
  simp only [step, hin]

/-- Settles O6: bytes that decode for their sender are fetched and executed, all others are refused. -/
theorem stepRunsTheDecoded : Obligations.StepRunsTheDecoded := by
  unfold Obligations.StepRunsTheDecoded
  intro s rest
  refine ⟨fun bs i hin hd => ?_, fun bs why hin hd => ?_, fun bs i hin hd hi => ?_, fun bs i hin hd hi => ?_,
    fun bs why hin hd => ?_, fun e hin => step_wire hin, step_nil⟩
  · exact step_of_fetches (.inr ⟨bs, hin, hd⟩)
  · exact step_instr_refused hin hd
  · exact step_of_fetches (.inl ⟨bs, hin, decodeCaller_of_hostOp hd hi⟩)
  · exact step_call_refused hin (decodeCaller_of_not_hostOp hd hi)
  · exact step_call_refused hin (decodeCaller_of_error hd)

/-- Settles O12: a host operation is a call, and a call is refused while an operation executes. -/
theorem concurrentCallerRefused : Obligations.ConcurrentCallerRefused := by
  unfold Obligations.ConcurrentCallerRefused
  intro i j s hi hfit hf hbusy
  rw [exec_hostOp hi]
  exact State.call_busy hfit hf hbusy _

end Sys2Proof.Machine

/-! # Encoding: instructions and their bytes (30_encoding.md) -/

namespace Sys2Proof

/-! ## Decoding and encoding -/

/-! ### Frame words (R71, R73, R88) -/

/-- A frame word is its qualifier and its byte. -/
theorem frameWord_getLsbD_setWidth (w : FrameWord) : frameWord (w.getLsbD 8) (w.setWidth 8) = w := by
  have key : ∀ w : FrameWord, frameWord (w.getLsbD 8) (w.setWidth 8) = w := by decide +kernel
  exact key w

/-- A word with the qualifier 1 is a data word. -/
@[simp] theorem decodeFrame_dat (o : Opcodes) (d : Byte) : decodeFrame o (frameWord true d) = .data d := by
  obtain ⟨hdc, hbyte⟩ := frameWord_parts true d
  rw [decodeFrame, hdc, hbyte, if_pos rfl]

/-- A word with the qualifier 0 is the command of its byte. -/
@[simp] theorem decodeFrame_cmd (o : Opcodes) (b : Byte) :
    decodeFrame o (frameWord false b) = (o.command b).instr := by
  obtain ⟨hdc, hbyte⟩ := frameWord_parts false b
  rw [decodeFrame, hdc, hbyte, if_neg (by simp)]

/-- A byte that is none of the seven opcodes is an unsupported command (R88). -/
theorem Opcodes.command_of_not_mem {o : Opcodes} {b : Byte} (h : b ∉ o.all) : o.command b = .unsupported b := by
  simp only [Opcodes.all, List.mem_cons, List.not_mem_nil, or_false, not_or] at h
  obtain ⟨h1, h2, h3, h4, h5, h6, h7⟩ := h
  simp only [Opcodes.command, h1, h2, h3, h4, h5, h6, h7, if_false]

/-- The instruction of a command byte is well-formed, and its frame word holds that byte. -/
theorem Opcodes.command_instr (o : Opcodes) (b : Byte) :
    (o.command b).instr.wellFormed o = true ∧ (o.command b).instr.frame? o = some (frameWord false b) := by
  by_cases h : b ∈ o.all
  · unfold Opcodes.command
    split_ifs with h1 h2 h3 h4 h5 h6 h7
    case neg => simp [Opcodes.all, h1, h2, h3, h4, h5, h6, h7] at h
    all_goals subst b; exact ⟨rfl, rfl⟩
  · rw [Opcodes.command_of_not_mem h]
    exact ⟨by simp [Command.instr, Instr.wellFormed, Instr.argsFit, h], rfl⟩

/-- Every frame word is read as a well-formed instruction whose frame word it is. -/
theorem decodeFrame_wellFormed (o : Opcodes) (w : FrameWord) :
    (decodeFrame o w).wellFormed o = true ∧ (decodeFrame o w).frame? o = some w := by
  rw [← frameWord_getLsbD_setWidth w]
  cases w.getLsbD 8 with
  | true => rw [decodeFrame_dat]; exact ⟨rfl, rfl⟩
  | false => rw [decodeFrame_cmd]; exact o.command_instr _

/-- A well-formed frame instruction is what its word is read as. -/
theorem decodeFrame_of_frame? {o : Opcodes} (ho : o.all.Nodup) {i : Instr} (hi : i.wellFormed o = true)
    {w : FrameWord} (hw : i.frame? o = some w) : decodeFrame o w = i := by
  obtain ⟨hswreset, hslpout, hcolmod, hdispon, hcaset, hraset, hramwr⟩ := Machine.opcodes_command o ho
  have command : ∀ b : Byte, some (frameWord false b) = some w → decodeFrame o w = (o.command b).instr := by
    rintro b ⟨⟩
    exact decodeFrame_cmd o b
  cases i with
  | cmdSwreset => rw [command _ hw, hswreset]; rfl
  | cmdSlpout => rw [command _ hw, hslpout]; rfl
  | cmdColmod => rw [command _ hw, hcolmod]; rfl
  | cmdDispon => rw [command _ hw, hdispon]; rfl
  | cmdCaset => rw [command _ hw, hcaset]; rfl
  | cmdRaset => rw [command _ hw, hraset]; rfl
  | cmdRamwr => rw [command _ hw, hramwr]; rfl
  | data d => cases hw; exact decodeFrame_dat o d
  | cmdUnsupported b =>
    have hb : b ∉ o.all := by simpa [Instr.wellFormed, Instr.argsFit] using hi
    rw [command _ hw, Opcodes.command_of_not_mem hb]; rfl
  | init | setWindow | fillRectangle | drawPixel | drawBitmap | drawChar | drawString => cases hw
  | transmitHw | transmitBitbang | writeCommand | writeData | writePixels | glyph => cases hw

/-! ### Calls (R86, R87, R91) -/

/-- An instruction that is no frame word is written as a call. -/
theorem call?_of_frame?_none {o : Opcodes} {i : Instr} (h : i.frame? o = none) :
    ∃ nm args, i.call? = some (nm, args) := by
  cases i with
  | init | setWindow | fillRectangle | drawPixel | drawBitmap | drawChar | drawString => exact ⟨_, _, rfl⟩
  | transmitHw | transmitBitbang | writeCommand | writeData | writePixels | glyph => exact ⟨_, _, rfl⟩
  | cmdSwreset | cmdSlpout | cmdColmod | cmdDispon | cmdCaset | cmdRaset | cmdRamwr => cases h
  | data | cmdUnsupported => cases h

/-- The names of the calls are written with a name's characters. -/
theorem isName_of_mem_callNames {nm : List Byte} (h : nm ∈ callNames) : isName nm = true := by
  have key : ∀ nm ∈ callNames, isName nm = true := by decide
  exact key nm h

@[simp] theorem byteOf?_toNat (b : Byte) : byteOf? b.toNat = some b := by
  simp [byteOf?, b.isLt]

@[simp] theorem colourOf?_toNat (c : Colour) : colourOf? c.toNat = some c := by
  simp [colourOf?, c.isLt]

/-- The operand of a primitive is read back. -/
theorem bytePrimitive_toNat (mk : Byte → Instr) (b : Byte) : bytePrimitive mk [.num b.toNat] = some (mk b) := by
  simp [bytePrimitive]

theorem buildArgs_drawBitmap (x y scale : Nat) (ns : List Nat) :
    buildArgs nmDrawBitmap [.num x, .num y, .num scale, .list ns] =
      (ns.mapM colourOf?).map (.drawBitmap x y scale) := rfl

theorem buildArgs_drawString (x y colour size : Nat) (ns : List Nat) :
    buildArgs nmDrawString [.num x, .num y, .num colour, .num size, .list ns] =
      (ns.mapM byteOf?).map (.drawString x y colour size) := rfl

theorem buildArgs_writePixels (c n : Nat) :
    buildArgs nmWritePixels [.num c, .num n] =
      if 1 ≤ n then (colourOf? c).map (.writePixels · n) else none := rfl

/-- The name and arguments an instruction is written with are a call's, and stand for that instruction. -/
theorem buildArgs_call? {o : Opcodes} {i : Instr} (hi : i.wellFormed o = true) {nm : List Byte} {args : List Arg}
    (h : i.call? = some (nm, args)) : nm ∈ callNames ∧ buildArgs nm args = some i := by
  cases i with
  | init | setWindow | fillRectangle | drawPixel | drawChar => cases h; exact ⟨by decide, rfl⟩
  | drawBitmap x y scale bitmap =>
    cases h
    exact ⟨by decide, by rw [buildArgs_drawBitmap, mapM_colourOf]; rfl⟩
  | drawString x y colour size text =>
    cases h
    exact ⟨by decide, by rw [buildArgs_drawString, mapM_byteOf]; rfl⟩
  | transmitHw b | transmitBitbang b | writeCommand b | writeData b | glyph b =>
    cases h
    exact ⟨by decide, bytePrimitive_toNat _ b⟩
  | writePixels c n =>
    cases h
    have hn : 1 ≤ n := by simpa [Instr.wellFormed, Instr.argsFit] using hi
    exact ⟨by decide, by rw [buildArgs_writePixels, if_pos hn, colourOf?_toNat]; rfl⟩
  | cmdSwreset | cmdSlpout | cmdColmod | cmdDispon | cmdCaset | cmdRaset | cmdRamwr => cases h
  | data | cmdUnsupported => cases h

/-- A call whose arguments stand for an instruction decodes to it. -/
theorem decode_callBytes_ok (o : Opcodes) {nm : List Byte} {args : List Arg} {i : Instr} (hn : nm ∈ callNames)
    (h : buildArgs nm args = some i) : decode o (callBytes nm args) = .ok i := by
  have hname := isName_of_mem_callNames hn
  rw [decode_callBytes o nm args hname, decodeCall_callBytes nm args hname, if_pos (by simpa using hn), h]

/-- A call of a name that is none of the calls' is no instruction (60_exceptions.md R286). -/
theorem decode_callBytes_unknownName (o : Opcodes) {nm : List Byte} (args : List Arg) (hname : isName nm = true)
    (hn : nm ∉ callNames) : decode o (callBytes nm args) = .error .unknownName := by
  rw [decode_callBytes o nm args hname, decodeCall_callBytes nm args hname, if_neg (by simpa using hn)]

/-- A call of a name that is none of the host operations' gives the caller nothing to issue (R87, R286). -/
theorem decodeCaller_callBytes_error (o : Opcodes) {nm : List Byte} (args : List Arg) (hname : isName nm = true)
    (hn : nm ∉ hostNames) : ∃ why, decodeCaller o (callBytes nm args) = .error why := by
  cases hd : decodeCaller o (callBytes nm args) with
  | error why => exact ⟨why, rfl⟩
  | ok i =>
    obtain ⟨hdec, hhost⟩ := Machine.decodeCaller_ok hd
    by_cases hcall : nm ∈ callNames
    · rw [decode_callBytes o nm args hname, decodeCall_callBytes nm args hname, if_pos (by simpa using hcall)] at hdec
      cases hb : buildArgs nm args with
      | none => rw [hb] at hdec; cases hdec
      | some j =>
        rw [hb] at hdec
        cases hdec
        exact (hn (buildArgs_hostOp hb hhost)).elim
    · rw [decode_callBytes_unknownName o args hname hcall] at hdec
      cases hdec

/-! ### The statements -/

/-- Settles O8: a frame instruction is read back from its word, every other one from its call. -/
theorem decodeUndoesEncode : Obligations.DecodeUndoesEncode := by
  unfold Obligations.DecodeUndoesEncode
  intro o i ho hi
  cases hw : i.frame? o with
  | some w =>
    rw [show encode o i = w.bytes by simp only [encode, hw], decode_bytes, decodeFrame_of_frame? ho hi hw]
  | none =>
    obtain ⟨nm, args, hcall⟩ := call?_of_frame?_none hw
    obtain ⟨hn, hbuild⟩ := buildArgs_call? hi hcall
    rw [show encode o i = callBytes nm args by simp only [encode, hw, hcall], decode_callBytes_ok o hn hbuild]

/-- Settles O9: the two bytes give the word back, and its qualifier bit says which instruction it is. -/
theorem everyFrameWordDecodes : Obligations.EveryFrameWordDecodes := by
  unfold Obligations.EveryFrameWordDecodes
  intro o w _
  obtain ⟨hwf, hframe⟩ := decodeFrame_wellFormed o w
  refine ⟨decode_bytes o w, hwf, hframe, fun hdc => ?_, fun hdc hb => ?_⟩
  · rw [decodeFrame, if_pos hdc]
  · rw [decodeFrame, if_neg (by rw [hdc]; exact Bool.false_ne_true), Opcodes.command_of_not_mem hb]
    rfl

/-- Settles O10: the caller's decoder gives a host operation only for a host operation's name. -/
theorem unknownOperationRefused : Obligations.UnknownOperationRefused := by
  unfold Obligations.UnknownOperationRefused
  intro s rest
  refine ⟨fun b nm args hb hnm => ?_, fun w hin => ?_⟩
  · have hname : isName (b :: nm) = true := by simp only [isName, hb, hnm, Bool.and_self]
    refine ⟨fun hn hin => ?_, fun hn hin => ?_⟩
    · obtain ⟨why, hd⟩ := decodeCaller_callBytes_error s.cfg.opcodes args hname hn
      exact ⟨why, Machine.step_call_refused hin hd⟩
    · have hd := decode_callBytes_unknownName s.cfg.opcodes args hname hn
      rcases hin with hin | hin
      · exact Machine.step_call_refused hin (Machine.decodeCaller_of_error hd)
      · exact Machine.step_instr_refused hin hd
  · have hd := Machine.decodeCaller_of_not_hostOp (decode_bytes s.cfg.opcodes w) (decodeFrame_isHostOp _ w)
    exact Machine.step_call_refused hin hd

/-- Settles O7: the decoder run on each of the seven written words. -/
theorem wordsDecode : Obligations.WordsDecode := by
  unfold Obligations.WordsDecode
  refine ⟨?_, ?_, ?_, ?_, ?_, ?_, ?_⟩ <;> decide +kernel

end Sys2Proof

namespace Sys2Proof.Machine

/-! ## Arguments that do not fit (R86, R89) -/

/-- A host operation with an argument too wide is refused, whatever the state (60_exceptions.md R286). -/
theorem exec_argWidth {i : Instr} (hi : i.isHostOp = true) (h : i.argsFit = false) (s : State) :
    exec i s = .refused .argWidth := by
  rw [exec_hostOp hi]
  exact State.call_argWidth h _ s

/-- Settles O11: one argument too wide makes the width check of each operation fail. -/
theorem argWidthRefused : Obligations.ArgWidthRefused := by
  unfold Obligations.ArgWidthRefused
  intro s a b c d e bm text
  refine ⟨fun h => exec_argWidth rfl ?_ s, fun h => exec_argWidth rfl ?_ s, fun h => exec_argWidth rfl ?_ s,
    fun h => exec_argWidth rfl ?_ s, fun h => exec_argWidth rfl ?_ s, fun h => exec_argWidth rfl ?_ s⟩ <;>
  · simp only [Instr.argsFit, fitsU8, fitsU16, Bool.and_eq_false_iff, decide_eq_false_iff_not]
    omega

end Sys2Proof.Machine

/-! # The frames of each operation (30_encoding.md R72, R80) -/

namespace Sys2Proof.Machine

/-! ## Primitives run alone -/

/-! ### A frame from any control lines -/

theorem Prim.frames_csFall {k : Ctl} (h : k.cs ≠ .low) : (Prim.drive .cs false).frames k = [.csFall] := if_neg h

/-- Assignments do nothing to the control lines. -/
theorem Ctl.run_assigns (k : Ctl) (as : List Assign) (ps : List Prim) : k.run (as.map .assign ++ ps) = k.run ps := by
  induction as with
  | nil => rfl
  | cons a as ih => simp [Ctl.run, Prim.fault, Prim.frames, Prim.ctl, ih]

/-- Bytes transmitted while `CS` is low are byte events qualified by `DC`, and leave the control lines alone. -/
theorem Ctl.run_transmits {k : Ctl} (h : k.cs = .low) (bs : List Byte) :
    k.run (bs.map .transmit) = ⟨bs.map fun b => byteEvent k.dc (some b), k, none⟩ := by
  induction bs with
  | nil => rfl
  | cons b bs ih => simp [Ctl.run, Prim.fault, Prim.frames, Prim.ctl, h, ih]

/-- A frame: `CS` falls unless it is low already, the bytes are sent, and `CS` rises (R72). -/
theorem Ctl.run_stream (k : Ctl) (bs : List Byte) :
    k.run (streamSteps (bs.map .transmit)) =
      ⟨(Prim.drive .cs false).frames k ++ (bs.map fun b => byteEvent k.dc (some b)) ++ [.csRise],
        { k with cs := .high }, none⟩ := by
  have hfall : k.run [.drive .cs false] = ⟨(Prim.drive .cs false).frames k, { k with cs := .low }, none⟩ := by
    simp [Ctl.run, Prim.fault, Prim.ctl, Ctl.drive]
  rw [streamSteps, Ctl.run_append, Ctl.run_append, hfall]
  simp only [Ran.next, Ctl.run_transmits]
  rfl

/-- `write_command`: a frame of one byte with `DC` driven low before it and high after it (41_framing.md R121). -/
theorem Ctl.run_writeCommand (k : Ctl) (b : Byte) :
    k.run (writeCommandSteps b) =
      ⟨(Prim.drive .cs false).frames k ++ [.cmd b, .csRise], ⟨.high, .high, k.rst⟩, none⟩ := by
  have hlow : k.run [.drive .dc false] = ⟨[], { k with dc := .low }, none⟩ := rfl
  rw [show writeCommandSteps b = [.drive .dc false] ++ (streamSteps ([b].map .transmit) ++ [.drive .dc true]) from rfl,
    Ctl.run_append, hlow]
  simp only [Ran.next, Ctl.run_append, Ctl.run_stream]
  simp [Ctl.run, Prim.fault, Prim.ctl, Prim.frames, Ctl.drive, byteEvent]

/-- `write_pixels`: a frame of the colour's two bytes, `n` times over (43_pixel.md R161). -/
theorem Ctl.run_pixels (k : Ctl) (c : Colour) (n : Nat) :
    k.run (writePixelsSteps c n) =
      ⟨(Prim.drive .cs false).frames k ++
          (List.replicate n [byteEvent k.dc (some (colourHi c)), byteEvent k.dc (some (colourLo c))]).flatten ++
          [.csRise],
        { k with cs := .high }, none⟩ := by
  have hsteps : writePixelsSteps c n = [Assign.hi (colourHi c), .lo (colourLo c)].map .assign ++
      streamSteps ((List.replicate n [colourHi c, colourLo c]).flatten.map .transmit) := by
    simp [writePixelsSteps, unpackSteps, pixelSteps]
  rw [hsteps, Ctl.run_assigns, Ctl.run_stream]
  simp

/-- A primitive whose list raises no fault, where no transfer can time out: it ends, and the bus carries the frames of
its list, which the receiver hears. -/
theorem State.issue_ends {s : State} (hs : s.Free) (ha : s.Aligned) (hu : s.Untimed) (i : Instr) {ps : List Prim}
    (hp : Ordinary ps) {fs : List FrameEvent} {k : Ctl} (hr : s.lines.ctl.run ps = ⟨fs, k, none⟩) :
    ∃ t es, s.issue i ps = .next t ∧ State.Ended s t ∧ State.Carried s t es ∧ State.Heard s t es ∧
      t.lines.cs = k.cs ∧ t.lines.dc = k.dc ∧ t.lines.rst = k.rst ∧ dropBitWaits (projFrom s.lines es) = fs := by
  obtain ⟨t, hx, hkept, ⟨es, hcarried, hheard, hframes⟩, hctl, hend⟩ := State.issue_spec hs ha hu i hp
  rw [hr] at hframes hctl hend
  obtain ⟨hfault, hop, hpc⟩ := hend
  exact ⟨t, es, hx, ⟨hfault, hop, hpc, hkept⟩, hcarried, hheard, congrArg Ctl.cs hctl, congrArg Ctl.dc hctl,
    congrArg Ctl.rst hctl, hframes⟩

/-! ### The statements -/

/-- Settles O30: the list is one command frame, whatever the control lines are before it. -/
theorem writeCommandSends : Obligations.WriteCommandSends := by
  unfold Obligations.WriteCommandSends
  intro s b hs ha hu
  obtain ⟨t, es, hx, hended, hcarried, hheard, hcs, hdc, hrst, hframes⟩ :=
    State.issue_ends hs ha hu (.writeCommand b) (.writeCommand b) (s.lines.ctl.run_writeCommand b)
  refine ⟨t, es, hx, hended, hcarried, hheard, hcs, hdc, hrst, fun hlow => ?_⟩
  rw [hframes, Prim.frames_csFall hlow]
  rfl

/-- Settles O31: the list is a frame of one byte, qualified by the level of `DC`. -/
theorem writeDataSends : Obligations.WriteDataSends := by
  unfold Obligations.WriteDataSends
  intro s b hs ha hu
  obtain ⟨t, es, hx, hended, hcarried, hheard, hcs, hdc, hrst, hframes⟩ :=
    State.issue_ends hs ha hu (.writeData b) (.writeData b) (s.lines.ctl.run_stream [b])
  refine ⟨t, es, hx, hended, hcarried, hheard, hcs, hdc, hrst, fun hlow hqual => ?_, fun hlow hqual => ?_⟩ <;>
  · rw [hframes, Prim.frames_csFall hlow, Lines.ctl, hqual]
    rfl

/-- `unpack`'s second byte is the colour's low byte (43_pixel.md R160). -/
theorem colourLo_eq_setWidth (c : Colour) : colourLo c = c.setWidth 8 := by
  have mask : ∀ n : Nat, n &&& 255 = n % 256 := fun n => Nat.and_two_pow_sub_one_eq_mod n 8
  apply BitVec.eq_of_toNat_eq
  simp [colourLo, mask]

/-- Settles O32: the list is one frame of pixels, each the colour's high byte and then its low one. -/
theorem writePixelsSends : Obligations.WritePixelsSends := by
  unfold Obligations.WritePixelsSends
  intro s c n hs ha hu hn
  have hexec : exec (.writePixels c n) s = s.issue (.writePixels c n) (writePixelsSteps c n) := if_neg (by omega)
  obtain ⟨t, es, hx, hended, hcarried, hheard, hcs, hdc, hrst, hframes⟩ :=
    State.issue_ends hs ha hu (.writePixels c n) (.writePixels c n) (s.lines.ctl.run_pixels c n)
  refine ⟨t, es, hexec.trans hx, hended, hcarried, hheard, hcs, hdc, hrst, fun hlow hqual => ?_⟩
  rw [hframes, Prim.frames_csFall hlow, Lines.ctl, hqual, colourLo_eq_setWidth]
  rfl

/-! ## Windows and pixels -/

/-- Settles O35: no coordinate is checked, so the list always plays its eleven frames. -/
theorem setWindowSends : Obligations.SetWindowSends := by
  unfold Obligations.SetWindowSends
  intro s x1 y1 x2 y2 hs ha hu hx1 hy1 hx2 hy2
  have hfit : (Instr.setWindow x1 y1 x2 y2).argsFit = true := by
    simp [Instr.argsFit, fitsU8, hx1, hy1, hx2, hy2]
  exact State.call_completes hs ha hu hfit (Ordinary.setWindow _ _ _ _ _) (Plays.setWindow _ _ _ _ _)

/-- The byte view drops the bit waits too (R80). -/
@[simp] theorem byteView_dropBitWaits (fs : List FrameEvent) : byteView (dropBitWaits fs) = byteView fs := by
  rw [byteView, dropBitWaits, List.filter_filter]
  refine List.filter_congr fun e _ => ?_
  cases e <;> rfl

theorem byteView_append (fs gs : List FrameEvent) : byteView (fs ++ gs) = byteView fs ++ byteView gs :=
  List.filter_append ..

/-- The eleven bytes of `set_window` (42_window.md R140). -/
theorem byteView_windowFrames (o : Opcodes) (x1 y1 x2 y2 : Byte) :
    byteView (windowFrames o x1 y1 x2 y2) =
      [.cmd o.caset, .dat 0, .dat x1, .dat 0, .dat x2, .cmd o.raset, .dat 0, .dat y1, .dat 0, .dat y2, .cmd o.ramwr] :=
  rfl

/-- The bytes of a stream frame (43_pixel.md R161). -/
theorem byteView_streamFrame (c : Colour) (n : Nat) :
    byteView (streamFrame c n) = (List.replicate n [FrameEvent.dat (colourHi c), .dat (colourLo c)]).flatten := by
  simp [byteView, streamFrame, List.filter_flatten, List.filter_cons, FrameEvent.isByte]

/-- Frames sent, seen as bytes. -/
theorem State.Sent.byteView {s t : State} {fs : List FrameEvent} (h : State.Sent s t fs) :
    ∃ es, State.Carried s t es ∧ Machine.byteView (projFrom s.lines es) = Machine.byteView fs := by
  obtain ⟨es, hcarried, -, rfl⟩ := h
  exact ⟨es, hcarried, (byteView_dropBitWaits _).symm⟩

theorem u8_ne_last {x : Nat} (h : x < 255) : u8 x ≠ 255 := fun e =>
  h.ne ((u8_toNat (by omega)).symm.trans (congrArg BitVec.toNat e))

theorem u8_succ (x : Nat) : u8 (x + 1) = u8 x + 1 := BitVec.ofNat_add x 1

/-- Settles O42: both operations program the same window, and the fill's four pixels begin with the pixel's one. -/
theorem pixelIsAFillCutShort : Obligations.PixelIsAFillCutShort := by
  unfold Obligations.PixelIsAFillCutShort
  intro s x y colour hs ha hu hx hy hcolour
  have hfitP : (Instr.drawPixel x y colour).argsFit = true := by
    simp [Instr.argsFit, fitsU8, fitsU16, hcolour]; omega
  have hfitF : (Instr.fillRectangle x y (x + 1) (y + 1) colour).argsFit = true := by
    simp [Instr.argsFit, fitsU8, fitsU16, hcolour]; omega
  obtain ⟨t, ht, -, hsentP⟩ := State.call_completes hs ha hu hfitP (Ordinary.drawPixel _ _ _ _)
    (Plays.drawPixel s.cfg (u16 colour) (u8_ne_last hx) (u8_ne_last hy))
  obtain ⟨u, hu, -, hsentF⟩ := State.call_completes hs ha hu hfitF (Ordinary.fillRectangle _ _ _ _ _ _)
    (Plays.fillRectangle s.cfg (u16 colour) (u8_le (Nat.le_succ x) (by omega)) (u8_le (Nat.le_succ y) (by omega)))
  obtain ⟨es, hcarriedP, hviewP⟩ := hsentP.byteView
  obtain ⟨fs, hcarriedF, hviewF⟩ := hsentF.byteView
  have hcount : ((u8 (x + 1)).toNat - (u8 x).toNat + 1) * ((u8 (y + 1)).toNat - (u8 y).toNat + 1) = 4 := by
    rw [u8_toNat (by omega), u8_toNat (by omega), u8_toNat (by omega), u8_toNat (by omega), Nat.add_sub_cancel_left,
      Nat.add_sub_cancel_left]
  rw [fillFrames, hcount] at hviewF
  refine ⟨t, u, es, fs, ht, hu, hcarriedP, hcarriedF, ?_⟩
  rw [hviewP, hviewF, pixelFrames, byteView_append, byteView_append, byteView_append, u8_succ, u8_succ,
    byteView_windowFrames, byteView_streamFrame]
  exact ⟨rfl, rfl, rfl⟩

end Sys2Proof.Machine

/-! # Painted frames: bitmaps, characters and texts, and chip-select at the receiver -/

namespace Sys2Proof.Machine

/-! ## Scripts without a fault (30_encoding.md R83 to R85) -/

theorem Clean.nil : Clean [] [] := ⟨rfl, rfl⟩

theorem Clean.ok (fs : List FrameEvent) : Clean [.ok fs] fs := ⟨rfl, List.append_nil fs⟩

theorem Clean.map {α : Type} {l : List α} {f : α → Part} {g : α → List FrameEvent}
    (h : ∀ a ∈ l, Clean [f a] (g a)) : Clean (l.map f) (l.flatMap g) := by
  rw [List.map_eq_flatMap]
  exact .flatMap h

/-- A host operation that follows a script without a fault completes and sends the script's frames. -/
theorem State.call_clean {s : State} (hs : s.Ready) (ha : s.Aligned) (hu : s.Untimed) {i : Instr}
    (hi : i.argsFit = true) {ps : List Prim} (hp : Ordinary ps) {sc : List Part} (hr : Follows ps sc)
    {fs : List FrameEvent} (hc : Clean sc fs) :
    ∃ t, s.call i ps = .next t ∧ State.Completed s t ∧ State.Sent s t fs := by
  obtain ⟨hfault, rfl⟩ := hc
  obtain ⟨t, hx, -, -, hsent, hend⟩ := State.call_follows hs ha hu hi hp hr
  rw [hfault] at hend
  exact ⟨t, hx, hend, hsent⟩

/-! ### Blocks and cells -/

theorem coordFault_of_fits {v : Int} (h0 : 0 ≤ v) (h1 : v ≤ 255) : coordFault v = none := if_pos ⟨h0, h1⟩

/-- A block inside `0..255` sends its frames (43_pixel.md R167). -/
theorem Clean.block (o : Opcodes) {ox oy s : Nat} (c : Colour) (hs : 1 ≤ s) (hx : ox + s - 1 ≤ 255)
    (hy : oy + s - 1 ≤ 255) : Clean [blockPart o ox oy s c] (blockFrames o ox oy s c) := by
  have hpart : blockPart o ox oy s c = .ok (blockFrames o ox oy s c) := by
    rw [blockPart, coordFault_of_fits (v := ox) (by omega) (by omega),
      coordFault_of_fits (v := oy) (by omega) (by omega), coordFault_of_fits (v := ox + s - 1) (by omega) (by omega),
      coordFault_of_fits (v := oy + s - 1) (by omega) (by omega)]
    exact if_neg (by omega)
  rw [hpart]
  exact .ok _

/-- A glyph cell that fits sends its frames, one pixel's at size 1 and one block's otherwise (44_text.md R192). -/
theorem Clean.cell (o : Opcodes) {x y size i j : Nat} (c : Colour) (h : CellFits x y size i j) :
    Clean [cellPart o x y size i j c] (cellFrames o x y size i j c) := by
  unfold CellFits at h
  unfold cellPart cellFrames
  by_cases hs : size = 1
  · rw [if_pos hs] at h
    obtain ⟨hx, hy⟩ := h
    rw [if_pos hs, if_pos hs, coordFault_of_fits (v := x + i) (by omega) (by omega),
      coordFault_of_fits (v := y + j) (by omega) (by omega)]
    simp only [Option.orElse_none, pixelPart, u8_ne_last hx, u8_ne_last hy, or_self, if_false]
    exact .ok _
  · rw [if_neg hs] at h ⊢
    obtain ⟨h1, hx, hy⟩ := h
    rw [if_neg hs]
    exact .block o c h1 hx hy

/-! ### `draw_bitmap` -/

/-- The block of every source pixel, row by row, when each element is there and each block fits (R167). -/
theorem Clean.bitmap (o : Opcodes) {x y s : Nat} {w h : Colour} {body : List Colour}
    (hfit : ∀ i j, i < h.toNat → j < w.toNat → i * w.toNat + j < body.length ∧ 1 ≤ s ∧
      x + j * s + s - 1 ≤ 255 ∧ y + i * s + s - 1 ≤ 255) :
    Clean (bitmapScript o x y s (w :: h :: body)) (bitmapFrames o x y s w.toNat h.toNat body) := by
  refine .flatMap fun i hi => .map fun j hj => ?_
  obtain ⟨hlen, hs, hx, hy⟩ := hfit i j (List.mem_range.1 hi) (List.mem_range.1 hj)
  have helem : (w :: h :: body)[2 + i * w.toNat + j]? = some (body.getD (i * w.toNat + j) 0) := by
    rw [show 2 + i * w.toNat + j = i * w.toNat + j + 1 + 1 by omega, List.getElem?_cons_succ,
      List.getElem?_cons_succ, List.getElem?_eq_getElem hlen, List.getD_eq_getElem _ _ hlen]
  rw [helem]
  exact .block o _ hs hx hy

/-- Settles O44: the script of the bitmap meets no fault. -/
theorem drawBitmapSends : Obligations.DrawBitmapSends := by
  unfold Obligations.DrawBitmapSends
  intro s x y scale w h body hs ha hu hx hy hscale hfit
  have hargs : (Instr.drawBitmap x y scale (w :: h :: body)).argsFit = true := by
    simp [Instr.argsFit, fitsU8, hx, hy, hscale]
  refine State.call_clean hs ha hu hargs (Ordinary.drawBitmap _ _ _ _ _) (Follows.drawBitmap _ _ _ _ _) ?_
  rw [u8_toNat hx, u8_toNat hy, u8_toNat hscale]
  exact .bitmap _ hfit

/-! ### `draw_char` -/

/-- The cells of every set bit, columns outermost, when each fits (44_text.md R192, R193). -/
theorem Clean.char {c : Config} {x y size : Nat} {ch : Byte} (colour : Colour) (hg : HasGlyph c ch)
    (hfit : GlyphFits (fontGlyph c ch) x y size) :
    Clean (charScript c x y ch colour size) (glyphFrames c.opcodes (fontGlyph c ch) x y size colour) := by
  obtain ⟨hfirst, hlast⟩ := hg
  rw [charScript, if_neg (by omega)]
  refine .flatMap fun i hi => .flatMap fun j hj => ?_
  have hbyte : (fontGlyph c ch).getD i 0 = fontByte c ch i := by
    simp [fontGlyph, List.mem_range.1 hi]
  have hcell := hfit i j (List.mem_range.1 hi) (List.mem_range.1 hj)
  rw [hbyte] at hcell ⊢
  split
  · next hbit => exact .cell c.opcodes colour (hcell hbit)
  · exact .nil

/-- Settles O46: the script of the character meets no fault. -/
theorem drawCharSends : Obligations.DrawCharSends := by
  unfold Obligations.DrawCharSends
  intro s x y ch colour size hs ha hu hx hy hch hcolour hsize hfirst hlast hfit
  have hargs : (Instr.drawChar x y ch colour size).argsFit = true := by
    simp [Instr.argsFit, fitsU8, fitsU16, hx, hy, hch, hcolour, hsize]
  have hg : HasGlyph s.cfg (u8 ch) := by rw [HasGlyph, u8_toNat hch]; exact ⟨hfirst, hlast⟩
  refine State.call_clean hs ha hu hargs (Ordinary.drawChar _ _ _ _ _ _) (Follows.drawChar _ _ _ _ _ _) ?_
  rw [u8_toNat hx, u8_toNat hy, u8_toNat hsize]
  exact .char _ hg hfit

/-! ### `draw_string` -/

/-- From the `k`-th character on, the frames of each up to the terminator, when each has a glyph and fits
(44_text.md R195, R196). -/
theorem Clean.text {c : Config} {x y size : Nat} (colour : Colour) {chars : List Byte} (rest : List Byte) (k : Nat)
    (h : ∀ j ch, chars[j]? = some ch → ch ≠ 0 ∧ HasGlyph c ch ∧ x + (k + j) * size * 6 ≤ 255 ∧
      GlyphFits (fontGlyph c ch) (x + (k + j) * size * 6) y size) :
    Clean (textScript c x y colour size k (chars ++ 0 :: rest)) ((List.range chars.length).flatMap fun j =>
      glyphFrames c.opcodes (fontGlyph c (chars.getD j 0)) (x + (k + j) * size * 6) y size colour) := by
  induction chars generalizing k with
  | nil => exact .nil
  | cons ch chars ih =>
    obtain ⟨hne, hg, hx, hfit⟩ := h 0 ch rfl
    have hrest := ih (k + 1) fun j ch' hch' => by
      rw [Nat.add_right_comm, Nat.add_assoc]
      exact h (j + 1) ch' hch'
    rw [List.cons_append, textScript, if_neg hne,
      coordFault_of_fits (v := x + k * size * 6) (by positivity) (by exact_mod_cast hx)]
    rw [List.length_cons, List.range_succ_eq_map, List.flatMap_cons, List.flatMap_map]
    refine (Clean.char colour hg hfit).append ?_
    simpa only [Nat.add_right_comm k 1, Nat.add_assoc k, List.getD_cons_succ] using hrest

/-- Settles O48: the script of the text meets no fault before the terminator ends it. -/
theorem drawStringSends : Obligations.DrawStringSends := by
  unfold Obligations.DrawStringSends
  intro s x y colour size chars rest hs ha hu hx hy hcolour hsize hfit
  have hargs : (Instr.drawString x y colour size (chars ++ 0 :: rest)).argsFit = true := by
    simp [Instr.argsFit, fitsU8, fitsU16, hx, hy, hcolour, hsize]
  refine State.call_clean hs ha hu hargs (Ordinary.drawString _ _ _ _ _ _) (Follows.drawString _ _ _ _ _ _) ?_
  rw [u8_toNat hx, u8_toNat hy, u8_toNat hsize]
  simpa only [Nat.zero_add] using Clean.text (u16 colour) rest 0 (by simpa only [Nat.zero_add] using hfit)

/-! ## Chip-select and cut bytes at the receiver (30_encoding.md R79, 46_receiver.md R241) -/

/-- A defined receiver that hears a fall of `CS` keeps its bit count, an unknown one as 0 (log 18). -/
theorem Rx.hear_csFall {rx : Rx} (h : rx.undef = none) (c : Config) (lv : Lines) :
    rx.hear c lv (.drive .cs false) = { rx with nbits := some (rx.nbits.getD 0) } := by
  have hrecv : rx.receiveAll c ((rx.decoder lv).out (.drive .cs false)) = rx := by
    simp only [Decoder.out]
    split
    · rfl
    · exact Rx.receive_csFall c rx
  rw [Rx.hear_eq, hrecv]
  simp [Rx.keepSerial, h, Rx.withSerial, Rx.decoder, Decoder.next]

/-- A rise of `CS` between bytes sets the bit count to 0 and changes nothing else (R241, R257). -/
theorem Rx.hear_csRise {rx : Rx} (h : rx.undef = none) (c : Config) {lv : Lines} (hcs : lv.cs ≠ .high)
    (ha : rx.nbits.getD 0 = 0) : rx.hear c lv (.drive .cs true) = { rx with nbits := some 0 } := by
  have hout : (rx.decoder lv).out (.drive .cs true) = [.csRise] := by simp [Decoder.out, Rx.decoder, hcs, ha]
  rw [Rx.hear_eq, hout]
  simp [Rx.receive, Rx.keepSerial, h, Rx.withSerial, Rx.decoder, Decoder.next, hcs]

/-- A rise of `CS` after a part of a byte makes the receiver undefined (R241). -/
theorem Rx.hear_csRise_partial {rx : Rx} (h : rx.undef = none) (c : Config) {lv : Lines} (hcs : lv.cs ≠ .high)
    (ha : rx.nbits.getD 0 ≠ 0) : rx.hear c lv (.drive .cs true) = .undefined .partialByte := by
  have hout : (rx.decoder lv).out (.drive .cs true) = [.partialByte, .csRise] := by
    simp [Decoder.out, Rx.decoder, hcs, ha]
  have hrecv : rx.receive c .partialByte = .undefined .partialByte := by simp [Rx.receive, h]
  rw [Rx.hear_eq, hout, Rx.receiveAll_cons, hrecv, Rx.receiveAll_of_undef c _ rfl]
  rfl

/-- Settles O60: what the receiver makes of each event on its input, and hears of each drive of `CS`. -/
theorem chipSelectAndCutBytes : Obligations.ChipSelectAndCutBytes := by
  unfold Obligations.ChipSelectAndCutBytes
  intro s rest hdef
  have wire : ∀ {e rx}, s.rx.receive s.cfg e = rx → s.inbox = .wire e :: rest →
      step s = .next { s with inbox := rest, rx := rx } := by
    rintro e _ rfl hin
    exact step_wire hin
  refine ⟨wire ?_, wire ?_, wire (Rx.receive_csFall _ _), wire ?_, fun ha => ?_, Rx.hear_csRise hdef s.cfg,
    Rx.hear_csRise_partial hdef s.cfg⟩
  · simp [Rx.receive, hdef]
  · simp [Rx.receive, hdef]
  · simp [Rx.receive, hdef]
  · rw [State.emit_rx, Rx.hear_csFall hdef, ha]

end Sys2Proof.Machine

/-! # The byte transport (40_transport.md) -/

namespace Sys2Proof.Machine

/-- Settles O13: the arm of `transmit` looks at the transport first, and that of `write_pixels` at the count. -/
theorem primitivesOutOfRangeRefused : Obligations.PrimitivesOutOfRangeRefused := by
  unfold Obligations.PrimitivesOutOfRangeRefused
  intro s b c
  refine ⟨fun hm => ?_, fun hm => ?_, rfl⟩
  · simp only [exec, execTransmitHw, hm]
  · simp only [exec, execTransmitBitbang, hm]

/-! ### One byte in BITBANG (R102 to R104) -/

theorem bitEvents_length (tBit : Nat) (v : Bool) : (bitEvents tBit v).length = if 0 < tBit then 5 else 3 := by
  unfold bitEvents
  split <;> rfl

/-- Eight bits of three events, five with the bit wait (R103). -/
theorem bitbangEvents_length (tBit : Nat) (b : Byte) :
    (bitbangEvents tBit b).length = if 0 < tBit then 40 else 24 := by
  simp only [bitbangEvents, List.length_flatMap, bitEvents_length]
  split <;> rfl

/-- Settles O26: the one step of the list emits the byte's events and leaves the loop index at 0. -/
theorem bitbangTransmits : Obligations.BitbangTransmits := by
  unfold Obligations.BitbangTransmits
  rintro s b _ _ hfree hm rfl rfl
  have hexec : exec (.transmitBitbang b) s =
      .next ((s.start (.transmitBitbang b)).runSteps [.transmit b]).finish := by
    simp only [exec, execTransmitBitbang, hm]
    exact State.issue_free hfree _ _
  have hrun : (s.start (.transmitBitbang b)).runSteps [.transmit b] =
      (s.start (.transmitBitbang b)).transmitBitbang b := by
    rw [State.runSteps_singleton, State.prim, State.transmit, State.start_cfg, hm]
  rw [hrun, State.transmitBitbang, State.emitAll_eq, State.finish_of_no_fault (by exact hfree.1)] at hexec
  refine ⟨_, hexec, ⟨hfree.1, rfl, rfl, rfl, rfl, fun _ => ⟨rfl, rfl⟩⟩, ⟨rfl, rfl⟩, bitbangEvents_length s.cfg.tBit b,
    Lines.afterAll_bitbang s.lines s.cfg.tBit b, rfl, fun ha => ?_⟩
  obtain ⟨es, ⟨-, -, htrace, -⟩, hheard, -⟩ := exec_went (.inr rfl) ha hexec
  rwa [← List.append_cancel_left htrace] at hheard

/-! ### The transport chosen (R100, R105, R106) -/

/-- The configuration with BITBANG in place of its own transport (R105). -/
def Config.bitbanged (c : Config) : Config where
  toParams := { c.toParams with transport := .bitbang }
  lawful := c.lawful

/-- A configuration is its parameters. -/
theorem Config.ext_params {c d : Config} (h : c.toParams = d.toParams) : c = d := by
  cases c
  cases d
  cases h
  rfl

theorem textSteps_bitbanged (c : Config) (x y : Byte) (colour : Colour) (size : Byte) (text : List Byte) (k : Nat) :
    textSteps (Config.bitbanged c) x y colour size k text = textSteps c x y colour size k text := by
  induction text generalizing k with
  | nil => rfl
  | cons ch rest ih => simp only [textSteps, ih]; rfl

/-- An operation's step list does not depend on the transport. -/
theorem hostSteps_bitbanged (c : Config) (i : Instr) : hostSteps (Config.bitbanged c) i = hostSteps c i := by
  cases i
  case drawString => simp only [hostSteps, drawStringSteps, textSteps_bitbanged]
  all_goals rfl

/-- A host operation from idle lines, while no transfer can time out: the frames and the fault are those of its step
list. -/
theorem exec_hostOp_spec {i : Instr} {s : State} (hi : i.isHostOp = true) (hfit : i.argsFit = true) (hs : s.Ready)
    (ha : s.Aligned) (hu : s.Untimed) :
    ∃ t, exec i s = .next t ∧ State.Sent s t (Ctl.rest.run (hostSteps s.cfg i)).frames ∧
      t.fault.map FaultRecord.code = (Ctl.rest.run (hostSteps s.cfg i)).fault := by
  obtain ⟨t, hx, -, hsent, -, hend⟩ := State.call_spec hs ha hu hfit (Ordinary.hostSteps s.cfg i)
  refine ⟨t, by rw [exec_hostOp hi, hx], hsent, ?_⟩
  cases hf : (Ctl.rest.run (hostSteps s.cfg i)).fault with
  | none | some code =>
    rw [hf] at hend
    rw [hend.1]
    rfl

/-- Settles O54: both sides run the same step list, and either transport puts a byte on the bus as the same
frame event. -/
theorem transportsAgree : Obligations.TransportsAgree := by
  unfold Obligations.TransportsAgree
  intro i s u hi hfit hs hsa hsu hu hua hm hparams
  have hcfg : u.cfg = Config.bitbanged s.cfg := Config.ext_params hparams
  obtain ⟨t, hx, hsent, hfault⟩ := exec_hostOp_spec hi hfit hs hsa hsu
  obtain ⟨v, hx', hsent', hfault'⟩ := exec_hostOp_spec hi hfit hu hua (.inl hm)
  rw [hcfg, hostSteps_bitbanged] at hsent' hfault'
  exact ⟨t, v, _, hx, hx', hsent, hsent', hfault.trans hfault'.symm⟩

/-! ### A bound that no wait meets (R101, R107) -/

/-- A frame word does the same without the bound. -/
theorem exec_frameWord_loose {i : Instr} (hh : i.isHostOp = false) (hp : i.isPrimitive = false) (s : State) :
    ∃ u, exec i s = .next u ∧ exec i s.loose = .next u.loose := by
  cases i with
  | cmdSwreset | cmdSlpout | cmdColmod | cmdDispon | cmdCaset | cmdRaset | cmdRamwr => exact ⟨_, rfl, rfl⟩
  | data | cmdUnsupported => exact ⟨_, rfl, rfl⟩
  | init | setWindow | fillRectangle | drawPixel | drawBitmap | drawChar | drawString => cases hh
  | transmitHw | transmitBitbang | writeCommand | writeData | writePixels | glyph => cases hp

/-- A primitive that is not refused is an issue of its step list. -/
theorem exec_of_primitiveSteps {i : Instr} {s : State} {ps : List Prim} (h : primitiveSteps? s.cfg i = some ps) :
    exec i s = s.issue i ps := by
  cases i with
  | transmitHw b | transmitBitbang b =>
    simp only [primitiveSteps?] at h
    split at h <;> cases h
    rename_i hm
    simp only [exec, execTransmitHw, execTransmitBitbang, hm]
  | writePixels c n =>
    simp only [primitiveSteps?] at h
    split at h <;> cases h
    rename_i hn
    simp only [exec, execWritePixels, hn, if_false]
  | writeCommand | writeData | glyph => cases h; rfl
  | init | setWindow | fillRectangle | drawPixel | drawBitmap | drawChar | drawString => cases h
  | cmdSwreset | cmdSlpout | cmdColmod | cmdDispon | cmdCaset | cmdRaset | cmdRamwr => cases h
  | data | cmdUnsupported => cases h

/-- A call that without the bound uses schedule entries below it alone does the same with it. -/
theorem State.call_loose {i : Instr} {ps : List Prim} {s t : State} {n : Nat} {used : List Nat}
    (hn : s.cfg.txWaitBound = some n) (h : s.loose.call i ps = .next t) (hs : s.spi.sched = used ++ t.spi.sched)
    (hc : t.freeCtr = s.freeCtr) (hz : ∀ z ∈ used, z < n) : ∃ u, s.call i ps = .next u ∧ t = u.loose := by
  unfold State.call at h ⊢
  split at h
  · rename_i hfit
    simp only [hfit, if_true]
    cases hq : s.loose.issue i ps with
    | fault | refused => rw [hq] at h; cases h
    | next w =>
      rw [hq] at h
      cases h
      rw [(State.dropLocals_spi w).1] at hs
      rw [(State.dropLocals_spi w).2] at hc
      obtain ⟨u, hu, rfl⟩ := State.issue_loose hn hq hs hc hz
      exact ⟨_, by rw [hu], State.dropLocals_loose u⟩
  · cases h

/-- An instruction that without the bound uses schedule entries below it alone does the same with it. -/
theorem exec_loose {i : Instr} {s t : State} {n : Nat} {used : List Nat} (hn : s.cfg.txWaitBound = some n)
    (h : exec i s.loose = .next t) (hs : s.spi.sched = used ++ t.spi.sched) (hc : t.freeCtr = s.freeCtr)
    (hz : ∀ z ∈ used, z < n) : ∃ u, exec i s = .next u ∧ t = u.loose := by
  cases hh : i.isHostOp with
  | true =>
    rw [exec_hostOp hh, show s.loose.cfg = Config.unbounded s.cfg from rfl, hostSteps_unbounded] at h
    rw [exec_hostOp hh]
    exact State.call_loose hn h hs hc hz
  | false =>
    cases hp : i.isPrimitive with
    | true =>
      rcases exec_primitive hp s.loose with ⟨ps, hps, -, hx⟩ | ⟨r, hx⟩
      · have hps' : primitiveSteps? s.cfg i = some ps := by rw [← primitiveSteps_unbounded]; exact hps
        rw [hx] at h
        rw [exec_of_primitiveSteps hps']
        exact State.issue_loose hn h hs hc hz
      · rw [hx] at h
        cases h
    | false =>
      obtain ⟨u, hu, hul⟩ := exec_frameWord_loose hh hp s
      rw [hul] at h
      cases h
      exact ⟨u, hu, rfl⟩

/-- No instruction changes the parameters (10_state.md R30). -/
theorem exec_cfg {i : Instr} {s t : State} (h : exec i s = .next t) : t.cfg = s.cfg := by
  rcases exec_touches h with ⟨e, -, rfl⟩ | ⟨-, -, es, hcfg, -⟩
  · rfl
  · exact hcfg

/-- Settles O29: the run without the bound is the run with it, up to the parameters. -/
theorem boundUnmetChangesNothing : Obligations.BoundUnmetChangesNothing := by
  unfold Obligations.BoundUnmetChangesNothing
  intro i s t c n used hn hparams hx hsched hctr hused
  obtain rfl : c = Config.unbounded s.cfg := Config.ext_params hparams
  obtain ⟨u, hu, rfl⟩ := exec_loose hn hx hsched hctr hused
  rw [hu, ← exec_cfg hu]
  rfl

/-! ### A wait that times out (R101, R107) -/

/-- A transfer whose wait ends in `TX_TIMEOUT`: its byte is the last event and stays in flight, and the fault is raised
at the poll that meets the bound (R107, log 36). -/
theorem State.transmitHw_timedOut {b : Byte} {s : State} (h : timesOut s.cfg.txWaitBound s.nextZeros = true) :
    s.transmitHw b = { s.emit (.txByte b) with
      spi := { s.useZeros.spi with txbuf := some b, txdone := some false, inFlight := some b }
      freeCtr := s.useZeros.freeCtr
      locals := { s.locals with polls := some (pollsAtTimeout s.cfg.txWaitBound) }
      pc := s.pc + 1 + (pollsAtTimeout s.cfg.txWaitBound - 1)
      fault := some ⟨.txTimeout b, s.op, s.pc + 1 + (pollsAtTimeout s.cfg.txWaitBound - 1)⟩ } := by
  obtain ⟨cfg, lines, trace, op, pc, locals, fault, ⟨txbuf, txdone, inFlight, sched⟩, rx, inbox, ctr⟩ := s
  cases sched with
  | nil | cons z rest =>
    simp only [State.nextZeros] at h
    simp only [State.transmitHw, State.nextZeros, State.useZeros, State.advancePc_spi, State.writeTxbuf_spi, Spi.start,
      State.advancePc_freeCtr, State.writeTxbuf_freeCtr, h, if_true]
    rfl

/-- The next transfer's first `n` polls read 0, and `n` is the bound. -/
def State.Stalls (s : State) (n : Nat) : Prop :=
  s.cfg.transport = .hw ∧ s.cfg.txWaitBound = some n ∧ ∃ z rest, s.spi.sched = z :: rest ∧ n ≤ z

/-- A bound that is set is at least 1 (00_scope.md R8). -/
theorem Config.one_le_of_txWaitBound {c : Config} {n : Nat} (h : c.txWaitBound = some n) : 1 ≤ n := by
  obtain ⟨-, -, -, -, -, -, -, -, -, -, hbound⟩ := (laws_iff _).1 c.lawful
  simpa [h] using hbound

/-- Steps that drive lines. -/
def drivePrims (ds : List (Line × Bool)) : List Prim := ds.map fun d => .drive d.1 d.2

/-- The bus events of such steps. -/
def driveEvents (ds : List (Line × Bool)) : List BusEvent := ds.map fun d => .drive d.1 d.2

/-- What a step list has done when the transfer of `b` times out after the drives `ds`. -/
structure State.StoppedAt (s t : State) (ds : List (Line × Bool)) (b : Byte) (n : Nat) : Prop where
  carried : State.Carried s t (driveEvents ds ++ [.txByte b])
  kept : State.Kept s t
  op : t.op = s.op
  pc : t.pc = s.pc + ds.length + n
  fault : t.fault = some ⟨.txTimeout b, s.op, s.pc + ds.length + n⟩
  locals : t.locals = { s.locals with polls := some n }
  txdone : t.spi.txdone = some false

/-- A list stops at a transfer that times out. -/
theorem State.Stalls.transmit {s : State} {n : Nat} (h : s.Stalls n) (b : Byte) (ps : List Prim) :
    State.StoppedAt s (s.runSteps (.transmit b :: ps)) [] b n := by
  obtain ⟨hhw, hbound, z, rest, hsched, hz⟩ := h
  have hn := Config.one_le_of_txWaitBound hbound
  have hpolls : pollsAtTimeout s.cfg.txWaitBound = n := by
    rw [hbound]
    exact Nat.max_eq_left hn
  have htime : timesOut s.cfg.txWaitBound s.nextZeros = true := by
    simp only [State.nextZeros, hsched, hbound, timesOut, decide_eq_true_eq]
    omega
  have hpc : s.pc + 1 + (n - 1) = s.pc + n := by omega
  have hprim := State.transmitHw_timedOut (b := b) htime
  rw [hpolls, hpc] at hprim
  have hrun : s.runSteps (.transmit b :: ps) = s.transmitHw b := by
    rw [State.runSteps_cons, State.prim, State.transmit, hhw]
    simp only [hprim, Option.isSome_some, if_true]
  rw [hrun, hprim]
  exact ⟨⟨rfl, rfl⟩, ⟨rfl, rfl, fun hm => by rw [hhw] at hm; cases hm⟩, rfl, rfl, rfl, rfl, rfl⟩

/-- The same after drives of lines, which raise no fault. -/
theorem State.Stalls.opening {s : State} {n : Nat} (h : s.Stalls n) (hf : s.fault = none) (ds : List (Line × Bool))
    (b : Byte) (ps : List Prim) :
    State.StoppedAt s (s.runSteps (drivePrims ds ++ .transmit b :: ps)) ds b n := by
  induction ds generalizing s with
  | nil => exact h.transmit b ps
  | cons d ds ih =>
    have hrun : s.runSteps (drivePrims (d :: ds) ++ .transmit b :: ps) =
        ((s.emit (.drive d.1 d.2)).advancePc 1).runSteps (drivePrims ds ++ .transmit b :: ps) := by
      rw [drivePrims, List.map_cons, List.cons_append, State.runSteps_cons, ← drivePrims]
      simp [State.prim, hf]
    obtain ⟨⟨htrace, hlines⟩, hkept, hop, hpc, hfault, hlocals, hdone⟩ :=
      ih (s := (s.emit (.drive d.1 d.2)).advancePc 1) h hf
    have hsum : s.pc + 1 + ds.length + n = s.pc + (d :: ds).length + n := by
      rw [List.length_cons]
      omega
    rw [State.advancePc_pc, State.emit_pc, hsum] at hpc hfault
    rw [hrun]
    exact ⟨⟨by rw [htrace]; simp [driveEvents], hlines⟩, hkept, hop, hpc, hfault, hlocals, hdone⟩

/-- A primitive whose list opens so is issued and stops at that transfer (60_exceptions.md R284). -/
theorem State.Stalls.issue {s : State} {n : Nat} (h : s.Stalls n) (hs : s.Free) (i : Instr) (ds : List (Line × Bool))
    (b : Byte) (ps : List Prim) :
    ∃ t, s.issue i (drivePrims ds ++ .transmit b :: ps) = .next t ∧
      State.StoppedAt (s.start i) t ds b n := by
  have hstop := (show (s.start i).Stalls n from h).opening hs.1 ds b ps
  refine ⟨_, State.issue_free hs i _, ?_⟩
  rwa [State.finish_of_fault (by rw [hstop.fault]; rfl)]

/-! ### The first byte of a primitive or operation -/

theorem exec_transmitHw_stalls {s : State} {n : Nat} (h : s.Stalls n) (hs : s.Free) (b : Byte) :
    ∃ t, exec (.transmitHw b) s = .next t ∧ State.StoppedAt (s.start (.transmitHw b)) t [] b n := by
  simp only [exec, execTransmitHw, h.1]
  exact h.issue hs _ [] b []

theorem exec_writeCommand_stalls {s : State} {n : Nat} (h : s.Stalls n) (hs : s.Free) (b : Byte) :
    ∃ t, exec (.writeCommand b) s = .next t ∧
      State.StoppedAt (s.start (.writeCommand b)) t [(.dc, false), (.cs, false)] b n :=
  h.issue hs _ [(.dc, false), (.cs, false)] b [.drive .cs true, .drive .dc true]

theorem exec_writeData_stalls {s : State} {n : Nat} (h : s.Stalls n) (hs : s.Free) (b : Byte) :
    ∃ t, exec (.writeData b) s = .next t ∧ State.StoppedAt (s.start (.writeData b)) t [(.cs, false)] b n :=
  h.issue hs _ [(.cs, false)] b [.drive .cs true]

/-- The colour is unpacked into the locals before the frame opens (43_pixel.md R161). -/
theorem exec_writePixels_stalls {s : State} {n : Nat} (h : s.Stalls n) (hs : s.Free) (c : Colour) {k : Nat}
    (hk : 1 ≤ k) : ∃ t, exec (.writePixels c k) s = .next t ∧
      State.StoppedAt (((s.start (.writePixels c k)).assign (.hi (colourHi c))).assign (.lo (colourLo c))) t
        [(.cs, false)] (colourHi c) n := by
  obtain ⟨j, rfl⟩ : ∃ j, k = j + 1 := ⟨k - 1, by omega⟩
  obtain ⟨ps, hps⟩ : ∃ ps, writePixelsSteps c (j + 1) = .assign (.hi (colourHi c)) :: .assign (.lo (colourLo c)) ::
      (drivePrims [(.cs, false)] ++ .transmit (colourHi c) :: ps) := ⟨_, rfl⟩
  have hstop := State.Stalls.opening
    (s := ((s.start (.writePixels c (j + 1))).assign (.hi (colourHi c))).assign (.lo (colourLo c))) h hs.1
    [(.cs, false)] (colourHi c) ps
  refine ⟨_, (exec_of_primitiveSteps (ps := writePixelsSteps c (j + 1)) rfl).trans (State.issue_free hs _ _), ?_⟩
  rw [hps, State.runSteps_assign (s := s.start _) hs.1, State.runSteps_assign (s := (s.start _).assign _) hs.1]
  rwa [State.finish_of_fault (by rw [hstop.fault]; rfl)]

/-- `set_window` from idle lines begins with the command byte of `CASET` (42_window.md R140). -/
theorem exec_setWindow_stalls {s : State} {n : Nat} (h : s.Stalls n) (hs : s.Ready) {x1 y1 x2 y2 : Nat}
    (hfit : (Instr.setWindow x1 y1 x2 y2).argsFit = true) :
    ∃ t, exec (.setWindow x1 y1 x2 y2) s = .next t ∧
      State.StoppedAt (s.start (.setWindow x1 y1 x2 y2)) t [(.dc, false), (.cs, false)] s.cfg.opcodes.caset n := by
  obtain ⟨ps, hps⟩ : ∃ ps, setWindowSteps s.cfg (u8 x1) (u8 y1) (u8 x2) (u8 y2) = [.checkIdle] ++
      (drivePrims [(.dc, false), (.cs, false)] ++ .transmit s.cfg.opcodes.caset :: ps) :=
    ⟨_, rfl⟩
  have hstop := State.Stalls.opening (s := s.start (.setWindow x1 y1 x2 y2)) h hs.1.1 [(.dc, false), (.cs, false)]
    s.cfg.opcodes.caset ps
  refine ⟨_, State.call_of_fault hs.1 hfit ?_ (by rw [hstop.fault]; rfl), hstop⟩
  rw [hps, State.runSteps_checkIdle (s := s.start _) hs.2 hs.1.1]

/-! ### Where a list stops -/

/-- A list that ends in a fault stopped at one of its steps, every step before it having raised none (R282). -/
theorem State.runSteps_stops {ps : List Prim} {s : State} (hf : s.fault = none)
    (h : (s.runSteps ps).fault ≠ none) :
    ∃ before p after, ps = before ++ p :: after ∧ (s.runSteps before).fault = none ∧
      s.runSteps ps = (s.runSteps before).prim p := by
  induction ps generalizing s with
  | nil => exact (h hf).elim
  | cons p ps ih =>
    rw [State.runSteps_cons] at h ⊢
    by_cases hp : (s.prim p).fault.isSome = true
    · rw [if_pos hp]
      exact ⟨[], p, ps, rfl, hf, rfl⟩
    · rw [if_neg hp] at h ⊢
      have hp' : (s.prim p).fault = none := by simpa using hp
      obtain ⟨before, q, after, rfl, hbefore, hrun⟩ := ih hp' h
      have hcons : s.runSteps (p :: before) = (s.prim p).runSteps before := by rw [State.runSteps_cons, if_neg hp]
      exact ⟨p :: before, q, after, rfl, by rw [hcons]; exact hbefore, by rw [hcons]; exact hrun⟩

/-- A step that raises `TX_TIMEOUT` is a transfer of the byte, or raises that code itself. -/
theorem State.prim_txTimeout {p : Prim} {s : State} {r : FaultRecord} {b : Byte} (hf : s.fault = none)
    (h : (s.prim p).fault = some r) (hr : r.code = .txTimeout b) :
    p = .raise (.txTimeout b) ∨ p = .transmit b ∧ s.cfg.transport = .hw ∧ s.cfg.txWaitBound ≠ none ∧
      (s.transmit b).spi.txbuf = some b ∧ (s.transmit b).spi.txdone = some false := by
  cases p with
  | drive l v => simp [State.prim, hf] at h
  | delay d => simp [State.prim, hf] at h
  | assign a => simp [State.prim, hf] at h
  | raise code =>
    cases h
    exact .inl (congrArg Prim.raise hr)
  | checkIdle =>
    by_cases hi : s.lines.idle = true
    · rw [State.prim_checkIdle_of_idle hi, hf] at h
      cases h
    · rw [State.prim_checkIdle_of_not_idle hi] at h
      cases h
      cases hr
  | transmit d =>
    obtain ⟨spi, ctr, locals, pc, fault, he, hbit, hhw⟩ := s.transmit_spec d
    have hfault : fault = some r := by
      rw [State.prim, he] at h
      exact h
    right
    cases hm : s.cfg.transport with
    | bitbang =>
      obtain ⟨-, -, -, hsame, -⟩ := hbit hm
      rw [hsame, hf] at hfault
      cases hfault
    | hw =>
      obtain ⟨-, htxbuf, ⟨hsame, -⟩ | ⟨htimeout, htxdone, hbound⟩⟩ := hhw hm
      · rw [hsame, hf] at hfault
        cases hfault
      · rw [htimeout] at hfault
        cases hfault
        cases hr
        rw [he]
        exact ⟨rfl, rfl, hbound, htxbuf, htxdone⟩

/-- The control lines after a list that raises no fault. -/
def Ctl.after (k : Ctl) (ps : List Prim) : Ctl := ps.foldl (fun k p => p.ctl k) k

/-- A step moves the control lines as it says. -/
theorem State.prim_ctl (p : Prim) (s : State) : (s.prim p).lines.ctl = p.ctl s.lines.ctl := by
  obtain ⟨⟨-, -, -, hlines, -⟩, -⟩ := s.prim_emits p
  rw [hlines]
  cases p with
  | drive l v => cases l <;> rfl
  | transmit b => exact (byteEvents_spec s.cfg s.lines b).2.2
  | delay | checkIdle | raise | assign => rfl

theorem State.runSteps_ctl {ps : List Prim} {s : State} (h : (s.runSteps ps).fault = none) :
    (s.runSteps ps).lines.ctl = s.lines.ctl.after ps := by
  induction ps generalizing s with
  | nil => rfl
  | cons p ps ih =>
    rw [State.runSteps_cons] at h ⊢
    by_cases hp : (s.prim p).fault.isSome = true
    · rw [if_pos hp] at h
      simp [h] at hp
    · rw [if_neg hp] at h ⊢
      rw [ih h, State.prim_ctl]
      rfl

/-- A byte is sent with `CS` low. -/
def Prim.Framed (k : Ctl) : Prim → Prop
  | .transmit _ => k.cs = .low
  | .drive _ _ | .delay _ | .checkIdle | .raise _ | .assign _ => True

/-- From control lines at `k`, a list sends its bytes with `CS` low. -/
def Ctl.Framed : Ctl → List Prim → Prop
  | _, [] => True
  | k, p :: ps => p.Framed k ∧ (p.ctl k).Framed ps

theorem Ctl.framed_append (k : Ctl) (ps qs : List Prim) :
    k.Framed (ps ++ qs) ↔ k.Framed ps ∧ (k.after ps).Framed qs := by
  induction ps generalizing k with
  | nil => exact (iff_of_eq (true_and _)).symm
  | cons p ps ih =>
    simp only [List.cons_append, Ctl.Framed, ih, and_assoc]
    rfl

/-- No step of a list raises `TX_TIMEOUT` itself. -/
def RaisesNoTimeout (ps : List Prim) : Prop := ∀ b, Prim.raise (.txTimeout b) ∉ ps

/-- A list that ends in `TX_TIMEOUT` stopped at the transfer of that byte. -/
theorem State.runSteps_txTimeout {ps : List Prim} {s : State} {r : FaultRecord} {b : Byte} (hf : s.fault = none)
    (hps : RaisesNoTimeout ps) (h : (s.runSteps ps).fault = some r) (hr : r.code = .txTimeout b) :
    s.cfg.transport = .hw ∧ s.cfg.txWaitBound ≠ none ∧ (s.runSteps ps).spi.txbuf = some b ∧
      (s.runSteps ps).spi.txdone = some false ∧ (∃ es, State.Emits s (s.runSteps ps) (es ++ [.txByte b])) ∧
      (s.lines.ctl.Framed ps → (s.runSteps ps).lines.cs = .low) := by
  have hne : (s.runSteps ps).fault ≠ none := by simp [h]
  obtain ⟨before, p, after, rfl, hbefore, hrun⟩ := State.runSteps_stops hf hne
  rw [hrun] at h ⊢
  obtain ⟨qs, -, hemits, -, -⟩ := s.runSteps_emits before
  have hcfg : (s.runSteps before).cfg = s.cfg := hemits.1
  rcases State.prim_txTimeout hbefore h hr with rfl | ⟨rfl, hhw, hbound, htxbuf, htxdone⟩
  · exact (hps b (by simp)).elim
  · rw [hcfg] at hhw hbound
    obtain ⟨hlast, -⟩ := (s.runSteps before).prim_emits (.transmit b)
    simp only [Prim.emits, byteEvents, hcfg, hhw] at hlast
    refine ⟨hhw, hbound, htxbuf, htxdone, ⟨_, hemits.trans hlast⟩, fun hframed => ?_⟩
    obtain ⟨-, hcs, -⟩ := (s.lines.ctl.framed_append before _).1 hframed
    rw [← State.runSteps_ctl hbefore] at hcs
    exact (congrArg Ctl.cs (State.prim_ctl (.transmit b) (s.runSteps before))).trans hcs

/-! ### The pieces every step list is made of -/

/-- A byte of a stream frame, or an assignment between two. -/
def Prim.InStream : Prim → Prop
  | .transmit _ | .assign _ => True
  | .drive _ _ | .delay _ | .checkIdle | .raise _ => False

/-- A property that holds of the pieces the operations' lists are put together from, and of one list after another. -/
structure Pieces (P : List Prim → Prop) : Prop where
  nil : P []
  append : ∀ {ps qs}, P ps → P qs → P (ps ++ qs)
  check : P [.checkIdle]
  assign : ∀ a, P [.assign a]
  raise : ∀ {code}, (∀ b, code ≠ .txTimeout b) → P [.raise code]
  reset : ∀ v, P [.drive .rst v]
  delay : ∀ d, P [.delay d]
  command : ∀ b, P (writeCommandSteps b)
  data : ∀ b, P (writeDataSteps b)
  stream : ∀ {bytes}, (∀ p ∈ bytes, p.InStream) → P (streamSteps bytes)

theorem coord_ne_txTimeout (v : Int) (b : Byte) : coord v ≠ .error (.txTimeout b) := by
  unfold coord
  split <;> simp

theorem glyphOf_ne_txTimeout (c : Config) (ch b : Byte) : glyphOf c ch ≠ .error (.txTimeout b) := by
  by_cases h : HasGlyph c ch
  · simp [glyphOf_ok h]
  · simp [glyphOf_error h]

theorem bind_ne_error {α β : Type} {v : Except FaultCode α} {f : α → Except FaultCode β} {code : FaultCode}
    (hv : v ≠ .error code) (hf : ∀ a, f a ≠ .error code) : v >>= f ≠ .error code := by
  cases v with
  | error e => exact fun h => hv (congrArg Except.error (Except.error.inj h))
  | ok a => exact hf a

theorem blockCorners_ne_txTimeout (ox oy s : Int) (b : Byte) : blockCorners ox oy s ≠ .error (.txTimeout b) :=
  bind_ne_error (coord_ne_txTimeout _ b) fun _ => bind_ne_error (coord_ne_txTimeout _ b) fun _ =>
    bind_ne_error (coord_ne_txTimeout _ b) fun _ => bind_ne_error (coord_ne_txTimeout _ b) fun _ => nofun

namespace Pieces

variable {P : List Prim → Prop} (h : Pieces P)
include h

theorem flatMap {α : Type} {l : List α} {f : α → List Prim} (hf : ∀ a, P (f a)) : P (l.flatMap f) := by
  induction l with
  | nil => exact h.nil
  | cons a l ih => exact h.append (hf a) ih

theorem assigns (as : List Assign) : P (as.map .assign) := by
  induction as with
  | nil => exact h.nil
  | cons a as ih => exact h.append (h.assign a) ih

theorem orRaise {α : Type} {v : Except FaultCode α} {f : α → List Prim} (hv : ∀ b, v ≠ .error (.txTimeout b))
    (hf : ∀ a, P (f a)) : P (Sys2Proof.Machine.orRaise v f) := by
  cases v with
  | ok a => exact hf a
  | error code => exact h.raise fun b hb => hv b (congrArg Except.error hb)

theorem writePixels (c : Colour) (n : Nat) : P (writePixelsSteps c n) := by
  refine h.append (h.assigns [.hi _, .lo _]) (h.stream fun p hp => ?_)
  obtain ⟨l, hl, hp⟩ := List.mem_flatten.1 hp
  rw [(List.mem_replicate.1 hl).2, pixelSteps] at hp
  rcases List.mem_pair.1 hp with rfl | rfl <;> trivial

theorem address (cmd a b : Byte) : P (addressSteps cmd a b) :=
  h.append (h.append (h.append (h.append (h.command cmd) (h.data 0)) (h.data a)) (h.data 0)) (h.data b)

theorem setWindow (c : Config) (x1 y1 x2 y2 : Byte) : P (setWindowSteps c x1 y1 x2 y2) :=
  h.append (h.append (h.append h.check (h.address _ _ _)) (h.address _ _ _)) (h.command _)

theorem rectangle (x1 y1 x2 y2 : Byte) (colour : Colour) : P (streamSteps (rectangleSteps x1 y1 x2 y2 colour)) := by
  refine h.stream fun p hp => ?_
  simp only [rectangleSteps, pixelSteps, List.mem_flatMap, List.mem_append, List.mem_cons, List.not_mem_nil,
    or_false] at hp
  obtain ⟨r, -, rfl | ⟨q, -, rfl | rfl | rfl⟩⟩ := hp <;> trivial

theorem fillRectangle (c : Config) (x1 y1 x2 y2 : Byte) (colour : Colour) :
    P (fillRectangleSteps c x1 y1 x2 y2 colour) := by
  unfold fillRectangleSteps
  refine h.append h.check ?_
  split
  · exact h.raise nofun
  · exact h.append (h.setWindow _ _ _ _ _) (h.append (h.assigns [.hi _, .lo _]) (h.rectangle _ _ _ _ _))

theorem drawPixel (c : Config) (x y : Byte) (colour : Colour) : P (drawPixelSteps c x y colour) :=
  h.append h.check (h.orRaise (coord_ne_txTimeout _) fun _ => h.append (h.assign _)
    (h.orRaise (coord_ne_txTimeout _) fun _ => h.append (h.assign _) (h.append (h.setWindow _ _ _ _ _)
      (h.append (h.append (h.assigns [.hi _, .lo _]) (h.data _)) (h.data _)))))

theorem block (c : Config) (ox oy s : Int) (colour : Colour) : P (blockSteps c ox oy s colour) :=
  h.append (h.assigns [.ox _, .oy _])
    (h.orRaise (blockCorners_ne_txTimeout _ _ _) fun _ => h.fillRectangle _ _ _ _ _ _)

theorem sourcePixel (c : Config) (x y scale width : Nat) (bitmap : List Colour) (i j : Nat) :
    P (sourcePixelSteps c x y scale width bitmap i j) := by
  unfold sourcePixelSteps
  split
  · exact h.append (h.assign _) (h.block _ _ _ _ _)
  · exact h.raise nofun

theorem drawBitmap (c : Config) (x y scale : Byte) (bitmap : List Colour) :
    P (drawBitmapSteps c x y scale bitmap) := by
  unfold drawBitmapSteps
  refine h.append h.check ?_
  split
  · exact h.append (h.assigns [.hdr _, .w _, .h _]) (h.flatMap fun i => h.append (h.assign _)
      (h.flatMap fun j => h.append (h.assign _) (h.sourcePixel _ _ _ _ _ _ _ _)))
  · exact h.raise nofun

theorem paint (c : Config) (x y size : Nat) (colour : Colour) (i j : Nat) :
    P (paintSteps c x y size colour i j) := by
  unfold paintSteps
  split
  · exact h.orRaise (coord_ne_txTimeout _) fun _ => h.orRaise (coord_ne_txTimeout _) fun _ => h.drawPixel _ _ _ _
  · exact h.block _ _ _ _ _

theorem glyphRow (c : Config) (x y size : Nat) (colour : Colour) (i : Nat) (b : Byte) (j : Nat) :
    P (glyphRowSteps c x y size colour i b j) := by
  refine h.append (h.append (h.assign _) ?_) (h.assign _)
  split
  · exact h.paint _ _ _ _ _ _ _
  · exact h.nil

theorem drawChar (c : Config) (x y ch : Byte) (colour : Colour) (size : Byte) :
    P (drawCharSteps c x y ch colour size) :=
  h.append h.check (h.orRaise (glyphOf_ne_txTimeout c ch) fun _ => h.append (h.assign _)
    (h.flatMap fun _ => h.append (h.assigns [.i _, .b _]) (h.flatMap fun _ => h.glyphRow _ _ _ _ _ _ _ _)))

theorem text (c : Config) (x y : Byte) (colour : Colour) (size : Byte) (k : Nat) (text : List Byte) :
    P (textSteps c x y colour size k text) := by
  induction text generalizing k with
  | nil => exact h.raise nofun
  | cons ch rest ih =>
    unfold textSteps
    refine h.append (h.assign _) ?_
    split
    · exact h.nil
    · exact h.append (h.orRaise (coord_ne_txTimeout _) fun _ => h.drawChar _ _ _ _ _ _)
        (h.append (h.assign _) (ih _))

theorem init (c : Config) : P (initSteps c) := by
  have hreset : P [.checkIdle, .drive .rst false, .delay .rstPulse, .drive .rst true, .delay .rstSettle] :=
    h.append h.check (h.append (h.reset _) (h.append (h.delay _) (h.append (h.reset _) (h.delay _))))
  unfold initSteps
  exact h.append (h.append (h.append (h.append (h.append (h.append (h.append hreset (h.command _)) (h.delay _))
    (h.command _)) (h.delay _)) (h.command _)) (h.data _)) (h.command _)

/-- The list of every host operation is made of the pieces. -/
theorem hostSteps (c : Config) (i : Instr) : P (Sys2Proof.Machine.hostSteps c i) := by
  cases i with
  | init => exact h.init c
  | setWindow => exact h.setWindow _ _ _ _ _
  | fillRectangle => exact h.fillRectangle _ _ _ _ _ _
  | drawPixel => exact h.drawPixel _ _ _ _
  | drawBitmap => exact h.drawBitmap _ _ _ _ _
  | drawChar => exact h.drawChar _ _ _ _ _ _
  | drawString => exact h.append (h.append h.check (h.assign _)) (h.text _ _ _ _ _ _ _)
  | cmdSwreset | cmdSlpout | cmdColmod | cmdDispon | cmdCaset | cmdRaset | cmdRamwr => exact h.nil
  | data | cmdUnsupported | transmitHw | transmitBitbang | writeCommand | writeData => exact h.nil
  | writePixels | glyph => exact h.nil

/-- So is that of every primitive but `transmit`. -/
theorem primitiveSteps {c : Config} {i : Instr} {ps : List Prim} (hps : primitiveSteps? c i = some ps)
    (hhw : ∀ b, i ≠ .transmitHw b) (hbit : ∀ b, i ≠ .transmitBitbang b) : P ps := by
  cases i with
  | transmitHw b => exact (hhw b rfl).elim
  | transmitBitbang b => exact (hbit b rfl).elim
  | writeCommand => cases hps; exact h.command _
  | writeData => cases hps; exact h.data _
  | writePixels c n =>
    simp only [primitiveSteps?] at hps
    split at hps <;> cases hps
    exact h.writePixels c n
  | glyph ch => cases hps; exact h.orRaise (glyphOf_ne_txTimeout c ch) fun _ => h.assign _
  | init | setWindow | fillRectangle | drawPixel | drawBitmap | drawChar | drawString => cases hps
  | cmdSwreset | cmdSlpout | cmdColmod | cmdDispon | cmdCaset | cmdRaset | cmdRamwr => cases hps
  | data | cmdUnsupported => cases hps

end Pieces

theorem Pieces.raisesNoTimeout : Pieces RaisesNoTimeout where
  nil := fun _ => List.not_mem_nil
  append := fun hp hq b hb => (List.mem_append.1 hb).elim (hp b) (hq b)
  check := by simp [RaisesNoTimeout]
  assign := by simp [RaisesNoTimeout]
  raise := fun hcode b hb => hcode b (Prim.raise.inj (List.mem_singleton.1 hb)).symm
  reset := by simp [RaisesNoTimeout]
  delay := by simp [RaisesNoTimeout]
  command := by simp [RaisesNoTimeout, writeCommandSteps]
  data := by simp [RaisesNoTimeout, writeDataSteps]
  stream := fun {bytes} hbytes b hb => by
    have hmem : Prim.raise (.txTimeout b) ∈ bytes := by simpa [streamSteps] using hb
    exact hbytes _ hmem

/-- The bytes of a stream frame keep `CS` low. -/
theorem Ctl.framed_inStream {k : Ctl} (hk : k.cs = .low) {bytes : List Prim} (h : ∀ p ∈ bytes, p.InStream) :
    k.Framed bytes := by
  induction bytes with
  | nil => trivial
  | cons p ps ih =>
    have ih := ih fun q hq => h q (by simp [hq])
    have hp := h p (by simp)
    cases p with
    | transmit b => exact ⟨hk, ih⟩
    | assign a => exact ⟨trivial, ih⟩
    | drive | delay | checkIdle | raise => exact hp.elim

theorem Pieces.framed : Pieces fun ps => ∀ k : Ctl, k.Framed ps where
  nil := fun _ => trivial
  append := fun hp hq k => (k.framed_append _ _).2 ⟨hp k, hq _⟩
  check := fun _ => ⟨trivial, trivial⟩
  assign := fun _ _ => ⟨trivial, trivial⟩
  raise := fun _ _ => ⟨trivial, trivial⟩
  reset := fun _ _ => ⟨trivial, trivial⟩
  delay := fun _ _ => ⟨trivial, trivial⟩
  command := fun _ _ => ⟨trivial, trivial, rfl, trivial, trivial, trivial⟩
  data := fun _ _ => ⟨trivial, rfl, trivial, trivial⟩
  stream := fun hbytes _ => by
    rw [streamSteps, Ctl.framed_append]
    exact ⟨⟨trivial, Ctl.framed_inStream rfl hbytes⟩, trivial, trivial⟩

/-- `transmit`'s list is the transfer of its byte, in the transport it is written for. -/
theorem primitiveSteps_transmit {c : Config} {b : Byte} {ps : List Prim} :
    (primitiveSteps? c (.transmitHw b) = some ps → ps = [.transmit b]) ∧
      (primitiveSteps? c (.transmitBitbang b) = some ps → ps = [.transmit b] ∧ c.transport = .bitbang) := by
  simp only [primitiveSteps?]
  cases c.transport with
  | hw => exact ⟨fun h => (Option.some.inj h).symm, nofun⟩
  | bitbang => exact ⟨nofun, fun h => ⟨(Option.some.inj h).symm, rfl⟩⟩

theorem raisesNoTimeout_transmit (b : Byte) : RaisesNoTimeout [.transmit b] := by simp [RaisesNoTimeout]

/-- The list an instruction runs raises no timeout of its own, and in HW sends every byte with `CS` low, unless it is
`transmit` run alone. -/
theorem exec_ran_framed {i : Instr} {c : Config} {ps : List Prim} (hi : i.isHostOp = true ∨ i.isPrimitive = true)
    (hhost : i.isHostOp = true → ps = hostSteps c i) (hprim : i.isPrimitive = true → primitiveSteps? c i = some ps) :
    RaisesNoTimeout ps ∧ (c.transport = .hw → (∀ d, i ≠ .transmitHw d) → ∀ k : Ctl, k.Framed ps) := by
  rcases hi with hi | hi
  · rw [hhost hi]
    exact ⟨Pieces.raisesNoTimeout.hostSteps c i, fun _ _ => Pieces.framed.hostSteps c i⟩
  · have hps := hprim hi
    by_cases hhw : ∃ b, i = .transmitHw b
    · obtain ⟨b, rfl⟩ := hhw
      rw [primitiveSteps_transmit.1 hps]
      exact ⟨raisesNoTimeout_transmit b, fun _ hne => (hne b rfl).elim⟩
    · by_cases hbit : ∃ b, i = .transmitBitbang b
      · obtain ⟨b, rfl⟩ := hbit
        obtain ⟨rfl, hm⟩ := primitiveSteps_transmit.2 hps
        exact ⟨raisesNoTimeout_transmit b, fun hm' => by rw [hm] at hm'; cases hm'⟩
      · simp only [not_exists] at hhw hbit
        exact ⟨Pieces.raisesNoTimeout.primitiveSteps hps hhw hbit, fun _ _ => Pieces.framed.primitiveSteps hps hhw hbit⟩

/-- Settles O28: a stalled first transfer is followed through each list, and a list that ends in `TX_TIMEOUT` stopped
at a transfer, which lies inside a frame unless it is the whole list. -/
theorem transferTimesOut : Obligations.TransferTimesOut := by
  unfold Obligations.TransferTimesOut
  refine ⟨fun s n z rest hs hhw hbound hsched hz => ?_, fun i s t r b hi hx hr hcode => ?_⟩
  · have hstall : s.Stalls n := ⟨hhw, hbound, z, rest, hsched, hz⟩
    refine ⟨fun b => ?_, fun b => ?_, fun b => ?_, fun c k hk => ?_, fun x1 y1 x2 y2 hidle hx1 hy1 hx2 hy2 => ?_⟩
    · obtain ⟨t, hx, hstop⟩ := exec_transmitHw_stalls hstall hs b
      have hn : 0 + 0 + n = n := by omega
      exact ⟨t, hx, hstop.carried, hn ▸ hstop.fault, hstop.op, hn ▸ hstop.pc, hstop.locals, hstop.txdone, hstop.kept⟩
    · obtain ⟨t, hx, hstop⟩ := exec_writeCommand_stalls hstall hs b
      have hn : 0 + 2 + n = n + 2 := by omega
      have hlines := hstop.carried.2
      exact ⟨t, hx, hstop.carried, hn ▸ hstop.fault, hstop.locals, congrArg Lines.cs hlines, congrArg Lines.dc hlines⟩
    · obtain ⟨t, hx, hstop⟩ := exec_writeData_stalls hstall hs b
      have hn : 0 + 1 + n = n + 1 := by omega
      exact ⟨t, hx, hstop.carried, hn ▸ hstop.fault⟩
    · obtain ⟨t, hx, hstop⟩ := exec_writePixels_stalls hstall hs c hk
      have hn : 0 + 1 + n = n + 1 := by omega
      exact ⟨t, hx, hstop.carried, hn ▸ hstop.fault⟩
    · have hfit : (Instr.setWindow x1 y1 x2 y2).argsFit = true := by
        simp [Instr.argsFit, fitsU8, hx1, hy1, hx2, hy2]
      obtain ⟨t, hx, hstop⟩ := exec_setWindow_stalls hstall ⟨hs, hidle⟩ hfit
      have hn : 0 + 2 + n = n + 2 := by omega
      exact ⟨t, hx, hstop.carried, hn ▸ hstop.fault⟩
  · obtain ⟨hfree, ps, -, hhost, hprim, ht⟩ := exec_ran hi hx
    obtain ⟨hraise, hframed⟩ := exec_ran_framed hi (fun hh => (hhost hh).2) hprim
    obtain ⟨tfault, tspi, -, tlines, -⟩ := State.finish_parts ht
    rw [tfault] at hr
    obtain ⟨hhw, hbound, htxbuf, htxdone, ⟨es, hemits⟩, hcs⟩ :=
      State.runSteps_txTimeout (s := s.start i) hfree.1 hraise hr hcode
    obtain ⟨-, -, htrace, hlines, -⟩ := (show State.Emits s _ _ from hemits).of_finish ht
    rw [tspi, tlines]
    exact ⟨hhw, hbound, htxbuf, htxdone, ⟨es, htrace, tlines ▸ hlines⟩, fun hne => hcs (hframed hhw hne _)⟩

end Sys2Proof.Machine

/-! # Command and data framing (41_framing.md) -/

namespace Sys2Proof.Machine

/-! ## `DC` is stable within a frame (R125) -/

/-- The event drives `DC`. -/
def BusEvent.DrivesDc (e : BusEvent) : Prop := ∃ v, e = .drive .dc v

/-- From lines at `lv`, a run of events drives `DC` only where `CS` is not 0. -/
def Lines.DcStable : Lines → List BusEvent → Prop
  | _, [] => True
  | lv, e :: es => (e.DrivesDc → lv.cs ≠ .low) ∧ (lv.after e).DcStable es

theorem Lines.dcStable_append (lv : Lines) (es fs : List BusEvent) :
    lv.DcStable (es ++ fs) ↔ lv.DcStable es ∧ (lv.afterAll es).DcStable fs := by
  induction es generalizing lv with
  | nil => exact (iff_of_eq (true_and _)).symm
  | cons e es ih => simp only [List.cons_append, Lines.DcStable, ih, Lines.afterAll_cons, and_assoc]

theorem Lines.dcStable_of_no_dc {es : List BusEvent} (h : ∀ e ∈ es, ¬e.DrivesDc) (lv : Lines) : lv.DcStable es := by
  induction es generalizing lv with
  | nil => trivial
  | cons e es ih =>
    obtain ⟨he, hes⟩ := List.forall_mem_cons.1 h
    exact ⟨fun hdc => (he hdc).elim, ih hes _⟩

/-- What a stable run says of each `Drive(DC, v)` in it. -/
theorem Lines.DcStable.cs_ne_low {lv : Lines} {before after : List BusEvent} {v : Bool}
    (h : lv.DcStable (before ++ .drive .dc v :: after)) : (lv.afterAll before).cs ≠ .low := by
  obtain ⟨-, hdrive, -⟩ := (lv.dcStable_append before _).1 h
  exact hdrive ⟨v, rfl⟩

/-- In either transport a byte is sent over the serial side alone (40_transport.md R101, R102). -/
theorem byteEvents_no_dc (c : Config) (b : Byte) : ∀ e ∈ byteEvents c b, ¬e.DrivesDc := by
  rintro _ he ⟨v, rfl⟩
  unfold byteEvents at he
  cases hm : c.transport with
  | hw => simp [hm] at he
  | bitbang =>
    simp only [hm, bitbangEvents, bitEvents] at he
    split at he <;> simp at he

theorem Prim.InStream.no_dc {p : Prim} (h : p.InStream) (c : Config) : ∀ e ∈ p.emits c, ¬e.DrivesDc := by
  cases p with
  | transmit b => exact byteEvents_no_dc c b
  | assign a => exact fun _ he => (List.not_mem_nil he).elim
  | drive | delay | checkIdle | raise => exact h.elim

/-- From any lines with `CS` not 0, a step list drives `DC` only where `CS` is not 0, and leaves `CS` so. -/
def DcOutsideFrames (c : Config) (ps : List Prim) : Prop :=
  ∀ lv : Lines, lv.cs ≠ .low →
    lv.DcStable (ps.flatMap (Prim.emits c)) ∧ (lv.afterAll (ps.flatMap (Prim.emits c))).cs ≠ .low

theorem DcOutsideFrames.append {c : Config} {ps qs : List Prim} (hp : DcOutsideFrames c ps)
    (hq : DcOutsideFrames c qs) : DcOutsideFrames c (ps ++ qs) := by
  intro lv hcs
  obtain ⟨hstable, hcs⟩ := hp lv hcs
  obtain ⟨hstable', hcs'⟩ := hq _ hcs
  rw [List.flatMap_append, Lines.dcStable_append, Lines.afterAll_append]
  exact ⟨⟨hstable, hstable'⟩, hcs'⟩

theorem DcOutsideFrames.silent {c : Config} {p : Prim} (h : p.emits c = []) : DcOutsideFrames c [p] := by
  intro lv hcs
  rw [List.flatMap_singleton, h]
  exact ⟨trivial, hcs⟩

/-- One event that leaves `CS` as it is, a `Drive(DC, v)` too. -/
theorem DcOutsideFrames.event {c : Config} {p : Prim} {e : BusEvent} (h : p.emits c = [e])
    (he : ∀ lv : Lines, (lv.after e).cs = lv.cs) : DcOutsideFrames c [p] := by
  intro lv hcs
  rw [List.flatMap_singleton, h]
  exact ⟨⟨fun _ => hcs, trivial⟩, (he lv).symm ▸ hcs⟩

/-- A frame of bytes drives no `DC`, and `CS` is 1 at its end (43_pixel.md R161). -/
theorem DcOutsideFrames.stream (c : Config) {bytes : List Prim} (h : ∀ p ∈ bytes, p.InStream) :
    DcOutsideFrames c (streamSteps bytes) := by
  intro lv _
  have hbytes : ∀ e ∈ bytes.flatMap (Prim.emits c), ¬e.DrivesDc := by
    intro e he
    obtain ⟨p, hp, he⟩ := List.mem_flatMap.1 he
    exact (h p hp).no_dc c e he
  simp only [streamSteps, List.flatMap_append, Lines.dcStable_append, Lines.afterAll_append]
  exact ⟨⟨⟨⟨nofun, trivial⟩, Lines.dcStable_of_no_dc hbytes _⟩, nofun, trivial⟩, nofun⟩

/-- A frame of one byte (R122). -/
theorem DcOutsideFrames.data (c : Config) (b : Byte) : DcOutsideFrames c (writeDataSteps b) :=
  .stream c (bytes := [.transmit b]) (by simp [Prim.InStream])

/-- A command frame is a frame of one byte between its two drives of `DC` (R121). -/
theorem DcOutsideFrames.command (c : Config) (b : Byte) : DcOutsideFrames c (writeCommandSteps b) :=
  have driveDc (v : Bool) : DcOutsideFrames c [.drive .dc v] := .event rfl fun _ => rfl
  (driveDc false).append ((DcOutsideFrames.data c b).append (driveDc true))

theorem Pieces.dcOutsideFrames (c : Config) : Pieces (DcOutsideFrames c) where
  nil := fun _ hcs => ⟨trivial, hcs⟩
  append := .append
  check := .silent rfl
  assign := fun _ => .silent rfl
  raise := fun _ => .silent rfl
  reset := fun _ => .event rfl fun _ => rfl
  delay := fun _ => .event rfl fun _ => rfl
  command := .command c
  data := .data c
  stream := .stream c

/-- With `CS` at 0 a host operation stops at its entry check and sends nothing (60_exceptions.md R283); otherwise it
drives `DC` only where `CS` is not 0, also where it stops at a fault on the way. -/
theorem exec_dcStable {i : Instr} {s t : State} (hi : i.isHostOp = true) (hx : exec i s = .next t) :
    ∃ es, State.Carried s t es ∧ s.lines.DcStable es := by
  obtain ⟨hfree, ps, -, hps, -, ht⟩ := exec_ran (.inl hi) hx
  obtain ⟨hfit, rfl⟩ := hps hi
  by_cases hcs : s.lines.cs = .low
  · have hidle : ¬(s.lines.cs = .high ∧ s.lines.dc = .high ∧ s.lines.rst = .high) := by simp [hcs]
    rw [entryCheckComesFirst i s hi hfit hfree hidle] at hx
    cases hx
    exact ⟨[], ⟨(List.append_nil _).symm, rfl⟩, trivial⟩
  · obtain ⟨qs, ⟨rs, hqs⟩, ⟨-, -, htrace, hlines, -⟩, -⟩ := (s.start i).runSteps_emits (hostSteps s.cfg i)
    obtain ⟨hstable, -⟩ := (Pieces.dcOutsideFrames s.cfg).hostSteps s.cfg i s.lines hcs
    rw [← hqs, List.flatMap_append, Lines.dcStable_append] at hstable
    exact ⟨_, (show State.Carried s _ _ from ⟨htrace, hlines⟩).of_finish ht, hstable.1⟩

/-- Settles O57: the operations' lists drive `DC` between frames only, and a run emits a first part of its list. -/
theorem dcStableInFrames : Obligations.DcStableInFrames := by
  unfold Obligations.DcStableInFrames
  intro i s t hi hx
  obtain ⟨es, hcarried, hstable⟩ := exec_dcStable hi hx
  refine ⟨es, hcarried, fun before after v hes => ?_⟩
  subst hes
  exact hstable.cs_ne_low

end Sys2Proof.Machine

/-! # The window (42_window.md) -/

namespace Sys2Proof.Machine

/-! ## What the receiver hears of an operation, the serial register aside -/

/-- What the frames lead to is where the receiver stands after them, the serial register aside. -/
theorem State.Sent.leads {s t : State} {fs : List FrameEvent} {P Q : Rx → Prop} (h : State.Sent s t fs)
    (hl : Leads s.cfg P fs Q) {a : Rx} (ha : P a) (hs : s.rx.sansSerial = a.sansSerial) :
    ∃ r, Q r ∧ t.rx.sansSerial = r.sansSerial := by
  obtain ⟨es, -, ⟨-, hheard⟩, hfs⟩ := h
  obtain ⟨r, hq, hr⟩ := hl.modSerial hfs ha hs
  exact ⟨r, hq, hheard.trans hr⟩

/-- Two receivers alike but for the serial register are one receiver with two registers. -/
theorem Rx.eq_withSerial {rx a : Rx} (h : rx.sansSerial = a.sansSerial) : rx = a.withSerial rx.shift rx.nbits :=
  (congrArg (Rx.withSerial · rx.shift rx.nbits) h :)

/-- A run of frames that is heard ends with no bit of a byte pending. -/
theorem State.Sent.aligned {s t : State} {fs : List FrameEvent} (h : State.Sent s t fs) : t.Aligned := by
  obtain ⟨-, -, ⟨haligned, -⟩, -⟩ := h
  exact haligned

/-- A completed operation leaves the instance as it was. -/
theorem State.Completed.cfg {s t : State} (h : State.Completed s t) : t.cfg = s.cfg := by
  obtain ⟨⟨-, -, -, hcfg, -⟩, -, -⟩ := h
  exact hcfg

/-- After a completed operation the next one may be issued. -/
theorem State.Completed.ready {s t : State} (h : State.Completed s t) : t.Ready := by
  obtain ⟨⟨hfault, hop, -⟩, hidle, -⟩ := h
  exact ⟨⟨hfault, hop⟩, hidle⟩

/-! ## The window at the receiver (46_receiver.md R253) -/

/-- A coordinate widened to an address register. -/
theorem u8_setWidth {n : Nat} (h : n < 256) : (u8 n).setWidth 16 = BitVec.ofNat 16 n := by
  apply BitVec.eq_of_toNat_eq
  simp [u8_toNat h]

/-- The area test of the latches is the area test of the arguments. -/
theorem windowInArea_u8 (c : Config) {x1 y1 x2 y2 : Nat} (hx1 : x1 < 256) (hy1 : y1 < 256) (hx2 : x2 < 256)
    (hy2 : y2 < 256) : WindowInArea c (u8 x1) (u8 y1) (u8 x2) (u8 y2) ↔
      x1 ≤ x2 ∧ y1 ≤ y2 ∧ x2 < c.ramCols ∧ y2 < c.ramRows := by
  simp only [WindowInArea, BitVec.le_def, u8_toNat hx1, u8_toNat hy1, u8_toNat hx2, u8_toNat hy2]

/-- A window that is inverted or outside the area is `BAD_WINDOW`, whatever the pixel format (R253 step 2). -/
theorem Rx.windowed_badWindow {c : Config} {x1 y1 x2 y2 : Byte} (a : Rx) (hw : ¬WindowInArea c x1 y1 x2 y2) :
    a.windowed c x1 y1 x2 y2 = .undefined .badWindow :=
  if_pos (by rwa [← badWindow_iff, Bool.not_eq_false] at hw)

/-- Settles O36: the eleven frames open a window the area holds, and make the receiver undefined at any other. -/
theorem setWindowOpens : Obligations.SetWindowOpens := by
  unfold Obligations.SetWindowOpens
  intro s x1 y1 x2 y2 hs ha hu hlis hx1 hy1 hx2 hy2 hformat
  obtain ⟨t, hx, -, hsent⟩ := setWindowSends s x1 y1 x2 y2 hs ha hu hx1 hy1 hx2 hy2
  obtain ⟨_, rfl, hrx⟩ := hsent.leads (Leads.window (u8 x1) (u8 y1) (u8 x2) (u8 y2) hlis) rfl rfl
  refine ⟨t, hx, fun hvalid => ?_, fun hbad => ?_⟩
  · rw [Rx.windowed_opened ((windowInArea_u8 s.cfg hx1 hy1 hx2 hy2).2 hvalid) hformat] at hrx
    obtain ⟨⟨hundef, -, -⟩, -, -⟩ := hlis
    rw [Rx.eq_withSerial hrx, ← u8_setWidth hx1, ← u8_setWidth hy1, ← u8_setWidth hx2, ← u8_setWidth hy2]
    exact ⟨rfl, rfl, rfl, rfl, rfl, rfl, rfl, rfl, hundef, rfl, rfl, rfl, rfl, rfl, rfl⟩
  · rw [Rx.windowed_badWindow s.rx (mt (windowInArea_u8 s.cfg hx1 hy1 hx2 hy2).1 hbad)] at hrx
    rw [Rx.eq_withSerial hrx]
    rfl

/-! ## The same window twice (R142) -/

/-- An undefined receiver stays as it is, whatever the frames (46_receiver.md R242). -/
theorem Leads.ofUndef {a : Rx} (h : a.undef.isSome = true) (c : Config) (fs : List FrameEvent) :
    Leads c (· = a) fs (· = a) := by
  rintro es - _ rfl
  exact ⟨_, rfl, congrArg Rx.sansSerial (Rx.receiveAll_of_undef c es h)⟩

/-- An open window opened again is the window open at its first pixel. -/
@[simp] theorem Rx.opened_opened (a : Rx) (x1 y1 x2 y2 : Byte) :
    (a.opened x1 y1 x2 y2).opened x1 y1 x2 y2 = a.opened x1 y1 x2 y2 := rfl

/-- The same window programmed again is opened at its first pixel again, where it stands already. -/
theorem Leads.windowAgain {c : Config} {a : Rx} {x1 y1 x2 y2 : Byte} (ha : a.Awake)
    (hw : WindowInArea c x1 y1 x2 y2) (hf : a.colmod = some c.colmod16bpp) :
    Leads c (· = a.opened x1 y1 x2 y2) (windowFrames c.opcodes x1 y1 x2 y2) (· = a.opened x1 y1 x2 y2) := by
  have hlis : (a.opened x1 y1 x2 y2).Listening := ⟨ha, .inr rfl, rfl⟩
  have hformat : (a.opened x1 y1 x2 y2).colmod = some c.colmod16bpp := hf
  simpa only [Rx.windowed_opened hw hformat, Rx.opened_opened] using Leads.window (c := c) x1 y1 x2 y2 hlis

/-- A receiver that a window command has reached is left as it is by the same command. -/
theorem Leads.windowTwice {c : Config} {a : Rx} (ha : a.BetweenOps) (x1 y1 x2 y2 : Byte) :
    Leads c (· = a) (windowFrames c.opcodes x1 y1 x2 y2)
      fun r => Leads c (· = r) (windowFrames c.opcodes x1 y1 x2 y2) (· = r) := by
  refine (Leads.windowBetween ha x1 y1 x2 y2).mono (fun _ h => h) ?_
  rintro r (⟨u, hr, -⟩ | ⟨⟨hawake, -, -⟩, hw, hf, rfl⟩)
  · exact .ofUndef (by rw [hr, Option.isSome_some]) c _
  · exact .windowAgain hawake hw hf

/-- Settles O37: the second call finds the block ready and sends the same frames, which change nothing more. -/
theorem setWindowTwice : Obligations.SetWindowTwice := by
  unfold Obligations.SetWindowTwice
  intro s x1 y1 x2 y2 hs ha hu hbetween hx1 hy1 hx2 hy2
  obtain ⟨t, hx, hdone, hsent⟩ := setWindowSends s x1 y1 x2 y2 hs ha hu hx1 hy1 hx2 hy2
  have huntimed : t.Untimed := by rwa [State.Untimed, hdone.cfg]
  obtain ⟨u, hx', -, hsent'⟩ :=
    setWindowSends t x1 y1 x2 y2 hdone.ready hsent.aligned huntimed hx1 hy1 hx2 hy2
  obtain ⟨r, hstays, hrx⟩ := hsent.leads (Leads.windowTwice hbetween (u8 x1) (u8 y1) (u8 x2) (u8 y2)) rfl rfl
  rw [← hdone.cfg] at hstays
  obtain ⟨_, rfl, hrx'⟩ := hsent'.leads hstays rfl hrx
  rw [hdone.cfg] at hsent'
  exact ⟨t, u, _, hx, hx', hsent, hsent', hrx'.trans hrx.symm⟩

end Sys2Proof.Machine

/-! # Rectangles, pixels and bitmaps (43_pixel.md R163 to R167) -/

namespace Sys2Proof.Machine

/-! ## The two bytes of a colour argument (R160) -/

theorem colourHi_u16 (n : Nat) : colourHi (u16 n) = u8 (n / 256) := by
  apply BitVec.eq_of_toNat_eq
  simp only [colourHi, u16, u8, BitVec.toNat_setWidth, BitVec.toNat_ushiftRight, BitVec.toNat_ofNat,
    Nat.shiftRight_eq_div_pow]
  omega

theorem colourLo_u16 (n : Nat) : colourLo (u16 n) = u8 (n % 256) := by
  rw [colourLo_eq_setWidth]
  apply BitVec.eq_of_toNat_eq
  simp only [u16, u8, BitVec.toNat_setWidth, BitVec.toNat_ofNat]
  omega

/-! ## `fill_rectangle` and `draw_pixel` -/

/-- The byte view of a filled rectangle: the window's eleven bytes and the colour's two, once per pixel (R163). -/
theorem byteView_fillFrames (o : Opcodes) (x1 y1 x2 y2 : Byte) (c : Colour) :
    byteView (fillFrames o x1 y1 x2 y2 c) =
      [.cmd o.caset, .dat 0, .dat x1, .dat 0, .dat x2, .cmd o.raset, .dat 0, .dat y1, .dat 0, .dat y2,
        .cmd o.ramwr] ++
      (List.replicate ((x2.toNat - x1.toNat + 1) * (y2.toNat - y1.toNat + 1))
        [FrameEvent.dat (colourHi c), .dat (colourLo c)]).flatten := by
  rw [fillFrames, byteView_append, byteView_windowFrames, byteView_streamFrame]

/-- Settles O38: a window in order passes the check, and its list plays the frames whose bytes are counted. -/
theorem fillSends : Obligations.FillSends := by
  unfold Obligations.FillSends
  intro s x1 y1 x2 y2 colour hs ha hu hx hy hx2 hy2 hcolour
  have hx1 : x1 < 256 := by omega
  have hy1 : y1 < 256 := by omega
  have hfit : (Instr.fillRectangle x1 y1 x2 y2 colour).argsFit = true := by
    simp [Instr.argsFit, fitsU8, fitsU16, hx1, hy1, hx2, hy2, hcolour]
  obtain ⟨t, hexec, hdone, hsent⟩ := State.call_completes hs ha hu hfit (Ordinary.fillRectangle _ _ _ _ _ _)
    (Plays.fillRectangle s.cfg (u16 colour) (u8_le hx (by omega)) (u8_le hy (by omega)))
  obtain ⟨es, hcarried, hview⟩ := hsent.byteView
  refine ⟨t, es, hexec, hdone, hsent, hcarried, ?_⟩
  rw [hview, byteView_fillFrames, colourHi_u16, colourLo_u16, u8_toNat hx1, u8_toNat hx2, u8_toNat hy1, u8_toNat hy2]

/-- Settles O40: neither coordinate of the far corner passes 255, so the list plays its thirteen frames. -/
theorem drawPixelSends : Obligations.DrawPixelSends := by
  unfold Obligations.DrawPixelSends
  intro s x y colour hs ha hu hx hy hcolour
  have hfit : (Instr.drawPixel x y colour).argsFit = true := by
    simp [Instr.argsFit, fitsU8, fitsU16, show x < 256 by omega, show y < 256 by omega, hcolour]
  rw [u8_succ, u8_succ, ← colourHi_u16, ← colourLo_u16]
  exact State.call_completes hs ha hu hfit (Ordinary.drawPixel _ _ _ _)
    (Plays.drawPixel s.cfg (u16 colour) (u8_ne_last hx) (u8_ne_last hy))

/-! ## An operation up to the first fault of its script (60_exceptions.md R282) -/

/-- A host operation that follows a script sends what comes before the script's first fault, and completes or stops at
that fault with the fault recorded (60_exceptions.md R282, R284). -/
theorem State.call_stopsAtFirstFault {s : State} (hs : s.Ready) (ha : s.Aligned) (hu : s.Untimed) {i : Instr}
    (hi : i.argsFit = true) {ps : List Prim} (hp : Ordinary ps) {sc : List Part} (hr : Follows ps sc) :
    ∃ t, s.call i ps = .next t ∧ State.Kept s t ∧ t.lines.idle = true ∧ State.Sent s t (sentBefore sc) ∧
      (firstFault sc = none → State.Completed s t) ∧
      ∀ code, firstFault sc = some code → t.op = .busy i ∧ t.fault = some ⟨code, .busy i, t.pc⟩ := by
  obtain ⟨t, hcall, hkept, hidle, hsent, hend⟩ := State.call_follows hs ha hu hi hp hr
  refine ⟨t, hcall, hkept, hidle, hsent, fun hnone => ?_, fun code hcode => ?_⟩
  · rwa [hnone] at hend
  · rw [hcode] at hend
    exact hend.symm

/-- Settles O45: the list follows the script of the bitmap, whatever fault that meets. -/
theorem drawBitmapStopsAtFirstFault : Obligations.DrawBitmapStopsAtFirstFault := by
  unfold Obligations.DrawBitmapStopsAtFirstFault
  rintro s x y scale bitmap _ hs ha hu hx hy hscale rfl
  have hfit : (Instr.drawBitmap x y scale bitmap).argsFit = true := by
    simp [Instr.argsFit, fitsU8, hx, hy, hscale]
  have hfollows := Follows.drawBitmap s.cfg (u8 x) (u8 y) (u8 scale) bitmap
  rw [u8_toNat hx, u8_toNat hy, u8_toNat hscale] at hfollows
  exact State.call_stopsAtFirstFault hs ha hu hfit (Ordinary.drawBitmap _ _ _ _ _) hfollows

end Sys2Proof.Machine

/-! # Text (44_text.md R192, R195) -/

namespace Sys2Proof.Machine

/-- Settles O47: the list follows the script of the character, whatever fault that meets. -/
theorem drawCharStopsAtFirstFault : Obligations.DrawCharStopsAtFirstFault := by
  unfold Obligations.DrawCharStopsAtFirstFault
  rintro s x y ch colour size _ hs ha hu hx hy hch hcolour hsize rfl
  have hfit : (Instr.drawChar x y ch colour size).argsFit = true := by
    simp [Instr.argsFit, fitsU8, fitsU16, hx, hy, hch, hcolour, hsize]
  have hfollows := Follows.drawChar s.cfg (u8 x) (u8 y) (u8 ch) (u16 colour) (u8 size)
  rw [u8_toNat hx, u8_toNat hy, u8_toNat hsize] at hfollows
  exact State.call_stopsAtFirstFault hs ha hu hfit (Ordinary.drawChar _ _ _ _ _ _) hfollows

/-- Settles O49: the list follows the script of the text from its first character on, whatever fault that meets. -/
theorem drawStringStopsAtFirstFault : Obligations.DrawStringStopsAtFirstFault := by
  unfold Obligations.DrawStringStopsAtFirstFault
  rintro s x y colour size text _ hs ha hu hx hy hcolour hsize rfl
  have hfit : (Instr.drawString x y colour size text).argsFit = true := by
    simp [Instr.argsFit, fitsU8, fitsU16, hx, hy, hcolour, hsize]
  have hfollows := Follows.drawString s.cfg (u8 x) (u8 y) (u16 colour) (u8 size) text
  rw [u8_toNat hx, u8_toNat hy, u8_toNat hsize] at hfollows
  exact State.call_stopsAtFirstFault hs ha hu hfit (Ordinary.drawString _ _ _ _ _ _) hfollows

end Sys2Proof.Machine

/-! # Bring-up (45_init.md R225) -/

namespace Sys2Proof.Machine

/-- Settles O51: the receiver hears the frames of `init`, which bring a defined receiver up. -/
theorem initBringsUp : Obligations.InitBringsUp := by
  unfold Obligations.InitBringsUp
  intro s hs ha hu hundef hdelays
  obtain ⟨t, hx, hdone, hsent, -⟩ := initSends s hs ha hu
  obtain ⟨⟨hfault, -⟩, -⟩ := hdone.ready
  obtain ⟨_, rfl, hrx⟩ := hsent.leads (Leads.init hundef hdelays) rfl rfl
  have hbits : t.rx.nbits.getD 0 = 0 := hsent.aligned
  refine ⟨t, hx, hfault, ?_⟩
  rw [Rx.eq_withSerial hrx]
  exact ⟨rfl, rfl, rfl, rfl, hundef, rfl, rfl, rfl, hbits, rfl, rfl, rfl, rfl, rfl, rfl, rfl, Memory.read_nil⟩

end Sys2Proof.Machine

/-! # The receiver (46_receiver.md) -/

namespace Sys2Proof.Machine

/-! ## The checks of a byte (R240) -/

theorem Rx.guarded_of_undef {rx : Rx} (h : rx.undef ≠ none) (unreset ready : Rx) : rx.guarded unreset ready = rx :=
  if_pos (Option.isSome_iff_ne_none.2 h)

theorem Rx.guarded_of_low {rx : Rx} (hdef : rx.undef = none) {ok : Bool} (hlow : rx.rst = .low ok)
    (unreset ready : Rx) : rx.guarded unreset ready = .undefined .byteInReset := by
  simp [Rx.guarded, hdef, hlow]

theorem Rx.guarded_of_unreset {rx : Rx} (hdef : rx.undef = none) (hrst : ∀ ok, rx.rst ≠ .low ok)
    (hmode : rx.mode = .unknown) (unreset ready : Rx) : rx.guarded unreset ready = unreset := by
  cases hr : rx.rst with
  | low ok => exact (hrst ok hr).elim
  | unknown | high => simp [Rx.guarded, hdef, hr, hmode]

/-- In a receiver that has been reset the settle requirement decides. -/
theorem Rx.guarded_of_reset {rx : Rx} (hdef : rx.undef = none) (hrst : ∀ ok, rx.rst ≠ .low ok)
    (hmode : rx.mode ≠ .unknown) (unreset ready : Rx) :
    rx.guarded unreset ready = if rx.settle = .clear then ready else .undefined .settle := by
  cases hr : rx.rst with
  | low ok => exact (hrst ok hr).elim
  | unknown | high =>
    cases hm : rx.mode with
    | unknown => exact (hmode hm).elim
    | idle | param | pixels => simp [Rx.guarded, hdef, hr, hm]

theorem Rx.guarded_of_awake {rx : Rx} (h : rx.Awake) (hmode : rx.mode ≠ .unknown) (unreset ready : Rx) :
    rx.guarded unreset ready = ready := by
  obtain ⟨hdef, hrst, hsettle⟩ := h
  rw [Rx.guarded_of_reset hdef hrst hmode, if_pos hsettle]

theorem Rx.Listening.mode_ne_unknown {rx : Rx} (h : rx.Listening) : rx.mode ≠ .unknown := by
  obtain ⟨-, hmode | hmode, -⟩ := h <;> simp [hmode]

/-- A receiver that takes commands dispatches them (R244 step 3). -/
theorem Rx.command_of_listening {rx : Rx} (h : rx.Listening) (c : Config) (cmd : Command) :
    rx.command c cmd = rx.dispatch c cmd := by
  rw [Rx.command, Rx.guarded_of_awake h.1 h.mode_ne_unknown, Rx.commandReady_listening c h]

/-- A receiver that takes bytes goes by its mode (R245). -/
theorem Rx.data_of_awake {rx : Rx} (h : rx.Awake) (hmode : rx.mode ≠ .unknown) (c : Config) (d : Byte) :
    rx.data c d = rx.dataReady c d := Rx.guarded_of_awake h hmode _ _

theorem State.receiveCommand_of_listening {s : State} (h : s.rx.Listening) (cmd : Command) :
    s.receiveCommand cmd = { s with rx := s.rx.dispatch s.cfg cmd } := by
  rw [State.receiveCommand, Rx.command_of_listening h]

theorem exec_data_of_awake {s : State} (h : s.rx.Awake) (hmode : s.rx.mode ≠ .unknown) (d : Byte) :
    exec (.data d) s = .next { s with rx := s.rx.dataReady s.cfg d } := by
  rw [exec, execData, Rx.data_of_awake h hmode]

/-- Settles O15: the command is dispatched to its reaction. -/
theorem sleepOutWakes : Obligations.SleepOutWakes := by
  unfold Obligations.SleepOutWakes
  intro s hlis
  exact congrArg Host.Outcome.next (State.receiveCommand_of_listening hlis .slpout)

/-- Settles O16: the command is dispatched to its reaction. -/
theorem displayOn : Obligations.DisplayOn := by
  unfold Obligations.DisplayOn
  intro s hlis
  exact congrArg Host.Outcome.next (State.receiveCommand_of_listening hlis .dispon)

/-! ## Frame words (R240, 30_encoding.md R71) -/

/-- A byte that is read as an unsupported command is that command's byte. -/
theorem Opcodes.eq_of_command_unsupported {o : Opcodes} {b b' : Byte} (h : o.command b = .unsupported b') : b' = b := by
  unfold Opcodes.command at h
  split_ifs at h
  cases h
  rfl

/-- Of the bytes only its opcode is read as the software reset. -/
theorem Opcodes.eq_of_command_swreset {o : Opcodes} {b : Byte} (h : o.command b = .swreset) : b = o.swreset := by
  unfold Opcodes.command at h
  split_ifs at h
  assumption

/-- The instruction of a command byte is that command at the receiver. -/
theorem exec_command (s : State) (b : Byte) :
    exec (s.cfg.opcodes.command b).instr s = .next (s.receiveCommand (s.cfg.opcodes.command b)) := by
  cases h : s.cfg.opcodes.command b with
  | unsupported b' =>
    obtain rfl := Opcodes.eq_of_command_unsupported h
    rw [Command.instr, exec, execCmdUnsupported, h]
  | swreset | slpout | colmod | dispon | caset | raset | ramwr => rfl

/-- Every frame word passes the same checks. Before the first reset only the software reset is no error; after them a
command byte is dispatched, and a data byte goes by the mode. -/
theorem exec_decodeFrame (s : State) (w : FrameWord) : ∃ unreset ready,
    exec (decodeFrame s.cfg.opcodes w) s = .next { s with rx := s.rx.guarded unreset ready } ∧
      (w ≠ frameWord false s.cfg.opcodes.swreset → unreset = .undefined .notReset) ∧
      (w.getLsbD 8 = false → ∃ cmd, ready = s.rx.commandReady s.cfg cmd) ∧
      (w.getLsbD 8 = true → ∃ d, ready = s.rx.dataReady s.cfg d) := by
  rw [← frameWord_getLsbD_setWidth w]
  generalize w.setWidth 8 = b
  cases w.getLsbD 8 with
  | true =>
    obtain ⟨hdc, -⟩ := frameWord_parts true b
    rw [decodeFrame_dat, hdc]
    exact ⟨_, _, rfl, fun _ => rfl, nofun, fun _ => ⟨b, rfl⟩⟩
  | false =>
    obtain ⟨hdc, -⟩ := frameWord_parts false b
    rw [decodeFrame_cmd, exec_command, hdc]
    refine ⟨_, _, rfl, fun hw => if_neg fun h => hw ?_, fun _ => ⟨_, rfl⟩, nofun⟩
    rw [Opcodes.eq_of_command_swreset h]

/-- A command among parameters (R244 step 1). -/
theorem Rx.commandReady_of_param {rx : Rx} {p : ParamPos} (h : rx.mode = .param p) (c : Config) (cmd : Command) :
    rx.commandReady c cmd = .undefined .partialParams := by
  rw [Rx.commandReady, h]

/-- A command after half a pixel (R244 step 2). -/
theorem Rx.commandReady_of_halfPixel {rx : Rx} (hmode : ∀ p, rx.mode ≠ .param p) (hhi : rx.hi ≠ .empty) (c : Config)
    (cmd : Command) : rx.commandReady c cmd = .undefined .halfPixel := by
  cases hm : rx.mode with
  | param p => exact (hmode p hm).elim
  | unknown | idle | pixels => simp only [Rx.commandReady, hm, hhi, if_false]

/-- A data byte that nothing waits for (R245). -/
theorem Rx.dataReady_of_idle {rx : Rx} (h : rx.mode = .idle) (c : Config) (d : Byte) :
    rx.dataReady c d = .undefined .strayData := by
  rw [Rx.dataReady, h]

/-- Settles O22: one lemma for each check, and for each thing a byte that has passed them can meet. -/
theorem byteChecksInOrder : Obligations.ByteChecksInOrder := by
  unfold Obligations.ByteChecksInOrder
  intro s w
  obtain ⟨unreset, ready, hexec, hunreset, hcommand, hdata⟩ := exec_decodeFrame s w
  refine ⟨_, hexec, fun hundef => Rx.guarded_of_undef hundef _ _, fun hdef =>
    ⟨fun ok hlow => Rx.guarded_of_low hdef hlow _ _, fun hrst => ⟨fun hmode hw => ?_, fun hmode hset => ?_,
      fun hmode hset => ?_⟩⟩⟩
  · rw [Rx.guarded_of_unreset hdef hrst hmode, hunreset hw]
  · rw [Rx.guarded_of_reset hdef hrst hmode, if_neg hset]
  · rw [Rx.guarded_of_awake ⟨hdef, hrst, hset⟩ hmode]
    refine ⟨fun p hp hdc => ?_, fun hp hhi hdc => ?_, fun hidle hdc => ?_⟩
    · obtain ⟨cmd, rfl⟩ := hcommand hdc
      exact Rx.commandReady_of_param hp _ _
    · obtain ⟨cmd, rfl⟩ := hcommand hdc
      exact Rx.commandReady_of_halfPixel hp hhi _ _
    · obtain ⟨d, rfl⟩ := hdata hdc
      exact Rx.dataReady_of_idle hidle _ _

/-- Settles O21: a byte that is none of the seven is dispatched as an unsupported command. -/
theorem unsupportedCommandUndefines : Obligations.UnsupportedCommandUndefines := by
  unfold Obligations.UnsupportedCommandUndefines
  intro s b hlis hb
  rw [exec, execCmdUnsupported, Opcodes.command_of_not_mem hb]
  exact congrArg Host.Outcome.next (State.receiveCommand_of_listening hlis (.unsupported b))

/-! ## Resets (R247) -/

/-- A software reset resets a receiver that no reset has reached yet, and one that takes commands (R244, R246). -/
theorem Rx.command_swreset {rx : Rx} (hdef : rx.undef = none) (hrst : ∀ ok, rx.rst ≠ .low ok)
    (h : rx.mode = .unknown ∨ rx.Listening) (c : Config) : rx.command c .swreset = rx.reset c := by
  rcases h with hmode | hlis
  · rw [Rx.command, Rx.guarded_of_unreset hdef hrst hmode, if_pos rfl]
  · exact Rx.command_of_listening hlis c .swreset

/-- A rise of the reset line at a defined receiver (R243). -/
theorem Rx.receive_rstHigh {rx : Rx} (h : rx.undef = none) (c : Config) :
    rx.receive c .rstHigh = rx.resetRise c := by
  simp [Rx.receive, h]

/-- Settles O14: both resets are `Rx.reset`, and the hardware one sets the reset line to `High` besides. -/
theorem resetClearsReceiver : Obligations.ResetClearsReceiver := by
  unfold Obligations.ResetClearsReceiver
  rintro s _ hdef rfl
  refine ⟨fun hrst h => ?_, fun rest hlow hin => ?_, Memory.read_nil⟩
  · rw [exec, execCmdSwreset, State.receiveCommand, Rx.command_swreset hdef hrst h]
    rfl
  · rw [step_wire hin, Rx.receive_rstHigh hdef, Rx.resetRise, hlow]
    rfl

/-! ## Parameters (R244, R245, R250, R252) -/

/-- Settles O18: a command waits for byte 0, and the mode says where a byte is kept. -/
theorem addressBytesSetTheWindow : Obligations.AddressBytesSetTheWindow := by
  unfold Obligations.AddressBytesSetTheWindow
  rintro s d k _ rfl
  have data : ∀ {p}, s.rx.Awake → s.rx.mode = .param p →
      exec (.data d) s = .next { s with rx := s.rx.dataReady s.cfg d } := fun hawake hmode =>
    exec_data_of_awake hawake (by simp [hmode]) d
  refine ⟨fun hlis => congrArg Host.Outcome.next (State.receiveCommand_of_listening hlis .caset),
    fun hlis => congrArg Host.Outcome.next (State.receiveCommand_of_listening hlis .raset),
    fun hawake hmode hk => ?_, fun hawake hmode hk => ?_, ?_⟩
  · rw [data hawake hmode, Rx.dataReady, hmode]
    simp only [Rx.casetByte, hk, if_false]
  · rw [data hawake hmode, Rx.dataReady, hmode]
    simp only [Rx.rasetByte, hk, if_false]
  · rintro p0 p1 p2 h0 h1 h2 rfl
    refine ⟨fun hawake hmode => ?_, fun hawake hmode => ?_⟩
    · rw [data hawake hmode, Rx.dataReady, hmode]
      simp only [Rx.casetByte, if_true, ParamBuf.set, h0, h1, h2, addrOf]
    · rw [data hawake hmode, Rx.dataReady, hmode]
      simp only [Rx.rasetByte, if_true, ParamBuf.set, h0, h1, h2, addrOf]

/-! ## `CMD_RAMWR` (R253) -/

/-- Step 1: a window register is unknown. -/
theorem Rx.memoryWrite_noWindow {rx : Rx} (h : rx.xs = none ∨ rx.xe = none ∨ rx.ys = none ∨ rx.ye = none)
    (c : Config) : rx.memoryWrite c = .undefined .noWindow := by
  unfold Rx.memoryWrite
  split
  · next hxs hxe hys hye => simp [hxs, hxe, hys, hye] at h
  · rfl

section
variable {c : Config} {rx : Rx} {xs xe ys ye : Addr} (hxs : rx.xs = some xs) (hxe : rx.xe = some xe)
  (hys : rx.ys = some ys) (hye : rx.ye = some ye)
include hxs hxe hys hye

/-- Step 2: the window is inverted or ends outside the area. -/
theorem Rx.memoryWrite_badWindow (h : badWindow c xs xe ys ye = true) :
    rx.memoryWrite c = .undefined .badWindow := by
  simp only [Rx.memoryWrite, hxs, hxe, hys, hye, h, if_true]

/-- Step 3: the pixel format is another one. -/
theorem Rx.memoryWrite_pixelFormat (h : badWindow c xs xe ys ye = false) (hf : rx.colmod ≠ some c.colmod16bpp) :
    rx.memoryWrite c = .undefined .pixelFormat := by
  simp only [Rx.memoryWrite, hxs, hxe, hys, hye, h, hf, Bool.false_eq_true, if_false]

/-- Step 4: the window opens at its top-left corner. -/
theorem Rx.memoryWrite_opens (h : badWindow c xs xe ys ye = false) (hf : rx.colmod = some c.colmod16bpp) :
    rx.memoryWrite c = { rx with pc := some xs, pr := some ys, hi := .empty, mode := .pixels } := by
  simp only [Rx.memoryWrite, hxs, hxe, hys, hye, h, hf, Bool.false_eq_true, if_false, if_true]

end

theorem badWindow_eq_true (c : Config) (xs xe ys ye : Addr) :
    badWindow c xs xe ys ye = true ↔ xe < xs ∨ ye < ys ∨ c.ramCols ≤ xe.toNat ∨ c.ramRows ≤ ye.toNat := by
  simp only [badWindow, Bool.or_eq_true, decide_eq_true_eq, or_assoc]

theorem badWindow_eq_false (c : Config) (xs xe ys ye : Addr) :
    badWindow c xs xe ys ye = false ↔ xs ≤ xe ∧ ys ≤ ye ∧ xe.toNat < c.ramCols ∧ ye.toNat < c.ramRows := by
  rw [← Bool.not_eq_true, badWindow_eq_true]
  simp only [not_or, BitVec.not_lt, Nat.not_le]

/-- `CMD_RAMWR` in a receiver that takes commands. -/
theorem exec_cmdRamwr {s : State} (h : s.rx.Listening) {rx : Rx} (hrx : s.rx.memoryWrite s.cfg = rx) :
    exec .cmdRamwr s = .next { s with rx := rx } := by
  subst hrx
  exact congrArg Host.Outcome.next (State.receiveCommand_of_listening h .ramwr)

/-- Settles O19: one lemma for each of the four steps. -/
theorem memoryWriteOpens : Obligations.MemoryWriteOpens := by
  unfold Obligations.MemoryWriteOpens
  intro s hlis
  refine ⟨fun h => exec_cmdRamwr hlis (Rx.memoryWrite_noWindow h s.cfg), fun xs xe ys ye hxs hxe hys hye =>
    ⟨fun hbad => ?_, fun hgood => ⟨fun hf => ?_, fun hf => ?_⟩⟩⟩
  · exact exec_cmdRamwr hlis (Rx.memoryWrite_badWindow hxs hxe hys hye ((badWindow_eq_true _ _ _ _ _).2 hbad))
  · exact exec_cmdRamwr hlis (Rx.memoryWrite_pixelFormat hxs hxe hys hye ((badWindow_eq_false _ _ _ _ _).2 hgood) hf)
  · exact exec_cmdRamwr hlis (Rx.memoryWrite_opens hxs hxe hys hye ((badWindow_eq_false _ _ _ _ _).2 hgood) hf)

/-- Settles O17: the byte is kept as the format, which `CMD_RAMWR` looks at. -/
theorem pixelFormatSets : Obligations.PixelFormatSets := by
  unfold Obligations.PixelFormatSets
  intro s d
  refine ⟨fun hlis => congrArg Host.Outcome.next (State.receiveCommand_of_listening hlis .colmod),
    fun hawake hmode => ?_, fun xs xe ys ye hlis hxs hxe hys hye hgood hf =>
      exec_cmdRamwr hlis (Rx.memoryWrite_pixelFormat hxs hxe hys hye hgood hf)⟩
  rw [exec_data_of_awake hawake (by simp [hmode]), Rx.dataReady, hmode]
  rfl

/-! ## Pixels (R254, R255) -/

/-- A pixel whose pointer lies in the area is written there, and the pointer moves on in the window. -/
theorem Rx.pixel_eq {c : Config} {rx : Rx} {xs xe ys ye pc pr : Addr} (hxs : rx.xs = some xs) (hxe : rx.xe = some xe)
    (hys : rx.ys = some ys) (hye : rx.ye = some ye) (hpc : rx.pc = some pc) (hpr : rx.pr = some pr)
    (harea : pc.toNat < c.ramCols ∧ pr.toNat < c.ramRows) (v : Colour) :
    rx.pixel c v = { rx with
      fb := Memory.write rx.fb pr.toNat pc.toNat v, hi := .empty
      pc := some (if pc < xe then pc + 1 else xs)
      pr := some (if pc < xe then pr else if pr < ye then pr + 1 else ys) } := by
  simp only [Rx.pixel, hpc, hpr, harea, and_self, if_true, Rx.advance, hxs, hxe, hys, hye]
  split <;> rfl

/-- The write pointer of an open window lies in the area. -/
theorem pointer_inArea {c : Config} {xs xe ys ye pc pr : Addr} (h : badWindow c xs xe ys ye = false) (hpc : pc ≤ xe)
    (hpr : pr ≤ ye) : pc.toNat < c.ramCols ∧ pr.toNat < c.ramRows := by
  obtain ⟨-, -, hcols, hrows⟩ := (badWindow_eq_false _ _ _ _ _).1 h
  rw [BitVec.le_def] at hpc hpr
  omega

/-- A cell of frame memory after one is written. -/
theorem Memory.read_write (m : Memory) {r c : Nat} (v : Colour) (hc : c < 65536) {row col : Nat} (hcol : col < 65536) :
    Memory.read (Memory.write m r c v) row col = if row = r ∧ col = c then some v else Memory.read m row col := by
  split_ifs with h
  · obtain ⟨rfl, rfl⟩ := h
    exact Memory.read_write_same m row col v
  · exact Memory.read_write_other m v hc hcol h

/-- Settles O20: the invariant puts the pointer in the open window, and so in the area. -/
theorem pixelBytesPaint : Obligations.PixelBytesPaint := by
  unfold Obligations.PixelBytesPaint
  intro s d hinv hawake hmode
  have hdata : exec (.data d) s = .next { s with rx := s.rx.pixelByte s.cfg d } := by
    rw [exec_data_of_awake hawake (by simp [hmode]), Rx.dataReady, hmode]
  refine ⟨fun hhi => ?_, fun h hhi => ?_⟩
  · rw [hdata, Rx.pixelByte, hhi]
  · obtain ⟨xs, xe, ys, ye, pc, pr, hxs, hxe, hys, hye, hpc, hpr, hgood, -, hpcxe, -, hprye, -⟩ :=
      hinv.receiver.pixels hmode
    have hpaint := Rx.pixel_eq hxs hxe hys hye hpc hpr (pointer_inArea hgood hpcxe hprye) (h ++ d)
    refine ⟨xs, xe, ys, ye, pc, pr, _, hxs, hxe, hys, hye, hpc, hpr, ?_, fun row col hcol =>
      Memory.read_write s.rx.fb (h ++ d) pc.isLt hcol⟩
    rw [hdata, Rx.pixelByte, hhi]
    exact congrArg (fun rx => Host.Outcome.next { s with rx := rx }) hpaint

/-! ## The reset line and settling (R243, R248) -/

/-- A fall of the reset line at a defined receiver. -/
theorem Rx.receive_rstLow {rx : Rx} (h : rx.undef = none) (c : Config) :
    rx.receive c .rstLow = { rx with rst := .low false } := by
  simp [Rx.receive, h]

/-- A wait at a defined receiver. -/
theorem Rx.receive_wait {rx : Rx} (h : rx.undef = none) (c : Config) (t : DelayName) :
    rx.receive c (.wait t) = rx.wait c (c.time t) := by
  simp [Rx.receive, h]

section
variable (c : Config) (t : Nat) {rx : Rx}

/-- A wait touches the view of the reset line and the settle requirement. -/
theorem Rx.wait_frame (rx : Rx) :
    rx.wait c t = { rx with rst := (rx.wait c t).rst, settle := (rx.wait c t).settle } := rfl

theorem Rx.wait_rst_of_low {ok : Bool} (h : rx.rst = .low ok) :
    (rx.wait c t).rst = .low (ok || decide (c.rxRstwMin ≤ t)) := by
  simp only [Rx.wait, h]

theorem Rx.wait_rst_of_not_low (h : ∀ ok, rx.rst ≠ .low ok) : (rx.wait c t).rst = rx.rst := by
  cases hr : rx.rst with
  | low ok => exact (h ok hr).elim
  | unknown | high => simp only [Rx.wait, hr]

theorem Rx.wait_settle_of_need {m : Nat} (h : rx.settle = .need m) :
    (rx.wait c t).settle = if m ≤ t then .clear else .need m := by
  simp only [Rx.wait, h]

theorem Rx.wait_settle_of_not_need (h : ∀ m, rx.settle ≠ .need m) : (rx.wait c t).settle = rx.settle := by
  cases hs : rx.settle with
  | need m => exact (h m hs).elim
  | unknown | clear => simp only [Rx.wait, hs]

end

/-- Settles O25: the wait's settle requirement and view of the reset line, each by its own case. -/
theorem settleNeedsOneLongWait : Obligations.SettleNeedsOneLongWait := by
  unfold Obligations.SettleNeedsOneLongWait
  intro s rest t m hdef hneed hin
  have hstep := step_wire hin
  rw [Rx.receive_wait hdef, Rx.wait_frame, Rx.wait_settle_of_need _ _ hneed] at hstep
  refine ⟨(s.rx.wait s.cfg (s.cfg.time t)).rst, Rx.wait_rst_of_not_low _ _, fun ok => Rx.wait_rst_of_low _ _,
    fun hlong => ?_, fun hshort => ?_⟩
  · rw [hstep, if_pos hlong]
  · rw [hstep, if_neg (by omega), ← hneed]

/-- A byte in a receiver held in reset (R243). -/
theorem exec_decodeFrame_of_low {s : State} (hdef : s.rx.undef = none) {ok : Bool} (hlow : s.rx.rst = .low ok)
    (w : FrameWord) : exec (decodeFrame s.cfg.opcodes w) s = .next { s with rx := Rx.undefined .byteInReset } := by
  obtain ⟨unreset, ready, hexec, -⟩ := exec_decodeFrame s w
  rw [hexec, Rx.guarded_of_low hdef hlow]

/-- Settles O24: each event of the reset line at a defined receiver, by its view of that line. -/
theorem resetLineAtReceiver : Obligations.ResetLineAtReceiver := by
  unfold Obligations.ResetLineAtReceiver
  intro s rest hdef
  refine ⟨fun hin => ?_, fun ok t hlow hin => ?_, fun hlow hin => ?_, fun hlow hin => ?_, fun hunknown hin => ?_,
    fun ok w hlow => exec_decodeFrame_of_low hdef hlow w⟩
  · rw [step_wire hin, Rx.receive_rstLow hdef]
  · have hstep := step_wire hin
    rw [Rx.receive_wait hdef, Rx.wait_frame, Rx.wait_rst_of_low _ _ hlow] at hstep
    refine ⟨_, _, hstep, fun hlong => ?_, fun hshort => ?_, fun m hneed hlong => ?_, fun m hneed hshort => ?_,
      Rx.wait_settle_of_not_need _ _⟩
    · rw [decide_eq_true hlong, Bool.or_true]
    · rw [decide_eq_false (by omega), Bool.or_false]
    · rw [Rx.wait_settle_of_need _ _ hneed, if_pos hlong]
    · rw [Rx.wait_settle_of_need _ _ hneed, if_neg (by omega)]
  · rw [step_wire hin, Rx.receive_rstHigh hdef, Rx.resetRise, hlow]
  · rw [step_wire hin, Rx.receive_rstHigh hdef, Rx.resetRise, hlow]
  · rw [step_wire hin, Rx.receive_rstHigh hdef, Rx.resetRise, hunknown]

end Sys2Proof.Machine

/-! ## Undefined is sticky (R242) -/

namespace Sys2Proof.Machine

/-- What R242 says of a receiver before and after: undefined it stays as it is, and becoming undefined it keeps the
reason alone. -/
def Rx.Sticky (rx rx' : Rx) : Prop :=
  (rx.undef ≠ none → rx' = rx) ∧ ∀ r, rx.undef = none → rx'.undef = some r → rx' = Rx.blank (some r)

theorem Rx.Sticky.refl (rx : Rx) : rx.Sticky rx := ⟨fun _ => rfl, fun r h hr => by rw [h] at hr; cases hr⟩

theorem Rx.Sticky.receive (c : Config) (rx : Rx) (e : FrameEvent) : rx.Sticky (rx.receive c e) :=
  ⟨fun h => Rx.receive_of_undef c e (Option.isSome_iff_ne_none.2 h), fun _ h hr => Rx.receive_undef_blank c e h hr⟩

theorem Rx.Sticky.hearAll (c : Config) (lv : Lines) (es : List BusEvent) (rx : Rx) : rx.Sticky (rx.hearAll c lv es) :=
  ⟨fun h => Rx.hearAll_of_undef c lv es (Option.isSome_iff_ne_none.2 h),
    fun _ h hr => Rx.hearAll_undef_blank c lv es h hr⟩

/-- Settles O23: whatever a step is, its receiver has received a frame event or heard bus events. -/
theorem undefinedIsSticky : Obligations.UndefinedIsSticky := by
  unfold Obligations.UndefinedIsSticky
  intro s t hs
  change s.rx.Sticky t.rx
  rcases step_cases hs with ⟨-, rfl⟩ | ⟨rest, -, rfl⟩ | ⟨e, rest, -, rfl⟩ | ⟨i, rest, -, hx⟩
  · exact .refl _
  · rw [State.boardSetup, State.emitAll_eq]
    exact .hearAll _ _ _ _
  · exact .receive _ _ _
  · rcases exec_touches hx with ⟨e, -, rfl⟩ | ⟨-, -, es, -, -, -, -, hrx⟩
    · exact .receive _ _ _
    · rw [hrx]
      exact .hearAll _ _ _ _

/-! ## `board_setup` (70_reset_and_hazards.md R324) -/

/-- The events of `board_setup()`. -/
def boardSetupEvents : List BusEvent := [.drive .cs true, .drive .dc true, .drive .rst true]

theorem boardSetupEvents_whole (lv : Lines) : (Decoder.afterAll ⟨lv, Shift8.zero, 0⟩ boardSetupEvents).nb = 0 := by
  simp [boardSetupEvents, Decoder.next]

/-- The frames of `board_setup()`: a rise of `CS` and a rise of `RST`, each unless the line is high already. -/
theorem projFrom_boardSetup (lv : Lines) : projFrom lv boardSetupEvents =
    (if lv.cs = .high then [] else [.csRise]) ++ if lv.rst = .high then [] else [.rstHigh] := by
  simp [projFrom, boardSetupEvents, Decoder.out, Lines.drive]

/-- Between bytes the receiver hears these frames of `board_setup()`, and stays between bytes. -/
theorem State.boardSetup_heard {s : State} (ha : s.Aligned) :
    s.boardSetup.Aligned ∧ s.boardSetup.rx.sansSerial =
      (s.rx.receiveAll s.cfg (projFrom s.lines boardSetupEvents)).sansSerial :=
  (State.went_emitAll ha (boardSetupEvents_whole s.lines)).heard

/-- Settles O52: a receiver that knows no reset hears two rises, and only that of `RST` tells it something. -/
theorem boardSetupDrivesIdle : Obligations.BoardSetupDrivesIdle := by
  unfold Obligations.BoardSetupDrivesIdle
  intro s rest hin
  have hstep : step s = .next ({ s with inbox := rest } : State).boardSetup := by
    simp only [step, hin, State.taken, List.tail_cons]
  refine ⟨_, hstep, ?_, fun ha hcs hrst hview hdef => ?_⟩
  · rw [State.boardSetup, State.emitAll_eq]
    rfl
  · obtain ⟨-, hheard⟩ := State.boardSetup_heard (s := { s with inbox := rest }) ha
    rw [hheard, projFrom_boardSetup]
    simp [hcs, hrst, Rx.receive, hdef, Rx.resetRise, hview, Rx.sansSerial]

/-! ## Between operations (R261) -/

/-- Being between operations is no matter of the serial register. -/
theorem Rx.BetweenOps.of_sansSerial {rx r : Rx} (h : r.BetweenOps) (hs : rx.sansSerial = r.sansSerial) :
    rx.BetweenOps :=
  have hr : r.sansSerial.BetweenOps := h
  show rx.sansSerial.BetweenOps from hs ▸ hr

theorem Rx.BetweenOps.csRise {rx : Rx} (h : rx.BetweenOps) (c : Config) : (rx.receive c .csRise).BetweenOps :=
  h.of_sansSerial (Rx.receive_csRise c rx)

/-- A rise of the reset line where it is not low (R243). -/
theorem Rx.BetweenOps.rstHigh {rx : Rx} (h : rx.BetweenOps) (c : Config) : (rx.receive c .rstHigh).BetweenOps := by
  rcases h.cases with hlost | ⟨hdef, hmode, hhi, hrst, hempty⟩
  · exact (hlost.receive c _).between
  · have hrise : rx.receive c .rstHigh = { rx with rst := .high } := by
      cases hr : rx.rst with
      | low ok => exact (hrst ok hr).elim
      | unknown | high => simp [Rx.receive, hdef, Rx.resetRise, hr]
    rw [hrise]
    simp only [Rx.BetweenOps, hdef]
    exact ⟨hmode, hhi, nofun, hempty⟩

/-- The step of board setup. -/
theorem State.boardSetup_keepsBetween {s : State} (ha : s.Aligned) (h : s.rx.BetweenOps) :
    s.boardSetup.Aligned ∧ s.boardSetup.rx.BetweenOps := by
  obtain ⟨haligned, hheard⟩ := State.boardSetup_heard ha
  refine ⟨haligned, Rx.BetweenOps.of_sansSerial ?_ hheard⟩
  have hcs : (s.rx.receiveAll s.cfg (if s.lines.cs = .high then [] else [.csRise])).BetweenOps := by
    split
    · exact h
    · exact h.csRise s.cfg
  rw [projFrom_boardSetup, Rx.receiveAll_append]
  generalize s.rx.receiveAll s.cfg _ = rx at hcs
  split
  · exact hcs
  · exact hcs.rstHigh s.cfg

theorem KeepsBetween.paint {c : Config} {fs : List FrameEvent} (h : PaintFrames c.opcodes fs) : KeepsBetween c fs := by
  rcases h with ⟨x1, y1, x2, y2, colour, rfl⟩ | ⟨x, y, colour, rfl⟩
  · exact .fill c x1 y1 x2 y2 colour
  · exact .pixel c x y colour

/-- What is sent before the first fault keeps a receiver between operations when every part does. -/
theorem KeepsBetween.sentBefore {c : Config} {sc : List Part} (h : ∀ fs, .ok fs ∈ sc → KeepsBetween c fs) :
    KeepsBetween c (Machine.sentBefore sc) := by
  induction sc with
  | nil => exact .nil c
  | cons p sc ih =>
    cases p with
    | error code => exact .nil c
    | ok fs => exact (h fs List.mem_cons_self).append (ih fun gs hgs => h gs (List.mem_cons_of_mem _ hgs))

/-- The frames of a host operation's list, from any control lines: away from the idle levels there are none
(60_exceptions.md R283). -/
theorem KeepsBetween.hostSteps (k : Ctl) (c : Config) {i : Instr} (hi : i.isHostOp = true) :
    KeepsBetween c (k.run (Machine.hostSteps c i)).frames := by
  by_cases hk : k = Ctl.rest
  · obtain ⟨sc, hfollow, hparts⟩ :=
      hostSteps_parts c (KeepsBetween.init c) (KeepsBetween.window c) (fun _ => KeepsBetween.paint) hi
    rw [hk, hfollow]
    exact .sentBefore hparts
  · obtain ⟨ps, hps⟩ := hostSteps_checkIdle hi c
    simpa [hps, Ctl.run, Prim.fault, hk] using KeepsBetween.nil c

/-- A host operation that leaves no fault has sent the frames of its whole list, since no transfer timed out. -/
theorem exec_sent {i : Instr} {s t : State} (hi : i.isHostOp = true) (ha : s.Aligned) (h : exec i s = .next t)
    (hf : t.fault = none) : State.Sent s t (s.lines.ctl.run (hostSteps s.cfg i)).frames := by
  obtain ⟨⟨hfree, -⟩, ps, hord, hps, -, ht⟩ := exec_ran (.inl hi) h
  obtain ⟨-, rfl⟩ := hps hi
  obtain ⟨es, hwent, -, hrun⟩ := State.runSteps_spec hord (s := s.start i) hfree ha
  obtain ⟨tfault, -, -, tlines, trx, -⟩ := State.finish_parts ht
  rw [tfault] at hf
  obtain ⟨hframes, -⟩ := hrun.resolve_right (by rintro ⟨⟨-, -, b, hb⟩, -⟩; simp [hf] at hb)
  obtain ⟨haligned, hheard⟩ := hwent.heard
  refine ⟨es, (show State.Carried s _ es from hwent.carried).of_finish ht, ⟨?_, ?_⟩, hframes⟩
  · rwa [State.Aligned, trx]
  · rwa [trx]

/-- A host operation that leaves no fault. -/
theorem exec_keepsBetween {i : Instr} {s t : State} (hi : i.isHostOp = true) (ha : s.Aligned) (h : s.rx.BetweenOps)
    (hx : exec i s = .next t) (hf : t.fault = none) : t.Aligned ∧ t.rx.BetweenOps := by
  have hsent := exec_sent hi ha hx hf
  obtain ⟨r, hr, hrx⟩ := hsent.leads (KeepsBetween.hostSteps s.lines.ctl s.cfg hi) h rfl
  exact ⟨hsent.aligned, hr.of_sansSerial hrx⟩

/-- Settles O53: every part of every operation's script keeps a receiver between operations, and so do the two rises
of `board_setup()`. -/
theorem operationsKeepBetween : Obligations.OperationsKeepBetween := by
  unfold Obligations.OperationsKeepBetween
  refine ⟨⟨rfl, nofun, nofun, nofun, fun h => (h rfl).elim⟩, fun s t ha h hf =>
    ⟨fun i hi hx => exec_keepsBetween hi ha h hx hf, fun hin hs => ?_⟩⟩
  rcases step_cases hs with ⟨-, rfl⟩ | ⟨rest, -, rfl⟩ | ⟨e, rest, hwire, -⟩ | ⟨i, rest, hfetch, hx⟩
  · exact ⟨ha, h⟩
  · exact State.boardSetup_keepsBetween (s := { s with inbox := rest }) ha h
  · simp [hwire] at hin
  · rcases hfetch with ⟨bs, -, hdec⟩ | ⟨bs, hinstr, -⟩
    · obtain ⟨-, hi⟩ := decodeCaller_ok hdec
      exact exec_keepsBetween hi (s := { s with inbox := rest }) ha h hx hf
    · simp [hinstr] at hin

end Sys2Proof.Machine

/-! ## What the block does never depends on the receiver (60_exceptions.md R296) -/

namespace Sys2Proof.Machine

/-- A state without its receiver. -/
def State.sansRx (s : State) : State := { s with rx := Rx.blank none }

/-- An outcome without the receiver of its next state. -/
def outcomeSansRx : Host.Outcome State Fault Refusal → Host.Outcome State Fault Refusal
  | .next s => .next s.sansRx
  | .fault r => .fault r
  | .refused r => .refused r

@[simp] theorem State.sansRx_cfg (s : State) : s.sansRx.cfg = s.cfg := rfl
@[simp] theorem State.sansRx_lines (s : State) : s.sansRx.lines = s.lines := rfl
@[simp] theorem State.sansRx_op (s : State) : s.sansRx.op = s.op := rfl
@[simp] theorem State.sansRx_fault (s : State) : s.sansRx.fault = s.fault := rfl

@[simp] theorem State.sansRx_nextZeros (s : State) : s.sansRx.nextZeros = s.nextZeros := rfl

theorem State.sansRx_useZeros (s : State) : s.sansRx.useZeros = s.useZeros.sansRx := by
  obtain ⟨cfg, lines, trace, op, pc, locals, fault, ⟨txbuf, txdone, inFlight, sched⟩, rx, inbox, ctr⟩ := s
  cases sched <;> rfl

/-- A byte in either transport. -/
theorem State.transmit_sansRx (b : Byte) (s : State) : (s.sansRx.transmit b).sansRx = (s.transmit b).sansRx := by
  unfold State.transmit
  rw [State.sansRx_cfg]
  cases s.cfg.transport with
  | bitbang =>
    simp only [State.transmitBitbang, State.emitAll_eq]
    rfl
  | hw =>
    cases h : timesOut s.cfg.txWaitBound s.nextZeros with
    | false =>
      simp only [State.transmitHw_inTime h, State.transmitHw_inTime (s := s.sansRx) h, State.sansRx_useZeros]
      rfl
    | true =>
      simp only [State.transmitHw_timedOut h, State.transmitHw_timedOut (s := s.sansRx) h, State.sansRx_useZeros]
      rfl

theorem State.prim_sansRx (p : Prim) (s : State) : (s.sansRx.prim p).sansRx = (s.prim p).sansRx := by
  cases p with
  | transmit b => exact State.transmit_sansRx b s
  | drive | delay | raise | assign => rfl
  | checkIdle =>
    by_cases h : s.lines.idle = true
    · rw [State.prim_checkIdle_of_idle h, State.prim_checkIdle_of_idle (s := s.sansRx) h]
      rfl
    · rw [State.prim_checkIdle_of_not_idle h, State.prim_checkIdle_of_not_idle (s := s.sansRx) h]
      rfl

/-- Two states alike but for the receiver are alike so after a step list. -/
theorem State.runSteps_sansRx (ps : List Prim) {s u : State} (h : s.sansRx = u.sansRx) :
    (s.runSteps ps).sansRx = (u.runSteps ps).sansRx := by
  induction ps generalizing s u with
  | nil => exact h
  | cons p ps ih =>
    have hprim : (s.prim p).sansRx = (u.prim p).sansRx := by
      rw [← State.prim_sansRx, h, State.prim_sansRx]
    have hfault : (s.prim p).fault = (u.prim p).fault := (congrArg State.fault hprim :)
    rw [State.runSteps_cons, State.runSteps_cons, hfault]
    split
    · exact hprim
    · exact ih hprim

theorem State.finish_sansRx (s : State) : s.finish.sansRx = s.sansRx.finish := by
  unfold State.finish
  rw [State.sansRx_fault]
  split <;> rfl

theorem State.dropLocals_sansRx (s : State) : s.dropLocals.sansRx = s.sansRx.dropLocals := by
  unfold State.dropLocals
  rw [State.sansRx_fault]
  split <;> rfl

theorem State.issue_sansRx (i : Instr) (ps : List Prim) (s : State) :
    outcomeSansRx (s.sansRx.issue i ps) = outcomeSansRx (s.issue i ps) := by
  have hrun := State.runSteps_sansRx ps (s := s.sansRx.start i) (u := s.start i) rfl
  unfold State.issue
  rw [State.sansRx_fault, State.sansRx_op]
  cases s.fault with
  | some r => rfl
  | none =>
    cases s.op with
    | busy j => rfl
    | idle => simp only [outcomeSansRx, State.finish_sansRx, hrun]

theorem State.call_sansRx (i : Instr) (ps : List Prim) (s : State) :
    outcomeSansRx (s.sansRx.call i ps) = outcomeSansRx (s.call i ps) := by
  have hissue := State.issue_sansRx i ps s
  unfold State.call
  split
  · generalize s.sansRx.issue i ps = o at hissue
    generalize s.issue i ps = o' at hissue
    cases o with
    | next t =>
      cases o' with
      | next u =>
        have hu : t.sansRx = u.sansRx := Host.Outcome.next.inj hissue
        simp only [outcomeSansRx, State.dropLocals_sansRx, hu]
      | fault | refused => cases hissue
    | fault | refused => cases o' <;> cases hissue; rfl
  · rfl

/-- No instruction looks at the receiver but to change it. -/
theorem exec_sansRx (i : Instr) (s : State) : outcomeSansRx (exec i s.sansRx) = outcomeSansRx (exec i s) := by
  cases hi : i.isHostOp with
  | true =>
    rw [exec_hostOp hi, exec_hostOp hi]
    exact State.call_sansRx i _ s
  | false =>
    cases i with
    | writeCommand | writeData | glyph => exact State.issue_sansRx _ _ s
    | writePixels c n =>
      simp only [exec, execWritePixels]
      split
      · rfl
      · exact State.issue_sansRx _ _ s
    | transmitHw b =>
      simp only [exec, execTransmitHw, State.sansRx_cfg]
      cases s.cfg.transport with
      | hw => exact State.issue_sansRx _ _ s
      | bitbang => rfl
    | transmitBitbang b =>
      simp only [exec, execTransmitBitbang, State.sansRx_cfg]
      cases s.cfg.transport with
      | bitbang => exact State.issue_sansRx _ _ s
      | hw => rfl
    | cmdSwreset | cmdSlpout | cmdColmod | cmdDispon | cmdCaset | cmdRaset | cmdRamwr => rfl
    | data | cmdUnsupported => rfl
    | init | setWindow | fillRectangle | drawPixel | drawBitmap | drawChar | drawString => cases hi

theorem eq_next_of_outcomeSansRx {o : Host.Outcome State Fault Refusal} {t : State}
    (h : outcomeSansRx o = .next t.sansRx) : ∃ rx, o = .next { t with rx := rx } := by
  cases o with
  | next u =>
    have hu : u.sansRx = t.sansRx := Host.Outcome.next.inj h
    exact ⟨u.rx, congrArg (fun w : State => Host.Outcome.next { w with rx := u.rx }) hu⟩
  | fault | refused => cases h

theorem eq_fault_of_outcomeSansRx {o : Host.Outcome State Fault Refusal} {f : Fault}
    (h : outcomeSansRx o = .fault f) : o = .fault f := by
  cases o with
  | fault => exact h
  | next | refused => cases h

theorem eq_refused_of_outcomeSansRx {o : Host.Outcome State Fault Refusal} {f : Refusal}
    (h : outcomeSansRx o = .refused f) : o = .refused f := by
  cases o with
  | refused => exact h
  | next | fault => cases h

/-- Settles O55: without their receivers the two outcomes are the same one. -/
theorem blockIgnoresReceiver : Obligations.BlockIgnoresReceiver := by
  unfold Obligations.BlockIgnoresReceiver
  intro i s rx
  have h : outcomeSansRx (exec i { s with rx := rx }) = outcomeSansRx (exec i s) :=
    (exec_sansRx i { s with rx := rx }).symm.trans (exec_sansRx i s)
  refine ⟨fun t hx => ?_, fun f hx => ?_, fun f hx => ?_⟩ <;> rw [hx] at h
  · exact eq_next_of_outcomeSansRx h
  · exact eq_fault_of_outcomeSansRx h
  · exact eq_refused_of_outcomeSansRx h

end Sys2Proof.Machine

/-! ## Where pixels land (R262) -/

namespace Sys2Proof.Machine

/-! ### What a stroke leaves, by row and column -/

/-- The first `w × h` cells in row-major order are those of a `w × h` rectangle. -/
theorem exists_rowMajor_iff {w h x y row col : Nat} (hw : 0 < w) :
    (∃ m, m < w * h ∧ row = y + m / w % h ∧ col = x + m % w) ↔
      (y ≤ row ∧ row < y + h) ∧ x ≤ col ∧ col < x + w := by
  constructor
  · rintro ⟨m, hm, rfl, rfl⟩
    have hdiv : m / w < h := Nat.div_lt_of_lt_mul hm
    rw [Nat.mod_eq_of_lt hdiv]
    exact ⟨⟨Nat.le_add_right _ _, Nat.add_lt_add_left hdiv y⟩, Nat.le_add_right _ _,
      Nat.add_lt_add_left (Nat.mod_lt m hw) x⟩
  · rintro ⟨⟨hrow, hrow'⟩, hcol, hcol'⟩
    obtain ⟨r, rfl⟩ := Nat.exists_eq_add_of_le hrow
    obtain ⟨q, rfl⟩ := Nat.exists_eq_add_of_le hcol
    have hr : r < h := by omega
    have hq : q < w := by omega
    have hdiv : (q + w * r) / w = r := by rw [Nat.add_mul_div_left _ _ hw, Nat.div_eq_of_lt hq, Nat.zero_add]
    have hmod : (q + w * r) % w = q := by rw [Nat.add_mul_mod_self_left, Nat.mod_eq_of_lt hq]
    refine ⟨q + w * r, ?_, by rw [hdiv, Nat.mod_eq_of_lt hr], by rw [hmod]⟩
    calc q + w * r < w * (r + 1) := by rw [Nat.mul_succ]; omega
      _ ≤ w * h := Nat.mul_le_mul_left w hr

theorem addr_eq_ofNat {a : Addr} {n : Nat} (h : a.toNat = n) : a = BitVec.ofNat 16 n := by
  rw [← h, BitVec.ofNat_toNat, BitVec.setWidth_eq]

/-- A stroke as long as its window has painted the window, and the pointer is back at its corner. -/
theorem Rx.Stroke.full {a rx : Rx} {x1 y1 x2 y2 : Byte} {v : Colour} (hx : x1.toNat ≤ x2.toNat)
    (hy : y1.toNat ≤ y2.toNat)
    (h : a.Stroke x1 y1 x2 y2 v ((x2.toNat - x1.toNat + 1) * (y2.toNat - y1.toNat + 1)) rx) :
    rx.pc = some (BitVec.ofNat 16 x1.toNat) ∧ rx.pr = some (BitVec.ofNat 16 y1.toNat) ∧
      ∀ row col, col < 65536 → Memory.read rx.fb row col =
        if y1.toNat ≤ row ∧ row ≤ y2.toNat ∧ x1.toNat ≤ col ∧ col ≤ x2.toNat then some v
        else Memory.read a.fb row col := by
  obtain ⟨fb, pc, pr, rfl, hpc, hpr, hread⟩ := h
  rw [Nat.mul_mod_right, Nat.add_zero] at hpc
  rw [Nat.mul_div_cancel_left _ (Nat.succ_pos _), Nat.mod_self, Nat.add_zero] at hpr
  refine ⟨congrArg some (addr_eq_ofNat hpc), congrArg some (addr_eq_ofNat hpr), fun row col hcol => ?_⟩
  rw [hread row col hcol]
  refine if_congr ?_ rfl rfl
  rw [exists_rowMajor_iff (Nat.succ_pos _)]
  omega

/-- A stroke of one pixel in a window of two columns has painted its corner, and the pointer is one column on. -/
theorem Rx.Stroke.one {a rx : Rx} {x1 y1 x2 y2 : Byte} {v : Colour} (hx : x2.toNat = x1.toNat + 1)
    (h : a.Stroke x1 y1 x2 y2 v 1 rx) :
    rx.pc = some (BitVec.ofNat 16 x2.toNat) ∧ rx.pr = some (BitVec.ofNat 16 y1.toNat) ∧
      ∀ row col, col < 65536 → Memory.read rx.fb row col =
        if row = y1.toNat ∧ col = x1.toNat then some v else Memory.read a.fb row col := by
  obtain ⟨fb, pc, pr, rfl, hpc, hpr, hread⟩ := h
  have hwidth : x2.toNat - x1.toNat + 1 = 2 := by omega
  rw [hwidth] at hpc hpr
  rw [Nat.div_eq_of_lt (by decide), Nat.zero_mod, Nat.add_zero] at hpr
  refine ⟨congrArg some (addr_eq_ofNat (hpc.trans hx.symm)), congrArg some (addr_eq_ofNat hpr),
    fun row col hcol => ?_⟩
  rw [hread row col hcol]
  refine if_congr ?_ rfl rfl
  simp only [Nat.lt_one_iff, exists_eq_left, Nat.zero_div, Nat.zero_mod, Nat.add_zero]

/-! ### Where the receiver stays defined -/

/-- A receiver that takes commands is not lost when its window lies in the area and the format is the 16-bit one. -/
theorem Leads.windowListening {c : Config} {a : Rx} {x1 y1 x2 y2 : Byte} (v : Colour) (ha : a.Listening)
    (hw : WindowInArea c x1 y1 x2 y2) (hf : a.colmod = some c.colmod16bpp) :
    Leads c (· = a) (windowFrames c.opcodes x1 y1 x2 y2) (a.Stroke x1 y1 x2 y2 v 0) := by
  refine (Leads.window x1 y1 x2 y2 ha).mono (fun _ h => h) ?_
  rintro _ rfl
  rw [Rx.windowed_opened hw hf]
  exact .zero a x1 y1 x2 y2 v

theorem Leads.fillListening {c : Config} {a : Rx} {x1 y1 x2 y2 : Byte} (v : Colour) (ha : a.Listening)
    (hw : WindowInArea c x1 y1 x2 y2) (hf : a.colmod = some c.colmod16bpp) :
    Leads c (· = a) (fillFrames c.opcodes x1 y1 x2 y2 v)
      (a.Stroke x1 y1 x2 y2 v (0 + (x2.toNat - x1.toNat + 1) * (y2.toNat - y1.toNat + 1))) :=
  (Leads.windowListening v ha hw hf).append (Leads.streamFrame v ha.1 hw 0 _)

theorem Leads.pixelListening {c : Config} {a : Rx} {x y : Byte} (v : Colour) (ha : a.Listening)
    (hw : WindowInArea c x y (x + 1) (y + 1)) (hf : a.colmod = some c.colmod16bpp) :
    Leads c (· = a) (Machine.pixelFrames c.opcodes x y v) (a.Stroke x y (x + 1) (y + 1) v 1) := by
  rw [Machine.pixelFrames, List.append_assoc]
  exact (Leads.windowListening v ha hw hf).append (Leads.pixelFrames v ha.1 hw 0)

theorem Rx.Stroke.undef {a rx : Rx} {x1 y1 x2 y2 : Byte} {v : Colour} {k : Nat} (h : a.Stroke x1 y1 x2 y2 v k rx) :
    rx.undef = a.undef := by
  obtain ⟨fb, pc, pr, rfl, -⟩ := h
  rfl

/-- What a drawing operation leaves of a receiver that stays defined is its stroke. -/
theorem Rx.Painted.stroke {c : Config} {a rx : Rx} {x1 y1 x2 y2 : Byte} {v : Colour} {k : Nat}
    (h : Rx.Painted c a x1 y1 x2 y2 v k rx) (hdef : rx.undef = none) : a.settled.Stroke x1 y1 x2 y2 v k rx := by
  rcases h with ⟨r, hr, -⟩ | ⟨-, -, -, hstroke⟩
  · rw [hdef] at hr
    cases hr
  · exact hstroke

/-- After frames that paint in a receiver that takes commands the receiver is defined. -/
theorem State.Sent.defined {s t : State} {fs : List FrameEvent} {x1 y1 x2 y2 : Byte} {v : Colour} {k : Nat}
    (h : State.Sent s t fs) (hl : Leads s.cfg (· = s.rx) fs (s.rx.Stroke x1 y1 x2 y2 v k))
    (hlis : s.rx.Listening) : t.rx.undef = none := by
  obtain ⟨⟨hdef, -, -⟩, -, -⟩ := hlis
  obtain ⟨r, hstroke, hrx⟩ := h.leads hl rfl rfl
  rw [Rx.eq_withSerial hrx, Rx.withSerial_undef, hstroke.undef, hdef]

/-- After frames that paint, a receiver that is defined holds the stroke, the serial register aside. -/
theorem State.Sent.painted {s t : State} {fs : List FrameEvent} {x1 y1 x2 y2 : Byte} {v : Colour} {k : Nat}
    (h : State.Sent s t fs) (hl : Leads s.cfg (· = s.rx) fs (Rx.Painted s.cfg s.rx x1 y1 x2 y2 v k))
    (hdef : t.rx.undef = none) :
    ∃ r, s.rx.settled.Stroke x1 y1 x2 y2 v k r ∧ t.rx = r.withSerial t.rx.shift t.rx.nbits := by
  obtain ⟨r, hpainted, hrx⟩ := h.leads hl rfl rfl
  have heq := Rx.eq_withSerial hrx
  rw [heq, Rx.withSerial_undef] at hdef
  exact ⟨r, hpainted.stroke hdef, heq⟩

/-- Settles O43: both operations leave a stroke, the fill one as long as its window and the pixel one of one pixel. -/
theorem pixelPlacement : Obligations.PixelPlacement := by
  unfold Obligations.PixelPlacement
  intro s x1 y1 x2 y2 colour hs ha hu hbetween hx hy hx2 hy2 hcolour
  have ux1 : (u8 x1).toNat = x1 := u8_toNat (by omega)
  have uy1 : (u8 y1).toNat = y1 := u8_toNat (by omega)
  have ux2 : (u8 x2).toNat = x2 := u8_toNat hx2
  have uy2 : (u8 y2).toNat = y2 := u8_toNat hy2
  refine ⟨?_, fun hxlast hylast => ?_⟩
  · obtain ⟨t, -, hexec, -, hsent, -⟩ := fillSends s x1 y1 x2 y2 colour hs ha hu hx hy hx2 hy2 hcolour
    refine ⟨t, hexec, fun hlis hcols hrows hf => ?_, fun hdef => ?_⟩
    · have hw := (windowInArea_u8 s.cfg (by omega) (by omega) hx2 hy2).2 ⟨hx, hy, hcols, hrows⟩
      exact hsent.defined (Leads.fillListening _ hlis hw hf) hlis
    · obtain ⟨r, hstroke, hrx⟩ := hsent.painted (Leads.fillBetween hbetween _ _ _ _ _) hdef
      have hplaced := hstroke.full (by omega) (by omega)
      rw [ux1, uy1, ux2, uy2] at hplaced
      rw [hrx]
      exact hplaced
  · obtain ⟨t, hexec, -, hsent⟩ := drawPixelSends s x1 y1 colour hs ha hu hxlast hylast hcolour
    have hframes : windowFrames s.cfg.opcodes (u8 x1) (u8 y1) (u8 (x1 + 1)) (u8 (y1 + 1)) ++
        dataFrame (u8 (colour / 256)) ++ dataFrame (u8 (colour % 256)) =
        pixelFrames s.cfg.opcodes (u8 x1) (u8 y1) (u16 colour) := by
      rw [pixelFrames, u8_succ, u8_succ, colourHi_u16, colourLo_u16]
    rw [hframes] at hsent
    refine ⟨t, hexec, fun hlis hcols hrows hf => ?_, fun hdef => ?_⟩
    · have hw := (windowInArea_u8 s.cfg (x1 := x1) (y1 := y1) (x2 := x1 + 1) (y2 := y1 + 1) (by omega) (by omega)
        (by omega) (by omega)).2 ⟨by omega, by omega, hcols, hrows⟩
      rw [u8_succ, u8_succ] at hw
      exact hsent.defined (Leads.pixelListening _ hlis hw hf) hlis
    · have usucc : (u8 x1 + 1).toNat = x1 + 1 := by rw [← u8_succ, u8_toNat (by omega)]
      obtain ⟨r, hstroke, hrx⟩ := hsent.painted (Leads.pixelBetween hbetween _ _ _) hdef
      have hplaced := hstroke.one (by rw [usucc, ux1])
      rw [usucc, ux1, uy1] at hplaced
      rw [hrx]
      exact hplaced

end Sys2Proof.Machine

/-! ## What a fault stops (60_exceptions.md R284) -/

namespace Sys2Proof.Machine

/-- A host operation or primitive that raises a fault stays in `op`, and the fault records it and the step (R284). -/
theorem exec_faulted {i : Instr} {s t : State} {r : FaultRecord} (hi : i.isHostOp = true ∨ i.isPrimitive = true)
    (h : exec i s = .next t) (hr : t.fault = some r) : t.op = .busy i ∧ r.op = t.op ∧ r.pc = t.pc := by
  obtain ⟨⟨hfree, -⟩, ps, -, -, -, ht⟩ := exec_ran hi h
  obtain ⟨-, -, -, hop, -⟩ := (s.start i).runSteps_emits ps
  obtain ⟨tfault, -, -, -, -, -, -, tkept⟩ := State.finish_parts ht
  rw [tfault] at hr
  obtain ⟨top, tpc⟩ := tkept (by simp [hr])
  rw [top, tpc]
  exact ⟨hop, State.runSteps_recorded ps (s := s.start i) hfree r hr⟩

/-- An operation issued after a fault. -/
theorem State.issue_stuck {s : State} {r : FaultRecord} (hf : s.fault = some r) (i : Instr) (ps : List Prim) :
    s.issue i ps = .fault (.sequencerStuck r) := by
  simp only [State.issue, hf]

/-- The instance has every primitive but the other transport's `transmit` and the empty stream. -/
theorem primitiveSteps_eq_some {c : Config} {i : Instr} (hi : i.isPrimitive = true)
    (hhw : ∀ b, i = .transmitHw b → c.transport = .hw)
    (hbb : ∀ b, i = .transmitBitbang b → c.transport = .bitbang) (hpx : ∀ colour, i ≠ .writePixels colour 0) :
    ∃ ps, primitiveSteps? c i = some ps := by
  cases i with
  | transmitHw b => exact ⟨[.transmit b], by simp only [primitiveSteps?, hhw b rfl]⟩
  | transmitBitbang b => exact ⟨[.transmit b], by simp only [primitiveSteps?, hbb b rfl]⟩
  | writePixels colour n =>
    have hn : n ≠ 0 := fun hn => hpx colour (by rw [hn])
    exact ⟨writePixelsSteps colour n, by simp only [primitiveSteps?, hn, if_false]⟩
  | writeCommand | writeData | glyph => exact ⟨_, rfl⟩
  | init | setWindow | fillRectangle | drawPixel | drawBitmap | drawChar | drawString => cases hi
  | cmdSwreset | cmdSlpout | cmdColmod | cmdDispon | cmdCaset | cmdRaset | cmdRamwr => cases hi
  | data | cmdUnsupported => cases hi

/-- After a fault a step may reach the bus and the receiver, never the sequencer. -/
theorem step_of_fault {s t : State} {r : FaultRecord} (hf : s.fault = some r) (hs : step s = .next t) :
    t.fault = s.fault ∧ t.op = s.op ∧ t.pc = s.pc := by
  rcases step_cases hs with ⟨-, rfl⟩ | ⟨rest, -, rfl⟩ | ⟨e, rest, -, rfl⟩ | ⟨i, rest, -, hx⟩
  · exact ⟨rfl, rfl, rfl⟩
  · exact ⟨rfl, rfl, rfl⟩
  · exact ⟨rfl, rfl, rfl⟩
  · rcases exec_touches hx with ⟨e, -, rfl⟩ | ⟨⟨hfree, -⟩, -⟩
    · exact ⟨rfl, rfl, rfl⟩
    · cases hf.symm.trans hfree

/-- Settles O5: a run ends in the state its fault was raised in, and only an idle sequencer without a fault runs. -/
theorem faultsAreSticky : Obligations.FaultsAreSticky := by
  unfold Obligations.FaultsAreSticky
  refine ⟨fun i s t r hi _ hx hr => ?_, fun i s r hi hfit hhw hbb hpx hf => ?_, fun s t r hf hs => ?_⟩
  · obtain ⟨hop, hrop, hrpc⟩ := exec_faulted hi hx hr
    exact ⟨hrop.trans hop, hop, hrpc⟩
  · rcases hi with hi | hi
    · rw [exec_hostOp hi]
      exact State.call_stuck hfit hf _
    · obtain ⟨ps, hps⟩ := primitiveSteps_eq_some hi hhw hbb hpx
      rw [exec_of_primitiveSteps hps]
      exact State.issue_stuck hf i ps
  · obtain ⟨hfault, hop, hpc⟩ := step_of_fault hf hs
    exact ⟨hfault.trans hf, hop, hpc⟩

end Sys2Proof.Machine
